-- ==== Sys2Proof/Word.lean ====
section
/-! DEFINITION. The word types of BAU-1 (00_scope.md R8, R9; 30_encoding.md R70, R72; 10_state.md R26, R29). -/

namespace Sys2Proof

/-- A byte or a character code: 8 bits (00_scope.md R9); also a cell of `BUF` (10_state.md R24). -/
abbrev Byte := BitVec 8

/-- A 5-bit group (00_scope.md R9). -/
abbrev Group := BitVec 5

/-- A command word (30_encoding.md R70). -/
abbrev CmdWord := BitVec 16

/-- A response word (30_encoding.md R72). -/
abbrev RespWord := BitVec 32

/-- A status register's value (10_state.md R29). -/
abbrev StatusWord := BitVec 16

/-- A value of the 40-bit polymod register (10_state.md R26). -/
abbrev Csum := BitVec 40

/-- A 4-bit error code (60_exceptions.md R151). -/
abbrev ErrCode := BitVec 4

end Sys2Proof
end

