-- ==== Sys2Proof/Config.lean ====
section
/-! DEFINITION. The parameters of the unit (00_scope.md R6): what differs between builds. The fixed values of the same
table (58, 256, 25, the group widths) stand in `Sys2Proof/Machine/Operands.lean`. -/

namespace Sys2Proof

/-- The build parameters of 00_scope.md R6, the rows of kind "parameter". A machine carries one value of this type and
no command changes it (10_state.md R47), so a statement about every state holds for every build. -/
structure Config where
  /-- `B58_CAP`, the number of cells of the working buffer. -/
  cap : Nat
  /-- `RGP_REJECT_EXCESS`, the OPEN parameter (42_regrouper.md R118). -/
  rejectExcess : Bool
  /-- `PCK_GEN[0..4]` (10_state.md R43). -/
  gen : Vector Csum 5
  /-- `PCK_INIT`. -/
  init : Csum
  /-- `PCK_FINAL_XOR`. -/
  finalXor : Csum
deriving DecidableEq, Repr

/-- The constraint 00_scope.md R6 puts on `B58_CAP`. -/
abbrev Config.legal (c : Config) : Prop := 35 ≤ c.cap ∧ c.cap ≤ 255

end Sys2Proof
end

