-- ==== Sys2Proof/Syntax.lean ====
section
/-! DEFINITION. The sixteen commands (30_encoding.md R74): one constructor per row of spec/opcode_table.json, each with
the operand its form gives it (R71). -/

namespace Sys2Proof

/-- `B58.MODE` (10_state.md R23): the operand of `B58.INIT`, form `F`. -/
inductive Mode where
  | enc  -- 0: bytes in, Base58 characters out
  | dec  -- 1: character codes in, bytes out
deriving DecidableEq, Repr

/-- `RGP.DIR` (10_state.md R25): the operand of `RGP.INIT`, form `F`. -/
inductive Dir where
  | eightToFive  -- 0
  | fiveToEight  -- 1
deriving DecidableEq, Repr

/-- The `UNIT` field's legal values (30_encoding.md R70). -/
inductive Block where
  | sys | b58 | rgp | pck
deriving DecidableEq, Repr

/-- A command with its operand (30_encoding.md R71, R74). -/
inductive Instr where
  /-- `NOP` (44_system.md R140). -/
  | nop
  /-- `RDSR n` (44_system.md R141), form `N`. -/
  | rdsr (n : Byte)
  /-- `SRST` (44_system.md R142). -/
  | srst
  /-- `B58.INIT m` (41_base58.md R95), form `F`. -/
  | b58Init (m : Mode)
  /-- `B58.PUSH v` (41_base58.md R96), form `D8`. -/
  | b58Push (v : Byte)
  /-- `B58.FIN` (41_base58.md R97). -/
  | b58Fin
  /-- `B58.POP` (41_base58.md R98). -/
  | b58Pop
  /-- `RGP.INIT d` (42_regrouper.md R111), form `F`. -/
  | rgpInit (d : Dir)
  /-- `RGP.PUSH8 v` (42_regrouper.md R113), form `D8`. -/
  | rgpPush8 (v : Byte)
  /-- `RGP.PUSH5 g` (42_regrouper.md R114), form `D5`. -/
  | rgpPush5 (g : Group)
  /-- `RGP.FLUSH p` (42_regrouper.md R115), form `F`; `p` is the source's `pad`. -/
  | rgpFlush (p : Bool)
  /-- `PCK.INIT` (43_checksum.md R128). -/
  | pckInit
  /-- `PCK.PFX c` (43_checksum.md R130), form `D8`. -/
  | pckPfx (c : Byte)
  /-- `PCK.GRP g` (43_checksum.md R131), form `D5`. -/
  | pckGrp (g : Group)
  /-- `PCK.RDSYM k` (43_checksum.md R132), form `K`. -/
  | pckRdsym (k : BitVec 3)
  /-- `PCK.VERIFY` (43_checksum.md R133). -/
  | pckVerify
deriving DecidableEq, Repr

/-- The block a command belongs to: its `UNIT` field (30_encoding.md R70, R74). -/
def Instr.block : Instr → Block
  | .nop => .sys
  | .rdsr _ => .sys
  | .srst => .sys
  | .b58Init _ => .b58
  | .b58Push _ => .b58
  | .b58Fin => .b58
  | .b58Pop => .b58
  | .rgpInit _ => .rgp
  | .rgpPush8 _ => .rgp
  | .rgpPush5 _ => .rgp
  | .rgpFlush _ => .rgp
  | .pckInit => .pck
  | .pckPfx _ => .pck
  | .pckGrp _ => .pck
  | .pckRdsym _ => .pck
  | .pckVerify => .pck

end Sys2Proof
end

