-- ==== Sys2Proof/WellFormed.lean ====
section
/-! DEFINITION. Which instruction terms stand for a legal command word (30_encoding.md R71, R75). The operand types
already hold the legal values of every form but `N`, whose bound is a number and not a width. -/

namespace Sys2Proof

/-- The largest status-register number (10_state.md R29). -/
def lastStatusReg : Nat := 10

/-- The operand is one of the legal values of the command's form (30_encoding.md R71). -/
def Instr.wf : Instr → Bool
  | .nop => true
  | .rdsr n => decide (n.toNat ≤ lastStatusReg)
  | .srst => true
  | .b58Init _ => true
  | .b58Push _ => true
  | .b58Fin => true
  | .b58Pop => true
  | .rgpInit _ => true
  | .rgpPush8 _ => true
  | .rgpPush5 _ => true
  | .rgpFlush _ => true
  | .pckInit => true
  | .pckPfx _ => true
  | .pckGrp _ => true
  | .pckRdsym _ => true
  | .pckVerify => true

end Sys2Proof
end

