-- ==== Sys2Proof/Decode.lean ====
section
/-! DEFINITION. The decoder, total on every 16-bit word, and the encoder (30_encoding.md R70 to R76, R79). -/

namespace Sys2Proof

/-- Why a word is illegal: the four causes of 30_encoding.md R75. The unit answers all of them alike (R80). -/
inductive Illegal where
  /-- `UNIT` above 3. -/
  | noSuchUnit
  /-- A `FUNC` the block does not define. -/
  | noSuchFunc
  /-- A non-zero bit of `IMM` outside the command's operand form. -/
  | operandBits
  /-- `RDSR` with `IMM` above 10. -/
  | noSuchStatusReg
deriving DecidableEq, Repr

/-- `W[15:12]` (30_encoding.md R70). -/
def unitField (w : CmdWord) : BitVec 4 := w.extractLsb' 12 4

/-- `W[11:8]` (30_encoding.md R70). -/
def funcField (w : CmdWord) : BitVec 4 := w.extractLsb' 8 4

/-- `W[7:0]` (30_encoding.md R70). -/
def immField (w : CmdWord) : Byte := w.extractLsb' 0 8

/-- Form `Z` (30_encoding.md R71): no operand, `IMM` = 0. -/
def formZ (imm : Byte) (i : Instr) : Except Illegal Instr :=
  if imm = 0 then .ok i else .error .operandBits

/-- Form `F` (30_encoding.md R71): one flag, `IMM[7:1]` = 0. -/
def formF (imm : Byte) (i : Bool → Instr) : Except Illegal Instr :=
  if imm.extractLsb' 1 7 = 0 then .ok (i (imm.getLsbD 0)) else .error .operandBits

/-- Form `D5` (30_encoding.md R71): a 5-bit group, `IMM[7:5]` = 0. -/
def formD5 (imm : Byte) (i : Group → Instr) : Except Illegal Instr :=
  if imm.extractLsb' 5 3 = 0 then .ok (i (imm.extractLsb' 0 5)) else .error .operandBits

/-- Form `K` (30_encoding.md R71): a symbol index, `IMM[7:3]` = 0. -/
def formK (imm : Byte) (i : BitVec 3 → Instr) : Except Illegal Instr :=
  if imm.extractLsb' 3 5 = 0 then .ok (i (imm.extractLsb' 0 3)) else .error .operandBits

/-- Form `N` (30_encoding.md R71): a status-register number, 0 to 10. -/
def formN (imm : Byte) (i : Byte → Instr) : Except Illegal Instr :=
  if imm.toNat ≤ lastStatusReg then .ok (i imm) else .error .noSuchStatusReg

/-- `B58.MODE` from the flag of `B58.INIT` (41_base58.md R95). -/
def modeOfBit : Bool → Mode
  | false => .enc
  | true => .dec

/-- `RGP.DIR` from the flag of `RGP.INIT` (42_regrouper.md R111). -/
def dirOfBit : Bool → Dir
  | false => .eightToFive
  | true => .fiveToEight

/-- The commands with `UNIT` = 0 (30_encoding.md R74). -/
def decodeSys (func : BitVec 4) (imm : Byte) : Except Illegal Instr :=
  if func = 0x0 then formZ imm .nop
  else if func = 0x1 then formN imm .rdsr
  else if func = 0xF then formZ imm .srst
  else .error .noSuchFunc

/-- The commands with `UNIT` = 1 (30_encoding.md R74). -/
def decodeB58 (func : BitVec 4) (imm : Byte) : Except Illegal Instr :=
  if func = 0x0 then formF imm (fun b => .b58Init (modeOfBit b))
  else if func = 0x1 then .ok (.b58Push imm)
  else if func = 0x2 then formZ imm .b58Fin
  else if func = 0x3 then formZ imm .b58Pop
  else .error .noSuchFunc

/-- The commands with `UNIT` = 2 (30_encoding.md R74). -/
def decodeRgp (func : BitVec 4) (imm : Byte) : Except Illegal Instr :=
  if func = 0x0 then formF imm (fun b => .rgpInit (dirOfBit b))
  else if func = 0x1 then .ok (.rgpPush8 imm)
  else if func = 0x2 then formD5 imm .rgpPush5
  else if func = 0x3 then formF imm .rgpFlush
  else .error .noSuchFunc

/-- The commands with `UNIT` = 3 (30_encoding.md R74). -/
def decodePck (func : BitVec 4) (imm : Byte) : Except Illegal Instr :=
  if func = 0x0 then formZ imm .pckInit
  else if func = 0x1 then .ok (.pckPfx imm)
  else if func = 0x2 then formD5 imm .pckGrp
  else if func = 0x3 then formK imm .pckRdsym
  else if func = 0x4 then formZ imm .pckVerify
  else .error .noSuchFunc

/-- The first step of 30_encoding.md R79: the row of R74 the word matches, or why there is none. -/
def decode (w : CmdWord) : Except Illegal Instr :=
  if unitField w = 0 then decodeSys (funcField w) (immField w)
  else if unitField w = 1 then decodeB58 (funcField w) (immField w)
  else if unitField w = 2 then decodeRgp (funcField w) (immField w)
  else if unitField w = 3 then decodePck (funcField w) (immField w)
  else .error .noSuchUnit

/-- The flag of `B58.INIT m` (41_base58.md R95). -/
def bitOfMode : Mode → Byte
  | .enc => 0
  | .dec => 1

/-- The flag of `RGP.INIT d` (42_regrouper.md R111). -/
def bitOfDir : Dir → Byte
  | .eightToFive => 0
  | .fiveToEight => 1

/-- The flag of `RGP.FLUSH p` (42_regrouper.md R115). -/
def bitOfPad : Bool → Byte
  | false => 0
  | true => 1

/-- `UNIT ‖ FUNC ‖ IMM` (30_encoding.md R70). -/
def commandWord (unit func : BitVec 4) (imm : Byte) : CmdWord := unit ++ func ++ imm

/-- The word column of 30_encoding.md R74. -/
def encode : Instr → CmdWord
  | .nop => commandWord 0 0x0 0
  | .rdsr n => commandWord 0 0x1 n
  | .srst => commandWord 0 0xF 0
  | .b58Init m => commandWord 1 0x0 (bitOfMode m)
  | .b58Push v => commandWord 1 0x1 v
  | .b58Fin => commandWord 1 0x2 0
  | .b58Pop => commandWord 1 0x3 0
  | .rgpInit d => commandWord 2 0x0 (bitOfDir d)
  | .rgpPush8 v => commandWord 2 0x1 v
  | .rgpPush5 g => commandWord 2 0x2 (g.setWidth 8)
  | .rgpFlush p => commandWord 2 0x3 (bitOfPad p)
  | .pckInit => commandWord 3 0x0 0
  | .pckPfx c => commandWord 3 0x1 c
  | .pckGrp g => commandWord 3 0x2 (g.setWidth 8)
  | .pckRdsym k => commandWord 3 0x3 (k.setWidth 8)
  | .pckVerify => commandWord 3 0x4 0

/-- The instruction the decoder reads from the `nbits` bits `w`, the bits above `nbits` being 0. A command is one
16-bit word at the command port, with no byte order (20_memory.md R50, R58), so bit `k` of `w` is `W[k]`. -/
def decodeTableWord (nbits w : Nat) : Option Instr :=
  (decode (BitVec.ofNat 16 (w % 2 ^ nbits))).toOption

end Sys2Proof
end

