-- ==== Sys2Proof/Machine/Params.lean ====
section
/-! DEFINITION. The values of the build parameters that make the unit BAU-1 (00_scope.md R6). -/

namespace Sys2Proof.Machine

/-- `PCK_GEN[0..4]` (10_state.md R43).
PRESUMED: the spec marks the five values `[from general knowledge, not in source]` (93 G1). Unsafe: log 5. -/
def bau1Gen : Vector Csum 5 :=
  #v[0x98F2BC8E61#40, 0x79B76D99E2#40, 0xF33E5FB3C4#40, 0xAE2EABE2A8#40, 0x1E4F43E470#40]

/-- The parameter table of 00_scope.md R6 for BAU-1 with the defaults.
DESIGN CHOICE: a run from reset takes `RGP_REJECT_EXCESS` at its default, false, though the parameter is OPEN (log 7,
unsafe); PRESUMED: `PCK_INIT` and `PCK_FINAL_XOR` (93 G2, G3; log 5, unsafe). -/
def bau1 : Config where
  cap := 35
  rejectExcess := false
  gen := bau1Gen
  init := 1
  finalXor := 1

end Sys2Proof.Machine
end

