-- ==== Sys2Proof/Machine/State.lean ====
section
/-! DEFINITION. The state of the machine (10_state.md R20), as plain data, and the state after reset (R45, R176). -/

namespace Sys2Proof.Machine

/-- The sequencing state of a block (10_state.md R46). RGP and PCK never reach `drain` (R28 item 7). -/
inductive Phase where
  | idle | active | drain | error
deriving DecidableEq, Repr

/-- The data errors the unit raises (60_exceptions.md R151, class "data error"). -/
inductive Kind where
  | invalidCharacter | invalidLength | checksumMismatch | invalidPadding | eCapacity
deriving DecidableEq, Repr

/-- The B58 record (10_state.md R23). -/
structure B58Rec where
  phase : Phase
  mode : Mode
  leading : Bool
  ovf : Bool
  err : ErrCode
  lz : BitVec 8
  blen : BitVec 8
  rptr : BitVec 8
deriving DecidableEq, Repr

/-- The RGP record (10_state.md R25). -/
structure RgpRec where
  phase : Phase
  dir : Dir
  nbits : BitVec 3
  acc : BitVec 7
  err : ErrCode
deriving DecidableEq, Repr

/-- The PCK record (10_state.md R26). -/
structure PckRec where
  phase : Phase
  csum : Csum
  err : ErrCode
deriving DecidableEq, Repr

/-- The working buffer `BUF` (10_state.md R24): the cells that have been written, by index. A cell that is not listed
has no value (R45). Its canonical form is `Memory.wf` of `Sys2Proof/Machine/Ops.lean`. -/
abbrev Memory := List Host.Cell

/-- What the host does next (00_scope.md R11): it presents a command word, or asserts the hardware reset input
(70_reset_and_hazards.md R175 (a)). -/
inductive HostInput where
  | command (w : CmdWord)
  | reset
deriving DecidableEq, Repr

/-- The unit's state tuple `(B58, BUF, RGP, PCK)` (10_state.md R20), the build's parameters, and the two ports as a run
sees them.
DESIGN CHOICE: `cfg`, `inputs` and `resps` are no state of the unit (R22, R47): they are the arguments and the
observable result of a run (00_scope.md R7, R13), held here because a step is a function of the state alone
(log 1, log 4; safe). -/
structure State where
  /-- The build parameters (00_scope.md R6, R7). No step changes them. -/
  cfg : Config
  b58 : B58Rec
  buf : Memory
  rgp : RgpRec
  pck : PckRec
  /-- What the host has still to present, next first (00_scope.md R13). -/
  inputs : List HostInput
  /-- The response words so far, oldest first: all that can be observed of a run (00_scope.md R13). -/
  resps : List RespWord
deriving DecidableEq, Repr

/-- Stops that no state meeting the invariant of 10_state.md R28 reaches. -/
inductive Fault where
  /-- A read of a `BUF` cell that nothing has written: raised by `B58.PUSH` and `B58.POP`. 10_state.md R45 asks for no
  value there; R28 item 2 shows it unreachable. Safe. -/
  | bufUnwritten
  /-- An access to `BUF` at an index at or above `B58_CAP`, a cell that does not exist (10_state.md R24): raised by
  `B58.PUSH` and `B58.POP`. Unreachable by R28 item 1. Safe. -/
  | bufRange
  /-- `B58ALPHA[d]` with `d` above 57, an entry that does not exist (10_state.md R41): raised by `B58.POP`. Unreachable
  by R28 item 2. Safe. -/
  | alphaRange
deriving DecidableEq, Repr

/-- Stops that are no behaviour of the unit. -/
inductive Refusal where
  /-- `exec` has no meaning for the instruction. No arm of `exec` answers so. Safe. -/
  | notModelled (mnemonic : String)
  /-- The host presents nothing more: the run has ended (00_scope.md R13), and the unit takes no step of its own (R11).
  Raised by `step`. Safe. -/
  | noCommand
deriving DecidableEq, Repr

/-- The B58 record after reset (10_state.md R45). -/
def b58Reset : B58Rec where
  phase := .idle
  mode := .enc
  leading := false
  ovf := false
  err := 0
  lz := 0
  blen := 0
  rptr := 0

/-- The RGP record after reset (10_state.md R45). -/
def rgpReset : RgpRec where
  phase := .idle
  dir := .eightToFive
  nbits := 0
  acc := 0
  err := 0

/-- The PCK record after reset (10_state.md R45): `CSUM` is 0, not `PCK_INIT`. -/
def pckReset : PckRec where
  phase := .idle
  csum := 0
  err := 0

/-- The machine right after reset (10_state.md R45, 70_reset_and_hazards.md R176): every field of the three records zero,
no cell of `BUF` with a value, and a run of which nothing has happened and nothing is presented (log 1). -/
def State.reset : State where
  cfg := bau1
  b58 := b58Reset
  buf := []
  rgp := rgpReset
  pck := pckReset
  inputs := []
  resps := []

end Sys2Proof.Machine
end

