-- ==== Sys2Proof/Machine/Operands.lean ====
section
/-! DEFINITION. The fixed parameters, the constant tables, and what the operands mean: the radices of a mode, the group
widths of a direction, the digit of a character code, the group of a prefix character. -/

namespace Sys2Proof.Machine

/-- `B58_RADIX` (00_scope.md R6). -/
def b58Radix : Nat := 58

/-- `BYTE_RADIX` (00_scope.md R6). -/
def byteRadix : Nat := 256

/-- `B58_DECLEN` (00_scope.md R6): the only decoded length `B58.FIN` accepts. -/
def b58DecLen : Nat := 25

/-- `FROM` of a mode (41_base58.md R93). -/
def fromRadix : Mode → Nat
  | .enc => byteRadix
  | .dec => b58Radix

/-- `TO` of a mode (41_base58.md R93). -/
def toRadix : Mode → Nat
  | .enc => b58Radix
  | .dec => byteRadix

/-- `FROM` of a direction (10_state.md R25). -/
def fromWidth : Dir → Nat
  | .eightToFive => 8
  | .fiveToEight => 5

/-- `TO` of a direction (10_state.md R25). -/
def toWidth : Dir → Nat
  | .eightToFive => 5
  | .fiveToEight => 8

/-- `B58ALPHA` (10_state.md R41): digits 0 to 57, as the rows of its table list the codes.
PRESUMED: that the codes are ASCII is marked `[from general knowledge, not in source]` by the spec (93 G5). Unsafe:
log 6. -/
def b58Alpha : List Byte :=
  [0x31, 0x32, 0x33, 0x34, 0x35, 0x36, 0x37, 0x38, 0x39, 0x41, 0x42, 0x43, 0x44, 0x45, 0x46,
   0x47, 0x48, 0x4A, 0x4B, 0x4C, 0x4D, 0x4E, 0x50, 0x51, 0x52, 0x53, 0x54, 0x55, 0x56, 0x57,
   0x58, 0x59, 0x5A, 0x61, 0x62, 0x63, 0x64, 0x65, 0x66, 0x67, 0x68, 0x69, 0x6A, 0x6B, 0x6D,
   0x6E, 0x6F, 0x70, 0x71, 0x72, 0x73, 0x74, 0x75, 0x76, 0x77, 0x78, 0x79, 0x7A]

/-- `B58ALPHA[d]`, the character of digit `d`; no entry for `d` above 57. -/
def b58Char (d : Nat) : Option Byte := b58Alpha[d]?

/-- `B58INV(c)` (10_state.md R42): the `d` with `B58ALPHA[d] = c`, or none. -/
def b58Inv (c : Byte) : Option Nat := b58Alpha.findIdx? (· == c)

/-- The group of a prefix character, `c and 0x1F` (43_checksum.md R130; 90_conflicts.md C9). -/
def pfxGroup (c : Byte) : Group := (c &&& 0x1F).setWidth 5

end Sys2Proof.Machine
end

