-- ==== Sys2Proof/Machine/Ops.lean ====
section
/-! DEFINITION. The shared operations: the response, the two refusals, data-error entry, reset, the host's ports, and the
working buffer. -/

namespace Sys2Proof.Machine

/-- What a meaning answers. -/
abbrev Result := Host.Outcome State Fault Refusal

/-! ### The response port -/

/-- The response word of `respond(err, data)` (30_encoding.md R72). -/
def respWord (err : ErrCode) (data : List Byte) : RespWord :=
  err ++ (0 : BitVec 10) ++ BitVec.ofNat 2 data.length ++ data[1]?.getD 0 ++ data[0]?.getD 0

/-- The state with one more response word at the response port. -/
def State.say (s : State) (r : RespWord) : State := { s with resps := s.resps ++ [r] }

/-- `respond(0, data)`: the command succeeds (00_scope.md R10, 30_encoding.md R72). -/
def respond (data : List Byte) (s : State) : Result := .next (s.say (respWord 0 data))

/-- The code of `E_ILLEGAL` (60_exceptions.md R151). -/
def illegalCode : ErrCode := 0xD

/-- The code of `E_SEQ` (60_exceptions.md R151). -/
def seqCode : ErrCode := 0xE

/-- `refuse E_ILLEGAL` (60_exceptions.md R154): only a response. -/
def refuseIllegal (s : State) : Result := .next (s.say (respWord illegalCode []))

/-- `refuse E_SEQ` (60_exceptions.md R155): only a response. -/
def refuseSeq (s : State) : Result := .next (s.say (respWord seqCode []))

/-! ### Data errors: the unit's exceptions -/

/-- The code of a data error (60_exceptions.md R151). -/
def kindCode : Kind → ErrCode
  | .invalidCharacter => 0x1
  | .invalidLength => 0x2
  | .checksumMismatch => 0x3
  | .invalidPadding => 0x4
  | .eCapacity => 0xC

/-- The block a data error belongs to (60_exceptions.md R151, column "recorded"). -/
def kindBlock : Kind → Block
  | .invalidCharacter => .b58
  | .invalidLength => .b58
  | .checksumMismatch => .pck
  | .invalidPadding => .rgp
  | .eCapacity => .b58

/-- What a data error latches in its block: `ERR` and `PHASE`, and nothing else (60_exceptions.md R156). -/
def latchError (k : Kind) (s : State) : State :=
  match kindBlock k with
  | .sys => s
  | .b58 => { s with b58 := { s.b58 with err := kindCode k, phase := .error } }
  | .rgp => { s with rgp := { s.rgp with err := kindCode k, phase := .error } }
  | .pck => { s with pck := { s.pck with err := kindCode k, phase := .error } }

/-- Data-error entry, `raise <Kind>` (60_exceptions.md R156). There is no return (R161): a block leaves ERROR by its own
`INIT`, whose meaning writes the block's whole record, or by `resetUnit`. -/
def raise (k : Kind) (s : State) : Result := .next ((latchError k s).say (respWord (kindCode k) []))

/-- Reset of the unit's state tuple: hardware reset and `SRST` alike (70_reset_and_hazards.md R175, R176; 44_system.md
R142). DESIGN CHOICE: the cells of `BUF` lose their values (R142 allows that and keeping them; log 9, safe). -/
def resetUnit (s : State) : State :=
  { s with b58 := b58Reset, buf := [], rgp := rgpReset, pck := pckReset }

/-! ### The command port -/

/-- What the host presents next, and the state with it taken (00_scope.md R11, R13). -/
def fetch (s : State) : Option (HostInput × State) :=
  match s.inputs with
  | [] => none
  | x :: rest => some (x, { s with inputs := rest })

/-- The state in which the host presents `w` next, before all it had still to present. -/
def presentNext (w : CmdWord) (s : State) : State := { s with inputs := .command w :: s.inputs }

/-- The state in which the host presents exactly the words `ws`, in that order (00_scope.md R13). -/
def State.present (s : State) (ws : List CmdWord) : State := { s with inputs := ws.map .command }

/-! ### The working buffer -/

/-- The canonical form of the buffer's list: indices strictly rising. (An unlisted cell has no value, so no listed cell
can equal it.) -/
abbrev Memory.wf (m : Memory) : Prop := m.Pairwise fun x y => x.1 < y.1

/-- The value of cell `a`, none if nothing has written it (10_state.md R45). -/
def Memory.get (a : Nat) : Memory → Option Byte
  | [] => none
  | (b, v) :: m => if b = a then some v else Memory.get a m

/-- The buffer with `v` in cell `a`. -/
def Memory.set (a : Nat) (v : Byte) : Memory → Memory
  | [] => [(a, v)]
  | (b, u) :: m =>
    if a < b then (a, v) :: (b, u) :: m
    else if a = b then (a, v) :: m
    else (b, u) :: Memory.set a v m

/-- `BUF[a]` (00_scope.md R10) in a buffer of `cap` cells. A cell with no value stops the machine (10_state.md R45), and
so does one that does not exist (log 8, log 12; safe). -/
def readCell (cap : Nat) (m : Memory) (a : Nat) : Except Fault Byte :=
  if a < cap then
    match Memory.get a m with
    | some v => .ok v
    | none => .error .bufUnwritten
  else .error .bufRange

/-- `BUF[a] <- v` (00_scope.md R10) in a buffer of `cap` cells. -/
def writeCell (cap : Nat) (m : Memory) (a : Nat) (v : Byte) : Except Fault Memory :=
  if a < cap then .ok (Memory.set a v m) else .error .bufRange

/-- The cells `BUF[a .. a + k - 1]`, in rising index order. -/
def readCells (cap : Nat) (m : Memory) (a : Nat) : Nat → Except Fault (List Byte)
  | 0 => .ok []
  | k + 1 =>
    match readCell cap m a with
    | .error f => .error f
    | .ok v =>
      match readCells cap m (a + 1) k with
      | .error f => .error f
      | .ok vs => .ok (v :: vs)

/-- `BUF[a + i] <- vs[i]` for every `i`, in rising index order. -/
def writeCells (cap : Nat) (m : Memory) (a : Nat) : List Byte → Except Fault Memory
  | [] => .ok m
  | v :: vs =>
    match writeCell cap m a v with
    | .error f => .error f
    | .ok m' => writeCells cap m' (a + 1) vs

end Sys2Proof.Machine
end

