-- ==== Sys2Proof/Machine/Flags.lean ====
section
/-! DEFINITION. The phases as codes, the acceptance table, and the eleven status registers, which show every flag of the
unit (10_state.md R27, R29 to R40, R46). -/

namespace Sys2Proof.Machine

/-- The 2-bit code of a phase (10_state.md R46). -/
def phaseCode : Phase → BitVec 2
  | .idle => 0
  | .active => 1
  | .drain => 2
  | .error => 3

/-- `B58.MODE` as a bit (10_state.md R23). -/
def modeBit : Mode → BitVec 1
  | .enc => 0
  | .dec => 1

/-- `RGP.DIR` as a bit (10_state.md R25). -/
def dirBit : Dir → BitVec 1
  | .eightToFive => 0
  | .fiveToEight => 1

/-- A one-bit flag. -/
def flagBit : Bool → BitVec 1
  | false => 0
  | true => 1

/-- The acceptance table of 60_exceptions.md R155: the block takes the command in its phase (and direction). -/
def accepts (s : State) : Instr → Bool
  | .nop => true
  | .rdsr _ => true
  | .srst => true
  | .b58Init _ => true
  | .b58Push _ => s.b58.phase == .active
  | .b58Fin => s.b58.phase == .active
  | .b58Pop => s.b58.phase == .drain
  | .rgpInit _ => true
  | .rgpPush8 _ => s.rgp.phase == .active && s.rgp.dir == .eightToFive
  | .rgpPush5 _ => s.rgp.phase == .active && s.rgp.dir == .fiveToEight
  | .rgpFlush _ => s.rgp.phase == .active
  | .pckInit => true
  | .pckPfx _ => s.pck.phase == .active
  | .pckGrp _ => s.pck.phase == .active
  | .pckRdsym _ => s.pck.phase == .active
  | .pckVerify => s.pck.phase == .active

/-- The second step of 30_encoding.md R79: `E_SEQ` if the block does not accept `i`, else `body`. -/
def whenAccepted (i : Instr) (s : State) (body : Result) : Result :=
  if accepts s i then body else refuseSeq s

/-- `SR[0]` `ID` (10_state.md R30). -/
def srId : StatusWord := 0x5801

/-- `SR[1]` `CFG` (10_state.md R31). -/
def srCfg (c : Config) : StatusWord :=
  (0 : BitVec 7) ++ flagBit c.rejectExcess ++ BitVec.ofNat 8 c.cap

/-- `SR[2]` `B58ST` (10_state.md R32). -/
def srB58st (b : B58Rec) : StatusWord :=
  (0 : BitVec 4) ++ b.err ++ (0 : BitVec 3) ++ flagBit b.ovf ++ flagBit b.leading ++ modeBit b.mode ++ phaseCode b.phase

/-- `SR[3]` `B58LEN` (10_state.md R33). -/
def srB58len (b : B58Rec) : StatusWord := b.blen ++ b.lz

/-- `SR[4]` `B58RP` (10_state.md R34). -/
def srB58rp (b : B58Rec) : StatusWord := (0 : BitVec 8) ++ b.rptr

/-- `SR[5]` `RGPST` (10_state.md R35). -/
def srRgpst (r : RgpRec) : StatusWord :=
  (0 : BitVec 4) ++ r.err ++ (0 : BitVec 2) ++ r.nbits ++ dirBit r.dir ++ phaseCode r.phase

/-- `SR[6]` `RGPACC` (10_state.md R36). -/
def srRgpacc (r : RgpRec) : StatusWord := (0 : BitVec 9) ++ r.acc

/-- `SR[7]` `PCKST` (10_state.md R37). -/
def srPckst (p : PckRec) : StatusWord :=
  (0 : BitVec 4) ++ p.err ++ (0 : BitVec 6) ++ phaseCode p.phase

/-- `SR[8]` `PCKLO` (10_state.md R38). -/
def srPcklo (p : PckRec) : StatusWord := p.csum.extractLsb' 0 16

/-- `SR[9]` `PCKMID` (10_state.md R39). -/
def srPckmid (p : PckRec) : StatusWord := p.csum.extractLsb' 16 16

/-- `SR[10]` `PCKHI` (10_state.md R40). -/
def srPckhi (p : PckRec) : StatusWord := (0 : BitVec 8) ++ p.csum.extractLsb' 32 8

/-- `SR[n]` (10_state.md R29): numbers 11 to 255 do not exist. -/
def statusReg (s : State) (n : Byte) : Option StatusWord :=
  match n.toNat with
  | 0 => some srId
  | 1 => some (srCfg s.cfg)
  | 2 => some (srB58st s.b58)
  | 3 => some (srB58len s.b58)
  | 4 => some (srB58rp s.b58)
  | 5 => some (srRgpst s.rgp)
  | 6 => some (srRgpacc s.rgp)
  | 7 => some (srPckst s.pck)
  | 8 => some (srPcklo s.pck)
  | 9 => some (srPckmid s.pck)
  | 10 => some (srPckhi s.pck)
  | _ => none

end Sys2Proof.Machine
end

