-- ==== Sys2Proof/Machine/B58.lean ====
section
/-! DEFINITION. The B58 block (41_base58.md): the iterative step and the four commands. -/

namespace Sys2Proof.Machine

/-- The multiply-and-carry pass of 41_base58.md R93: `cells * FROM + carry` in radix `TO`, as the new cells and the carry
out of the last one. -/
def mulCarry (rin rout : Nat) : List Nat → Nat → List Nat × Nat
  | [], carry => ([], carry)
  | c :: cs, carry =>
    let t := c * rin + carry
    let r := mulCarry rin rout cs (t / rout)
    (t % rout :: r.1, r.2)

/-- The `while carry > 0` loop of 41_base58.md R93: the digits appended at the top. The first argument bounds the number
of turns; `carry` turns are always enough, since a turn makes the carry smaller. -/
def growDigits (rout : Nat) : Nat → Nat → List Nat
  | 0, _ => []
  | turns + 1, carry => if carry = 0 then [] else carry % rout :: growDigits rout turns (carry / rout)

/-- The `else` branch of 41_base58.md R93: the radix-`TO` cells of the number times `FROM` plus `u`. -/
def absorbCells (rin rout : Nat) (cells : List Nat) (u : Nat) : List Nat :=
  let r := mulCarry rin rout cells u
  r.1 ++ growDigits rout r.2 r.2

/-- What `B58Absorb` returns when it does not return `OVERFLOW` (41_base58.md R93). -/
structure Absorbed where
  lead : Bool
  lz : Nat
  cells : List Nat
deriving DecidableEq, Repr

/-- `B58Absorb(u, FROM, TO)` (41_base58.md R93) on the working copy `cells` of `BUF[0 .. BLEN-1]`; none is `OVERFLOW`. -/
def b58Absorb (cap : Nat) (b : B58Rec) (cells : List Nat) (u : Nat) : Option Absorbed :=
  let r : Absorbed :=
    if b.leading && u == 0 then ⟨true, b.lz.toNat + 1, cells⟩
    else ⟨false, b.lz.toNat, absorbCells (fromRadix b.mode) (toRadix b.mode) cells u⟩
  if r.lz + r.cells.length > cap then none else some r

/-- The input unit a pushed value stands for (41_base58.md R96): the byte itself in ENC, the digit of the character code
in DEC, none where the code is no character of the alphabet. -/
def b58Unit (m : Mode) (v : Byte) : Option Nat :=
  match m with
  | .enc => some v.toNat
  | .dec => b58Inv v

/-- `B58.PUSH` on a return of `B58Absorb` (41_base58.md R96). -/
def b58Commit (r : Absorbed) (s : State) : Result :=
  match writeCells s.cfg.cap s.buf 0 (r.cells.map (BitVec.ofNat 8)) with
  | .error f => .fault f
  | .ok m =>
    respond [] { s with
      b58 := { s.b58 with
        leading := r.lead
        lz := BitVec.ofNat 8 r.lz
        blen := BitVec.ofNat 8 r.cells.length }
      buf := m }

/-- `B58.PUSH` on `OVERFLOW` (41_base58.md R96, 60_exceptions.md R157): a data error in ENC, the sticky flag in DEC. -/
def b58Overflow (s : State) : Result :=
  match s.b58.mode with
  | .enc => raise .eCapacity s
  | .dec => respond [] { s with b58 := { s.b58 with ovf := true } }

/-- `B58.PUSH` once the unit is known (41_base58.md R96). -/
def b58PushUnit (u : Nat) (s : State) : Result :=
  if s.b58.ovf then respond [] s
  else
    match readCells s.cfg.cap s.buf 0 s.b58.blen.toNat with
    | .error f => .fault f
    | .ok cells =>
      match b58Absorb s.cfg.cap s.b58 (cells.map BitVec.toNat) u with
      | none => b58Overflow s
      | some r => b58Commit r s

/-- The output length `LZ + BLEN` (41_base58.md R97, R98). -/
def b58OutLen (b : B58Rec) : Nat := b.lz.toNat + b.blen.toNat

/-- The output unit of digit `d` (41_base58.md R98): a character code in ENC, the byte itself in DEC. -/
def b58OutUnit (m : Mode) (d : Byte) : Option Byte :=
  match m with
  | .enc => b58Char d.toNat
  | .dec => some d

/-- The digit `B58.POP` delivers (41_base58.md R98): zero inside the leading run, then the cells from the top down. -/
def b58PopDigit (s : State) : Except Fault Byte :=
  if s.b58.rptr.toNat < s.b58.lz.toNat then .ok 0
  else readCell s.cfg.cap s.buf (s.b58.blen.toNat - 1 - (s.b58.rptr.toNat - s.b58.lz.toNat))

/-- `B58.INIT m` (41_base58.md R95): the whole record is written, `BUF` is not. -/
def execB58Init (m : Mode) (s : State) : Result :=
  respond [] { s with
    b58 := {
      phase := .active
      mode := m
      leading := true
      ovf := false
      err := 0
      lz := 0
      blen := 0
      rptr := 0 } }

/-- `B58.PUSH v` (41_base58.md R96). -/
def execB58Push (v : Byte) (s : State) : Result :=
  whenAccepted (.b58Push v) s <|
    match b58Unit s.b58.mode v with
    | none => raise .invalidCharacter s
    | some u => b58PushUnit u s

/-- `B58.FIN` (41_base58.md R97). -/
def execB58Fin (s : State) : Result :=
  whenAccepted .b58Fin s <|
    if s.b58.mode = .dec ∧ (s.b58.ovf = true ∨ b58OutLen s.b58 ≠ b58DecLen) then raise .invalidLength s
    else
      respond [BitVec.ofNat 8 (b58OutLen s.b58)]
        { s with b58 := { s.b58 with phase := .drain, rptr := 0 } }

/-- `B58.POP` (41_base58.md R98). -/
def execB58Pop (s : State) : Result :=
  whenAccepted .b58Pop s <|
    if b58OutLen s.b58 ≤ s.b58.rptr.toNat then respond [] s
    else
      match b58PopDigit s with
      | .error f => .fault f
      | .ok d =>
        match b58OutUnit s.b58.mode d with
        | none => .fault .alphaRange
        | some c => respond [c] { s with b58 := { s.b58 with rptr := s.b58.rptr + 1 } }

end Sys2Proof.Machine
end

