-- ==== Sys2Proof/Machine/Pck.lean ====
section
/-! DEFINITION. The PCK block (43_checksum.md): the polymod step and the five commands. -/

namespace Sys2Proof.Machine

/-- The loop of `PckStep` (43_checksum.md R129): `PCK_GEN[i]` is xored in for every bit `i` that is set in `c0`. -/
def xorGens (gen : Vector Csum 5) (c0 : BitVec 5) (c1 : Csum) : Csum :=
  [0, 1, 2, 3, 4].foldl (fun c (i : Fin 5) => if c0.getLsbD i then c ^^^ gen.get i else c) c1

/-- `PckStep(c, d)` (43_checksum.md R129): `c0` is `c[39:35]`, `c1` the low 35 bits moved up by 5 with `d` xored in.
PRESUMED: the step's structure is marked `[from general knowledge, not in source]` by the spec (93 G4). Unsafe: log 6. -/
def pckStep (gen : Vector Csum 5) (c : Csum) (d : Group) : Csum :=
  xorGens gen (c.extractLsb' 35 5) ((c.extractLsb' 0 35 ++ (0 : BitVec 5)) ^^^ d.setWidth 40)

/-- The result `RES` (43_checksum.md R134). -/
def pckResult (c : Config) (p : PckRec) : Csum := p.csum ^^^ c.finalXor

/-- Symbol `k` of a 40-bit value (43_checksum.md R132, 20_memory.md R56): symbol 0 is bits [39:35]. -/
def symbolAt (x : Csum) (k : Nat) : Byte := ((x >>> (5 * (7 - k))) &&& 0x1F).setWidth 8

/-- An accepted absorb of PCK (43_checksum.md R130, R131). -/
def pckAbsorb (d : Group) (s : State) : Result :=
  respond [] { s with pck := { s.pck with csum := pckStep s.cfg.gen s.pck.csum d } }

/-- `PCK.INIT` (43_checksum.md R128). -/
def execPckInit (s : State) : Result :=
  respond [] { s with pck := { phase := .active, csum := s.cfg.init, err := 0 } }

/-- `PCK.PFX c` (43_checksum.md R130). -/
def execPckPfx (c : Byte) (s : State) : Result :=
  whenAccepted (.pckPfx c) s <| pckAbsorb (pfxGroup c) s

/-- `PCK.GRP g` (43_checksum.md R131). -/
def execPckGrp (g : Group) (s : State) : Result :=
  whenAccepted (.pckGrp g) s <| pckAbsorb g s

/-- `PCK.RDSYM k` (43_checksum.md R132). -/
def execPckRdsym (k : BitVec 3) (s : State) : Result :=
  whenAccepted (.pckRdsym k) s <| respond [symbolAt (pckResult s.cfg s.pck) k.toNat] s

/-- `PCK.VERIFY` (43_checksum.md R133). -/
def execPckVerify (s : State) : Result :=
  whenAccepted .pckVerify s <|
    if pckResult s.cfg s.pck ≠ 0 then raise .checksumMismatch s else respond [] s

end Sys2Proof.Machine
end

