-- ==== Sys2Proof/Machine/Rgp.lean ====
section
/-! DEFINITION. The RGP block (42_regrouper.md): the streaming step and the four commands. -/

namespace Sys2Proof.Machine

/-- What the `while n >= TO` loop of 42_regrouper.md R112 leaves: the completed groups, oldest first, and the bits that
remain. -/
structure Cut where
  out : List Nat
  acc : Nat
  nbits : Nat
deriving DecidableEq, Repr

/-- The `while n >= TO` loop of 42_regrouper.md R112. The second argument bounds the number of turns; `n` turns are
always enough, since a turn takes `TO` bits away. -/
def cutGroups (wout : Nat) : Nat → Nat → Nat → Cut
  | 0, a, n => ⟨[], a, n⟩
  | turns + 1, a, n =>
    if n < wout then ⟨[], a, n⟩
    else
      let n' := n - wout
      let r := cutGroups wout turns (a &&& (2 ^ n' - 1)) n'
      ⟨((a >>> n') &&& (2 ^ wout - 1)) :: r.out, r.acc, r.nbits⟩

/-- `RgpAbsorb(v, FROM, TO)` (42_regrouper.md R112). -/
def rgpAbsorb (r : RgpRec) (v win wout : Nat) : Cut :=
  let a := (r.acc.toNat <<< win) ||| v
  let n := r.nbits.toNat + win
  cutGroups wout n a n

/-- An accepted `PUSH` of RGP (42_regrouper.md R113, R114): the groups go out in the response, the rest stays. -/
def rgpPush (v win wout : Nat) (s : State) : Result :=
  let c := rgpAbsorb s.rgp v win wout
  respond (c.out.map (BitVec.ofNat 8))
    { s with rgp := { s.rgp with acc := BitVec.ofNat 7 c.acc, nbits := BitVec.ofNat 3 c.nbits } }

/-- The group `RGP.FLUSH 1` gives out (42_regrouper.md R115): the left-over bits, padded on the right with zeros. -/
def rgpPadded (r : RgpRec) : List Byte :=
  let wout := toWidth r.dir
  if 0 < r.nbits.toNat then
    [BitVec.ofNat 8 ((r.acc.toNat <<< (wout - r.nbits.toNat)) &&& (2 ^ wout - 1))]
  else []

/-- `RGP.FLUSH 0` fails (42_regrouper.md R115, R118): the tail is not zero or, in a build that rejects excess, it holds a
whole input group. -/
def rgpBadTail (c : Config) (r : RgpRec) : Bool :=
  r.acc != 0 || (c.rejectExcess && decide (fromWidth r.dir ≤ r.nbits.toNat))

/-- A successful `RGP.FLUSH` (42_regrouper.md R115): `DIR` and `ERR` keep their values. -/
def rgpClose (out : List Byte) (s : State) : Result :=
  respond out { s with rgp := { s.rgp with phase := .idle, acc := 0, nbits := 0 } }

/-- `RGP.INIT d` (42_regrouper.md R111). -/
def execRgpInit (d : Dir) (s : State) : Result :=
  respond [] { s with rgp := { phase := .active, dir := d, nbits := 0, acc := 0, err := 0 } }

/-- `RGP.PUSH8 v` (42_regrouper.md R113). -/
def execRgpPush8 (v : Byte) (s : State) : Result :=
  whenAccepted (.rgpPush8 v) s <|
    rgpPush v.toNat (fromWidth .eightToFive) (toWidth .eightToFive) s

/-- `RGP.PUSH5 g` (42_regrouper.md R114). -/
def execRgpPush5 (g : Group) (s : State) : Result :=
  whenAccepted (.rgpPush5 g) s <|
    rgpPush g.toNat (fromWidth .fiveToEight) (toWidth .fiveToEight) s

/-- `RGP.FLUSH p` (42_regrouper.md R115). -/
def execRgpFlush (p : Bool) (s : State) : Result :=
  whenAccepted (.rgpFlush p) s <|
    if p then rgpClose (rgpPadded s.rgp) s
    else if rgpBadTail s.cfg s.rgp then raise .invalidPadding s
    else rgpClose [] s

end Sys2Proof.Machine
end

