-- ==== Sys2Proof/Machine/System.lean ====
section
/-! DEFINITION. The system commands (44_system.md). -/

namespace Sys2Proof.Machine

/-- `NOP` (44_system.md R140). -/
def execNop (s : State) : Result := respond [] s

/-- `RDSR n` (44_system.md R141): the low byte in `D0`, the high byte in `D1`. A number above 10 is no command
(10_state.md R29): the decoder never gives it, and the term answers as an illegal word does (log 13; DEDUCED, safe). -/
def execRdsr (n : Byte) (s : State) : Result :=
  match statusReg s n with
  | some v => respond [v.extractLsb' 0 8, v.extractLsb' 8 8] s
  | none => refuseIllegal s

/-- `SRST` (44_system.md R142). -/
def execSrst (s : State) : Result := respond [] (resetUnit s)

end Sys2Proof.Machine
end

