-- ==== Sys2Proof/Machine/Dispatch.lean ====
section
/-! DEFINITION. One arm per command (30_encoding.md R74). -/

namespace Sys2Proof.Machine

def exec (i : Instr) (s : State) : Host.Outcome State Fault Refusal :=
  match i with
  | .nop => Sys2Proof.Machine.execNop s
  | .rdsr n => Sys2Proof.Machine.execRdsr n s
  | .srst => Sys2Proof.Machine.execSrst s
  | .b58Init m => Sys2Proof.Machine.execB58Init m s
  | .b58Push v => Sys2Proof.Machine.execB58Push v s
  | .b58Fin => Sys2Proof.Machine.execB58Fin s
  | .b58Pop => Sys2Proof.Machine.execB58Pop s
  | .rgpInit d => Sys2Proof.Machine.execRgpInit d s
  | .rgpPush8 v => Sys2Proof.Machine.execRgpPush8 v s
  | .rgpPush5 g => Sys2Proof.Machine.execRgpPush5 g s
  | .rgpFlush p => Sys2Proof.Machine.execRgpFlush p s
  | .pckInit => Sys2Proof.Machine.execPckInit s
  | .pckPfx c => Sys2Proof.Machine.execPckPfx c s
  | .pckGrp g => Sys2Proof.Machine.execPckGrp g s
  | .pckRdsym k => Sys2Proof.Machine.execPckRdsym k s
  | .pckVerify => Sys2Proof.Machine.execPckVerify s

end Sys2Proof.Machine
end

