-- ==== Sys2Proof/Machine/Step.lean ====
section
/-! DEFINITION. One step of the machine: the host's next input is taken and done completely (00_scope.md R11,
20_memory.md R60, R63). -/

namespace Sys2Proof.Machine

/-- One step (30_encoding.md R79). A command word is decoded; an illegal one is refused, whatever the state
(60_exceptions.md R154); a legal one is executed. A hardware reset puts the unit in its reset state and gives no response
(70_reset_and_hazards.md R175; log 2). With nothing presented there is no step (00_scope.md R11, R13; log 3). -/
def step (s : State) : Host.Outcome State Fault Refusal :=
  match fetch s with
  | none => .refused .noCommand
  | some (.reset, s') => .next (resetUnit s')
  | some (.command w, s') =>
    match decode w with
    | .error _ => refuseIllegal s'
    | .ok i => exec i s'

/-- `s` with the instruction whose `nbits` bits are `w` presented next at the command port (20_memory.md R50), which is
where `step` takes its instruction from. -/
def State.withFetchWord (s : State) (nbits w : Nat) : State :=
  presentNext (BitVec.ofNat 16 (w % 2 ^ nbits)) s

end Sys2Proof.Machine
end

