-- ==== Sys2Proof/Machine/Assembler.lean ====
section
/-! DEFINITION. The assembler syntax and the four pseudo-instructions (30_encoding.md R77, R78): one line of text to the
commands it stands for. The unit never sees this; it is how the spec writes programs down. -/

namespace Sys2Proof.Machine

/-- Why a line is rejected (30_encoding.md R77). -/
inductive AsmError where
  /-- The mnemonic is none of R74 or R78. -/
  | unknownMnemonic
  /-- The text after the mnemonic is no operand. -/
  | badOperand
  /-- The operand is not of the command's form, or outside its legal values (R71). -/
  | operandNotLegal
deriving DecidableEq, Repr

/-- An operand as written: none, a number, a character in single quotes, or a string in double quotes (R78). -/
inductive AsmOperand where
  | none
  | num (n : Nat)
  | chr (c : Nat)
  | str (cs : List Nat)
deriving DecidableEq, Repr

/-- A space or a tab. -/
def isBlank (c : Char) : Bool := c.toNat == 0x20 || c.toNat == 0x09

/-- Text without blanks in front and behind. -/
def trimBlanks (t : List Char) : List Char := ((t.dropWhile isBlank).reverse.dropWhile isBlank).reverse

/-- A printable ASCII character (R77). -/
def isPrintable (c : Char) : Bool := decide (0x20 ≤ c.toNat) && decide (c.toNat ≤ 0x7E)

/-- The value of a digit character, letters in either case. -/
def digitValue (c : Char) : Option Nat :=
  if 0x30 ≤ c.toNat ∧ c.toNat ≤ 0x39 then some (c.toNat - 0x30)
  else if 0x41 ≤ c.toNat ∧ c.toNat ≤ 0x46 then some (c.toNat - 0x41 + 10)
  else if 0x61 ≤ c.toNat ∧ c.toNat ≤ 0x66 then some (c.toNat - 0x61 + 10)
  else none

/-- A number in radix `base`, from the value `v` of the digits before it. -/
def numberFrom (base v : Nat) : List Char → Option Nat
  | [] => some v
  | c :: cs =>
    match digitValue c with
    | none => none
    | some d => if d < base then numberFrom base (v * base + d) cs else none

/-- A quoted text: the characters between two marks `q`, all printable. -/
def quoted (q : Nat) (t : List Char) : Option (List Nat) :=
  match t with
  | [] => none
  | c :: cs =>
    match cs.reverse with
    | [] => none
    | d :: mid =>
      if c.toNat = q ∧ d.toNat = q ∧ mid.all isPrintable then some (mid.reverse.map Char.toNat) else none

/-- The operand a text stands for (R77). -/
def parseOperand (t : List Char) : Option AsmOperand :=
  match t with
  | [] => some .none
  | [c] => (numberFrom 10 0 [c]).map .num
  | c :: d :: rest =>
    if c.toNat = 0x30 ∧ d.toNat = 0x78 then
      if rest = [] then none else (numberFrom 16 0 rest).map .num
    else if c.toNat = 0x27 then
      match quoted 0x27 t with
      | some [x] => some (.chr x)
      | _ => none
    else if c.toNat = 0x22 then (quoted 0x22 t).map .str
    else (numberFrom 10 0 t).map .num

/-- Form `Z`. -/
def asmZ (i : Instr) : AsmOperand → Option (List Instr)
  | .none => some [i]
  | _ => none

/-- A number of at most `limit`. -/
def asmNum (limit : Nat) (i : Nat → Instr) : AsmOperand → Option (List Instr)
  | .num n => if n ≤ limit then some [i n] else none
  | _ => none

/-- Form `D8`: a number of at most 255 or a character (R77). -/
def asmD8 (i : Byte → Instr) : AsmOperand → Option (List Instr)
  | .num n => if n ≤ 255 then some [i (BitVec.ofNat 8 n)] else none
  | .chr c => some [i (BitVec.ofNat 8 c)]
  | _ => none

/-- A pseudo-instruction over a string: one command per character, in order (R78). The empty string expands to nothing:
R78 says so of `B58.PUSHS` only. DESIGN CHOICE: `PCK.PFXS` takes it so too (log 17; safe). -/
def asmStr (i : Byte → Instr) : AsmOperand → Option (List Instr)
  | .str cs => some (cs.map fun c => i (BitVec.ofNat 8 c))
  | _ => none

/-- A pseudo-instruction without operand (R78). -/
def asmPseudo (is : List Instr) : AsmOperand → Option (List Instr)
  | .none => some is
  | _ => none

/-- The mnemonics of R74 and R78, each with what it makes of its operand. -/
def asmTable : List (String × (AsmOperand → Option (List Instr))) :=
  [("NOP", asmZ .nop),
   ("RDSR", asmNum 10 fun n => .rdsr (BitVec.ofNat 8 n)),
   ("SRST", asmZ .srst),
   ("B58.INIT", asmNum 1 fun n => .b58Init (if n = 0 then .enc else .dec)),
   ("B58.PUSH", asmD8 .b58Push),
   ("B58.FIN", asmZ .b58Fin),
   ("B58.POP", asmZ .b58Pop),
   ("RGP.INIT", asmNum 1 fun n => .rgpInit (if n = 0 then .eightToFive else .fiveToEight)),
   ("RGP.PUSH8", asmD8 .rgpPush8),
   ("RGP.PUSH5", asmNum 31 fun n => .rgpPush5 (BitVec.ofNat 5 n)),
   ("RGP.FLUSH", asmNum 1 fun n => .rgpFlush (n == 1)),
   ("PCK.INIT", asmZ .pckInit),
   ("PCK.PFX", asmD8 .pckPfx),
   ("PCK.GRP", asmNum 31 fun n => .pckGrp (BitVec.ofNat 5 n)),
   ("PCK.RDSYM", asmNum 7 fun n => .pckRdsym (BitVec.ofNat 3 n)),
   ("PCK.VERIFY", asmZ .pckVerify),
   ("PCK.SEP", asmPseudo [.pckGrp 0]),
   ("PCK.PAD8", asmPseudo (List.replicate 8 (.pckGrp 0))),
   ("B58.PUSHS", asmStr .b58Push),
   ("PCK.PFXS", asmStr .pckPfx)]

/-- The commands one line of text stands for (30_encoding.md R77, R78); a line with no mnemonic stands for none.
DESIGN CHOICE: a comment begins at the first `;` of the line, even inside quotes, blanks are spaces and tabs, and
hexadecimal digits may be of either case (log 17; safe). -/
def assembleLine (line : List Char) : Except AsmError (List Instr) :=
  let text := trimBlanks (line.takeWhile fun c => c.toNat != 0x3B)
  let word := text.takeWhile fun c => !isBlank c
  let rest := trimBlanks (text.dropWhile fun c => !isBlank c)
  if text = [] then .ok []
  else
    match asmTable.find? fun row => row.1.toList == word with
    | none => .error .unknownMnemonic
    | some row =>
      match parseOperand rest with
      | none => .error .badOperand
      | some o =>
        match row.2 o with
        | none => .error .operandNotLegal
        | some is => .ok is

end Sys2Proof.Machine
end

