-- ==== Sys2Proof/Machine/Reference.lean ====
section
/-! DEFINITION. The functions of the source that the blocks compute (41_base58.md R91, R92; 42_regrouper.md R110;
43_checksum.md R125 to R127), written apart from the machine, and the transactions that make the machine compute them
(70_reset_and_hazards.md R180). -/

namespace Sys2Proof.Machine

/-! ### Running a list of commands -/

/-- The commands `is` one after the other (20_memory.md R63), stopping at the first fault or refusal. -/
def execAll : List Instr → State → Result
  | [], s => .next s
  | i :: is, s =>
    match exec i s with
    | .next t => execAll is t
    | .fault f => .fault f
    | .refused r => .refused r

/-! ### Base58 -/

/-- The value of a digit sequence, first digit most significant (20_memory.md R52, R53). -/
def valueOf (base : Nat) (ds : List Nat) : Nat := ds.foldl (fun v d => v * base + d) 0

/-- How many times `v` can be divided by `base` before it is 0, in at most `turns` turns. -/
def divisions (base : Nat) : Nat → Nat → Nat
  | 0, _ => 0
  | turns + 1, v => if v = 0 then 0 else divisions base turns (v / base) + 1

/-- The number of base-`base` digits of `v` (41_base58.md R91, R92): 0 for 0, else the `m` with
`base^(m-1) <= v < base^m`. -/
def digitCount (base v : Nat) : Nat := divisions base v v

/-- The digits of `v`, most significant first: `d[j] = (v div base^(m-1-j)) mod base` (41_base58.md R91, R92). -/
def digitsOf (base v : Nat) : List Nat :=
  let m := digitCount base v
  (List.range m).map fun j => v / base ^ (m - 1 - j) % base

/-- The length of the leading run of zeros (00_scope.md R15). -/
def leadingRun (ds : List Nat) : Nat := (ds.takeWhile (· == 0)).length

/-- `Base58Encode(bs)` (41_base58.md R91). -/
def base58Encode (bs : List Byte) : List Byte :=
  let ds := bs.map BitVec.toNat
  List.replicate (leadingRun ds) 0x31 ++
    (digitsOf b58Radix (valueOf byteRadix ds)).map fun d => (b58Char d).getD 0

/-- The bytes a sequence of Base58 digits stands for, before the length rule (41_base58.md R92 step 2). -/
def base58Bytes (ds : List Nat) : List Byte :=
  List.replicate (leadingRun ds) 0 ++
    (digitsOf byteRadix (valueOf b58Radix ds)).map (BitVec.ofNat 8)

/-- Every character is of the alphabet (41_base58.md R92 step 1). -/
def allBase58 (cs : List Byte) : Bool := cs.all fun c => (b58Inv c).isSome

/-- The digits of characters of the alphabet (41_base58.md R92 step 2). -/
def base58Digits (cs : List Byte) : List Nat := cs.map fun c => (b58Inv c).getD 0

/-- `Base58Decode(cs)` (41_base58.md R92). -/
def base58Decode (cs : List Byte) : Except Kind (List Byte) :=
  if allBase58 cs = false then .error .invalidCharacter
  else if (base58Bytes (base58Digits cs)).length ≠ b58DecLen then .error .invalidLength
  else .ok (base58Bytes (base58Digits cs))

/-! ### Regroup -/

/-- The bits of a group of `w` bits, most significant first (42_regrouper.md R110, 20_memory.md R55). -/
def groupBits (w g : Nat) : List Bool := (List.range w).map fun j => g.testBit (w - 1 - j)

/-- The bit stream of a sequence of groups (42_regrouper.md R110). -/
def streamBits (w : Nat) (gs : List Nat) : List Bool := gs.flatMap (groupBits w)

/-- The value of a bit sequence, first bit most significant (42_regrouper.md R110). -/
def bitsValue (bits : List Bool) : Nat := bits.foldl (fun v b => 2 * v + b.toNat) 0

/-- The complete output groups of a stream (42_regrouper.md R110, `out`). -/
def wholeGroups (w : Nat) (bits : List Bool) : List Nat :=
  (List.range (bits.length / w)).map fun k => bitsValue ((bits.drop (k * w)).take w)

/-- The left-over bits of a stream (42_regrouper.md R110). -/
def tailBits (w : Nat) (bits : List Bool) : List Bool := bits.drop (bits.length / w * w)

/-- `Regroup(gs, from, to, pad)` (42_regrouper.md R110), `win` and `wout` standing for the widths `from` and `to`. -/
def regroup (reject : Bool) (gs : List Nat) (win wout : Nat) (pad : Bool) : Except Kind (List Nat) :=
  let bits := streamBits win gs
  let rest := tailBits wout bits
  if rest.length = 0 then .ok (wholeGroups wout bits)
  else if pad then .ok (wholeGroups wout bits ++ [bitsValue rest * 2 ^ (wout - rest.length)])
  else if bitsValue rest ≠ 0 then .error .invalidPadding
  else if reject = true ∧ win ≤ rest.length then .error .invalidPadding
  else .ok (wholeGroups wout bits)

/-! ### The checksum -/

/-- `PolymodRaw(gs)` (43_checksum.md R125). -/
def polymodRaw (c : Config) (gs : List Group) : Csum := gs.foldl (pckStep c.gen) c.init

/-- `Polymod(gs)` (43_checksum.md R125). -/
def polymod (c : Config) (gs : List Group) : Csum := polymodRaw c gs ^^^ c.finalXor

/-- `ChecksumBase(pfx, pl)` (43_checksum.md R126). -/
def checksumBase (pfx : List Byte) (pl : List Group) : List Group := pfx.map pfxGroup ++ [0] ++ pl

/-- `Compute(pfx, pl)` (43_checksum.md R126). -/
def compute (c : Config) (pfx : List Byte) (pl : List Group) : Csum :=
  polymod c (checksumBase pfx pl ++ List.replicate 8 0)

/-- `Symbols(x)` (43_checksum.md R126). -/
def symbols (x : Csum) : List Group :=
  [x.extractLsb' 35 5, x.extractLsb' 30 5, x.extractLsb' 25 5, x.extractLsb' 20 5,
   x.extractLsb' 15 5, x.extractLsb' 10 5, x.extractLsb' 5 5, x.extractLsb' 0 5]

/-- `Verify(pfx, plc)` (43_checksum.md R127). -/
def verify (c : Config) (pfx : List Byte) (plc : List Group) : Bool :=
  polymod c (checksumBase pfx plc) == 0

/-! ### Transactions (70_reset_and_hazards.md R180) -/

/-- B58: `INIT m`, the pushes, `FIN`, and `pops` times `POP`. -/
def b58Transaction (m : Mode) (vs : List Byte) (pops : Nat) : List Instr :=
  Instr.b58Init m :: vs.map Instr.b58Push ++ [Instr.b58Fin] ++ List.replicate pops Instr.b58Pop

/-- RGP 8 to 5: `INIT 0`, the pushes, `FLUSH p`. -/
def rgp8Transaction (bs : List Byte) (p : Bool) : List Instr :=
  Instr.rgpInit Dir.eightToFive :: bs.map Instr.rgpPush8 ++ [Instr.rgpFlush p]

/-- RGP 5 to 8: `INIT 1`, the pushes, `FLUSH p`. -/
def rgp5Transaction (gs : List Group) (p : Bool) : List Instr :=
  Instr.rgpInit Dir.fiveToEight :: gs.map Instr.rgpPush5 ++ [Instr.rgpFlush p]

/-- The absorbing part of a PCK transaction: `INIT`, the prefix, the separator, the payload. -/
def pckFrame (pfx : List Byte) (pl : List Group) : List Instr :=
  Instr.pckInit :: pfx.map Instr.pckPfx ++ [Instr.pckGrp 0] ++ pl.map Instr.pckGrp

/-- PCK, compute: the frame, eight placeholders, the eight symbols read. -/
def pckComputeTransaction (pfx : List Byte) (pl : List Group) : List Instr :=
  pckFrame pfx pl ++ List.replicate 8 (Instr.pckGrp 0) ++
    [Instr.pckRdsym 0, Instr.pckRdsym 1, Instr.pckRdsym 2, Instr.pckRdsym 3, Instr.pckRdsym 4, Instr.pckRdsym 5, Instr.pckRdsym 6, Instr.pckRdsym 7]

/-- PCK, verify: the frame with its checksum symbols, then `VERIFY`. -/
def pckVerifyTransaction (pfx : List Byte) (plc : List Group) : List Instr :=
  pckFrame pfx plc ++ [Instr.pckVerify]

/-! ### Reading a response word (30_encoding.md R72) -/

/-- `RESP[31:28]`. -/
def respErr (r : RespWord) : ErrCode := r.extractLsb' 28 4

/-- `RESP[17:16]`. -/
def respCount (r : RespWord) : BitVec 2 := r.extractLsb' 16 2

/-- `RESP[15:8]`. -/
def respD1 (r : RespWord) : Byte := r.extractLsb' 8 8

/-- `RESP[7:0]`. -/
def respD0 (r : RespWord) : Byte := r.extractLsb' 0 8

/-- The data items of a response, `D0` before `D1`. -/
def respData (r : RespWord) : List Byte := [respD0 r, respD1 r].take (respCount r).toNat

end Sys2Proof.Machine
end

