-- ==== Sys2Proof/Safety.lean ====
section
/-! DEFINITION. What the claims speak of: the invariants of 10_state.md R28, the number the working buffer holds (R24), the
acceptance table (60_exceptions.md R155), and agreement of two states on a block (20_memory.md R65). -/

namespace Sys2Proof.Machine

/-! ### The invariants of 10_state.md R28 -/

/-- The block takes input or gives output: the phases in which `BUF` is meaningful (R28 item 2). -/
abbrev b58Busy (s : State) : Prop := s.b58.phase = .active ∨ s.b58.phase = .drain

/-- Cell `i` has a value, below 58 in ENC (R28 item 2). -/
def cellGood (s : State) (i : Nat) : Bool :=
  match Memory.get i s.buf with
  | none => false
  | some v => s.b58.mode == .dec || decide (v.toNat < 58)

/-- R24 and R45: the buffer is in canonical form and has no cell at or above `B58_CAP`. -/
abbrev InvBuffer (s : State) : Prop := Memory.wf s.buf ∧ ∀ x ∈ s.buf, x.1 < s.cfg.cap

/-- R28 item 1. -/
abbrev InvCounts (s : State) : Prop :=
  s.b58.lz.toNat + s.b58.blen.toNat ≤ s.cfg.cap ∧ s.b58.rptr.toNat ≤ s.b58.lz.toNat + s.b58.blen.toNat

/-- R28 item 2. -/
abbrev InvCells (s : State) : Prop :=
  b58Busy s →
    (∀ i, i < s.b58.blen.toNat → cellGood s i = true) ∧
    (0 < s.b58.blen.toNat → Memory.get (s.b58.blen.toNat - 1) s.buf ≠ some 0)

/-- R28 item 3. -/
abbrev InvLeading (s : State) : Prop :=
  (s.b58.leading = true → s.b58.blen.toNat = 0) ∧
  (b58Busy s → s.b58.leading = false → 1 ≤ s.b58.blen.toNat)

/-- R28 item 4. -/
abbrev InvOvf (s : State) : Prop := s.b58.ovf = true → s.b58.mode = .dec

/-- R28 item 5, with the codes R23, R25 and R26 allow. -/
abbrev InvErr (s : State) : Prop :=
  (s.b58.err ≠ 0 ↔ s.b58.phase = .error) ∧ (s.b58.err = 0 ∨ s.b58.err = 1 ∨ s.b58.err = 2 ∨ s.b58.err = 0xC) ∧
  (s.rgp.err ≠ 0 ↔ s.rgp.phase = .error) ∧ (s.rgp.err = 0 ∨ s.rgp.err = 4) ∧
  (s.pck.err ≠ 0 ↔ s.pck.phase = .error) ∧ (s.pck.err = 0 ∨ s.pck.err = 3)

/-- R28 item 6. -/
abbrev InvTail (s : State) : Prop :=
  s.rgp.acc.toNat < 2 ^ s.rgp.nbits.toNat ∧ (s.rgp.dir = .eightToFive → s.rgp.nbits.toNat ≤ 4)

/-- R28 item 7. -/
abbrev InvPhases (s : State) : Prop := s.rgp.phase ≠ .drain ∧ s.pck.phase ≠ .drain

/-- R28 item 8. -/
abbrev InvIdle (s : State) : Prop :=
  (s.b58.phase = .idle → s.b58 = b58Reset) ∧
  (s.rgp.phase = .idle → s.rgp.nbits = 0 ∧ s.rgp.acc = 0 ∧ s.rgp.err = 0) ∧
  (s.pck.phase = .idle → s.pck.csum = 0 ∧ s.pck.err = 0)

/-- The invariants of 10_state.md R28, for a legal build (00_scope.md R6). -/
abbrev Inv (s : State) : Prop :=
  s.cfg.legal ∧ InvBuffer s ∧ InvCounts s ∧ InvCells s ∧ InvLeading s ∧ InvOvf s ∧ InvErr s ∧ InvTail s ∧
    InvPhases s ∧ InvIdle s

/-! ### The number in the buffer -/

/-- The significant cells `BUF[0 .. BLEN-1]` as digits, least significant first (10_state.md R24). -/
def b58Cells (s : State) : List Nat :=
  (List.range s.b58.blen.toNat).map fun i => ((Memory.get i s.buf).getD 0).toNat

/-- `VAL`, the sum of `BUF[i] * TO^i` over `i < BLEN` (10_state.md R24, 41_base58.md R93). -/
def b58Value (s : State) : Nat := Nat.ofDigits (toRadix s.b58.mode) (b58Cells s)

/-! ### The acceptance table -/

/-- The table of 60_exceptions.md R155, row by row. -/
def acceptedBy (i : Instr) (s : State) : Prop :=
  match i with
  | .nop => True
  | .rdsr _ => True
  | .srst => True
  | .b58Init _ => True
  | .rgpInit _ => True
  | .pckInit => True
  | .b58Push _ => s.b58.phase = .active
  | .b58Fin => s.b58.phase = .active
  | .b58Pop => s.b58.phase = .drain
  | .rgpPush8 _ => s.rgp.phase = .active ∧ s.rgp.dir = .eightToFive
  | .rgpPush5 _ => s.rgp.phase = .active ∧ s.rgp.dir = .fiveToEight
  | .rgpFlush _ => s.rgp.phase = .active
  | .pckPfx _ => s.pck.phase = .active
  | .pckGrp _ => s.pck.phase = .active
  | .pckRdsym _ => s.pck.phase = .active
  | .pckVerify => s.pck.phase = .active

/-! ### Two states beside each other -/

/-- The two states agree on what a command of the block reads and writes (20_memory.md R65); for the system commands, on
the whole state tuple of 10_state.md R20. -/
def sameBlock (b : Block) (s t : State) : Prop :=
  match b with
  | .sys => s.b58 = t.b58 ∧ s.buf = t.buf ∧ s.rgp = t.rgp ∧ s.pck = t.pck
  | .b58 => s.b58 = t.b58 ∧ s.buf = t.buf
  | .rgp => s.rgp = t.rgp
  | .pck => s.pck = t.pck

/-- The two states differ at most in cells of `BUF` that are not significant: at or above `BLEN`, or any cell outside the
phases ACTIVE and DRAIN (10_state.md R24, R45). -/
def sameButStaleCells (s t : State) : Prop :=
  t = { s with buf := t.buf } ∧
  (b58Busy s → ∀ a, a < s.b58.blen.toNat → Memory.get a s.buf = Memory.get a t.buf)

end Sys2Proof.Machine
end

