-- ==== Sys2Proof/Certificates/Slice0/Obligations.lean ====
section
/-! DEFINITION. The statements for the provers: each formalises a rule of spec/ or says, in its docstring, what it rests on. -/

open Sys2Proof Sys2Proof.Machine

/-! ### Encoding -/

/-- 30_encoding.md R70, R71, R74: the word of a legal instruction decodes to that instruction. -/
def Obligations.DecodeOfEncodeIsTheInstruction : Prop :=
  ∀ i : Instr, i.wf = true → decode (encode i) = .ok i

/-- 30_encoding.md R74, R75: a word that decodes is the word of the instruction it decodes to, which is legal. -/
def Obligations.EncodeOfDecodeIsTheWord : Prop :=
  ∀ (w : CmdWord) (i : Instr), decode w = .ok i → i.wf = true ∧ encode i = w

/-- 30_encoding.md R74: which words are which command, by the match and mask of each row, with the operand each holds.
-/
def Obligations.DecodeFollowsTheMatchAndMaskTable : Prop :=
  ∀ w : CmdWord,
    (decode w = .ok .nop ↔ w &&& 0xFFFF = 0x0000) ∧
    (∀ n, decode w = .ok (.rdsr n) ↔ w &&& 0xFF00 = 0x0100 ∧ w.extractLsb' 0 8 = n ∧ n.toNat ≤ 10) ∧
    (decode w = .ok .srst ↔ w &&& 0xFFFF = 0x0F00) ∧
    (decode w = .ok (.b58Init .enc) ↔ w &&& 0xFFFE = 0x1000 ∧ w.getLsbD 0 = false) ∧
    (decode w = .ok (.b58Init .dec) ↔ w &&& 0xFFFE = 0x1000 ∧ w.getLsbD 0 = true) ∧
    (∀ v, decode w = .ok (.b58Push v) ↔ w &&& 0xFF00 = 0x1100 ∧ w.extractLsb' 0 8 = v) ∧
    (decode w = .ok .b58Fin ↔ w &&& 0xFFFF = 0x1200) ∧
    (decode w = .ok .b58Pop ↔ w &&& 0xFFFF = 0x1300) ∧
    (decode w = .ok (.rgpInit .eightToFive) ↔ w &&& 0xFFFE = 0x2000 ∧ w.getLsbD 0 = false) ∧
    (decode w = .ok (.rgpInit .fiveToEight) ↔ w &&& 0xFFFE = 0x2000 ∧ w.getLsbD 0 = true) ∧
    (∀ v, decode w = .ok (.rgpPush8 v) ↔ w &&& 0xFF00 = 0x2100 ∧ w.extractLsb' 0 8 = v) ∧
    (∀ g, decode w = .ok (.rgpPush5 g) ↔ w &&& 0xFFE0 = 0x2200 ∧ w.extractLsb' 0 5 = g) ∧
    (∀ p, decode w = .ok (.rgpFlush p) ↔ w &&& 0xFFFE = 0x2300 ∧ w.getLsbD 0 = p) ∧
    (decode w = .ok .pckInit ↔ w &&& 0xFFFF = 0x3000) ∧
    (∀ c, decode w = .ok (.pckPfx c) ↔ w &&& 0xFF00 = 0x3100 ∧ w.extractLsb' 0 8 = c) ∧
    (∀ g, decode w = .ok (.pckGrp g) ↔ w &&& 0xFFE0 = 0x3200 ∧ w.extractLsb' 0 5 = g) ∧
    (∀ k, decode w = .ok (.pckRdsym k) ↔ w &&& 0xFFF8 = 0x3300 ∧ w.extractLsb' 0 3 = k) ∧
    (decode w = .ok .pckVerify ↔ w &&& 0xFFFF = 0x3400)

/-- 30_encoding.md R74: words of the spec's examples and the instruction each spells, one of every family, and words it
calls illegal (95_test_vectors.md Y3). -/
def Obligations.DecodeReadsWordsOfTheSpec : Prop :=
  decode 0x010A = .ok (.rdsr 10) ∧ decode 0x1131 = .ok (.b58Push 0x31) ∧ decode 0x2001 = .ok (.rgpInit .fiveToEight) ∧
    decode 0x221C = .ok (.rgpPush5 28) ∧ decode 0x3307 = .ok (.pckRdsym 7) ∧ decode 0x010B = .error .noSuchStatusReg ∧
    decode 0x1002 = .error .operandBits ∧ decode 0x2400 = .error .noSuchFunc ∧ decode 0x4000 = .error .noSuchUnit

/-- 30_encoding.md R77: the assembler never emits an illegal instruction. -/
def Obligations.AssemblerEmitsOnlyLegalInstructions : Prop :=
  ∀ (line : List Char) (is : List Instr), assembleLine line = .ok is → ∀ i ∈ is, i.wf = true

/-- 30_encoding.md R72: the fields of the response word that `respond(err, data)` builds, and that the data can be read
back from it. -/
def Obligations.ResponseWordHoldsErrCountAndData : Prop :=
  ∀ (e : ErrCode) (data : List Byte), data.length ≤ 2 →
    respErr (respWord e data) = e ∧ (respWord e data).extractLsb' 18 10 = 0 ∧
      (respCount (respWord e data)).toNat = data.length ∧ respD0 (respWord e data) = data[0]?.getD 0 ∧
      respD1 (respWord e data) = data[1]?.getD 0 ∧ respData (respWord e data) = data

/-! ### The step -/

/-- 30_encoding.md R79: a command word that decodes to `i` makes the step `exec i`, the word being taken from what the
host presents; and `withFetchWord` presents a word so. -/
def Obligations.StepRunsTheDecodedCommand : Prop :=
  (∀ (s : State) (w : CmdWord) (rest : List HostInput) (i : Instr),
    s.inputs = .command w :: rest → decode w = .ok i → step s = exec i { s with inputs := rest }) ∧
  ∀ (s : State) (w : CmdWord) (i : Instr), decode w = .ok i → step (s.withFetchWord 16 w.toNat) = exec i s

/-- 60_exceptions.md R154: an illegal word is answered 0xD0000000 in every state and changes nothing else. -/
def Obligations.StepRefusesIllegalWords : Prop :=
  ∀ (s : State) (w : CmdWord) (rest : List HostInput),
    s.inputs = .command w :: rest → (∀ i, decode w ≠ .ok i) →
      step s = .next { s with inputs := rest, resps := s.resps ++ [0xD0000000] }

/-- 70_reset_and_hazards.md R175: the hardware reset input gives the reset state's tuple and no response. That the input
may arrive between any two commands, and that the buffer is erased, are the model's choices (log 2, log 9). -/
def Obligations.HardwareResetGivesTheResetState : Prop :=
  ∀ (s : State) (rest : List HostInput), s.inputs = .reset :: rest →
    step s = .next { s with
      b58 := State.reset.b58
      buf := State.reset.buf
      rgp := State.reset.rgp
      pck := State.reset.pck
      inputs := rest }

/-- 20_memory.md R63 and 00_scope.md R13: presenting the words of legal commands runs them one after the other. -/
def Obligations.RunOfWordsIsTheirCommandsInOrder : Prop :=
  ∀ (is : List Instr) (s : State), (∀ i ∈ is, i.wf = true) →
    Host.Core.run Sys2Proof.core is.length (s.present (is.map encode)) = execAll is (s.present [])

/-! ### Reset and the invariants -/

/-- 10_state.md R45 and 70_reset_and_hazards.md R176: the reset values, the status registers in reset, the commands that
are accepted there, each answered without error, and that every other legal command is refused with `E_SEQ`. -/
def Obligations.ResetStateHoldsTheSpecValues : Prop :=
  State.reset.b58 = ⟨.idle, .enc, false, false, 0, 0, 0, 0⟩ ∧ (∀ a, Memory.get a State.reset.buf = none) ∧
    State.reset.rgp = ⟨.idle, .eightToFive, 0, 0, 0⟩ ∧ State.reset.pck = ⟨.idle, 0, 0⟩ ∧
    statusReg State.reset 0 = some 0x5801 ∧ statusReg State.reset 1 = some 0x0023 ∧
    (∀ n : Byte, 2 ≤ n.toNat → n.toNat ≤ 10 → statusReg State.reset n = some 0x0000) ∧
    (∀ i : Instr, i.wf = true →
      (i = .nop ∨ (∃ n, i = .rdsr n) ∨ i = .srst ∨ (∃ m, i = .b58Init m) ∨ (∃ d, i = .rgpInit d) ∨ i = .pckInit) →
      acceptedBy i State.reset ∧
        ∃ (t : State) (r : RespWord), exec i State.reset = .next t ∧ t.resps = [r] ∧ respErr r = 0) ∧
    ∀ i : Instr, i ≠ .nop → (∀ n, i ≠ .rdsr n) → i ≠ .srst → (∀ m, i ≠ .b58Init m) → (∀ d, i ≠ .rgpInit d) →
      i ≠ .pckInit → exec i State.reset = .next { State.reset with resps := [0xE0000000] }

/-- 10_state.md section 3, which the spec marks as its own inference (R28): the invariants hold in the reset state. -/
def Obligations.ResetMeetsTheInvariants : Prop := Inv State.reset

/-- 10_state.md section 3, which the spec marks as its own inference (R28): every step keeps the invariants, whatever
the host presents and whatever the build. -/
def Obligations.StepKeepsTheInvariants : Prop :=
  ∀ s t : State, Inv s → step s = .next t → Inv t

/-- 10_state.md R45, 41_base58.md R98: under the invariants no step reads a cell without a value, a cell that does not
exist, or an entry the alphabet does not have. -/
def Obligations.StepNeverFaultsUnderTheInvariants : Prop :=
  ∀ (s : State) (f : Fault), Inv s → step s ≠ .fault f

/-- 00_scope.md R10, 60_exceptions.md R151, 30_encoding.md R72 (93 U7, U8): every command word is taken and answered by
exactly one response, of one of the defined forms. -/
def Obligations.EveryCommandIsAnsweredOnce : Prop :=
  ∀ (s : State) (w : CmdWord) (rest : List HostInput), Inv s → s.inputs = .command w :: rest →
    ∃ (t : State) (r : RespWord), step s = .next t ∧ t.inputs = rest ∧ t.cfg = s.cfg ∧ t.resps = s.resps ++ [r] ∧
      ((respErr r = 0 ∧ r.extractLsb' 18 10 = 0 ∧ (respCount r).toNat ≤ 2 ∧
          ((respCount r).toNat < 2 → respD1 r = 0) ∧ ((respCount r).toNat = 0 → respD0 r = 0)) ∨
        r ∈ [0x10000000#32, 0x20000000#32, 0x30000000#32, 0x40000000#32, 0xC0000000#32, 0xD0000000#32, 0xE0000000#32])

/-! ### Refusals, data errors, phases, independence -/

/-- 60_exceptions.md R155: a legal command outside its accepted phases (and direction) is answered 0xE0000000 and
changes nothing else; a command inside them is never answered so. -/
def Obligations.OutOfSequenceExactlyOutsideTheTable : Prop :=
  ∀ (i : Instr) (s : State), i.wf = true →
    (¬ acceptedBy i s → exec i s = .next { s with resps := s.resps ++ [0xE0000000] }) ∧
    (acceptedBy i s → ∀ t, exec i s = .next t → t.resps ≠ s.resps ++ [0xE0000000])

/-- 60_exceptions.md R156: a command answered by a data error has latched the code and the ERROR phase in its own block,
and changed nothing else; the response carries the code and no data. -/
def Obligations.DataErrorLatchesCodeAndPhaseOnly : Prop :=
  ∀ (i : Instr) (s t : State) (r : RespWord), exec i s = .next t → t.resps = s.resps ++ [r] →
    respErr r ∈ [0x1#4, 0x2#4, 0x3#4, 0x4#4, 0xC#4] →
      r = (respErr r).setWidth 32 <<< 28 ∧
      ((i.block = .b58 ∧ t = { s with
          b58 := { s.b58 with err := respErr r, phase := .error }, resps := s.resps ++ [r] }) ∨
       (i.block = .rgp ∧ t = { s with
          rgp := { s.rgp with err := respErr r, phase := .error }, resps := s.resps ++ [r] }) ∨
       (i.block = .pck ∧ t = { s with
          pck := { s.pck with err := respErr r, phase := .error }, resps := s.resps ++ [r] }))

/-- 60_exceptions.md R152: exactly when each of the four source kinds is answered. -/
def Obligations.SourceErrorsHaveExactlyTheirCauses : Prop :=
  ∀ (i : Instr) (s t : State) (r : RespWord), exec i s = .next t → t.resps = s.resps ++ [r] →
    (respErr r = 1 ↔ ∃ v, i = .b58Push v ∧ s.b58.phase = .active ∧ s.b58.mode = .dec ∧ ∀ d, b58Char d ≠ some v) ∧
    (respErr r = 2 ↔ i = .b58Fin ∧ s.b58.phase = .active ∧ s.b58.mode = .dec ∧
      (s.b58.ovf = true ∨ s.b58.lz.toNat + s.b58.blen.toNat ≠ 25)) ∧
    (respErr r = 3 ↔ i = .pckVerify ∧ s.pck.phase = .active ∧ s.pck.csum ^^^ s.cfg.finalXor ≠ 0) ∧
    (respErr r = 4 ↔ i = .rgpFlush false ∧ s.rgp.phase = .active ∧
      (s.rgp.acc ≠ 0 ∨ s.cfg.rejectExcess = true ∧
        (if s.rgp.dir = .eightToFive then 8 else 5) ≤ s.rgp.nbits.toNat))

/-- 20_memory.md R65, what a command writes: the records of the other blocks are unchanged whatever the outcome, `SRST`
apart, and no command changes the build parameters or what the host has still to present. -/
def Obligations.CommandsWriteOnlyTheirOwnBlock : Prop :=
  ∀ (i : Instr) (s t : State), exec i s = .next t →
    t.cfg = s.cfg ∧ t.inputs = s.inputs ∧
    (i.block ≠ .b58 → i ≠ .srst → sameBlock .b58 s t) ∧
    (i.block ≠ .rgp → i ≠ .srst → sameBlock .rgp s t) ∧
    (i.block ≠ .pck → i ≠ .srst → sameBlock .pck s t)

/-- 20_memory.md R65, what a command reads: from two states that agree on the command's block, it gives the same
response and leaves them agreeing on the block. -/
def Obligations.CommandsReadOnlyTheirOwnBlock : Prop :=
  ∀ (i : Instr) (s s' t : State), i.block ≠ .sys → s.cfg = s'.cfg → sameBlock i.block s s' → exec i s = .next t →
    ∃ (t' : State) (r : RespWord), exec i s' = .next t' ∧ sameBlock i.block t t' ∧
      t.resps = s.resps ++ [r] ∧ t'.resps = s'.resps ++ [r]

/-- 20_memory.md R63 (c): swapping two adjacent commands of different blocks, neither of them a system command, changes
neither response nor the final state. -/
def Obligations.CommandsOfDifferentBlocksCommute : Prop :=
  ∀ (i j : Instr) (s t : State), i.block ≠ .sys → j.block ≠ .sys → i.block ≠ j.block →
    execAll [i, j] s = .next t →
      ∃ (u : State) (ri rj : RespWord), execAll [j, i] s = .next u ∧ sameBlock .sys t u ∧ t.cfg = u.cfg ∧
        t.inputs = u.inputs ∧ t.resps = s.resps ++ [ri, rj] ∧ u.resps = s.resps ++ [rj, ri]

/-- 10_state.md R24, R45 and 70_reset_and_hazards.md R178: cells that are not significant are unobservable. Two states
that differ in such cells only answer every command alike and differ in such cells only afterwards. -/
def Obligations.StaleCellsAreUnobservable : Prop :=
  ∀ (i : Instr) (s s' t : State), sameButStaleCells s s' → exec i s = .next t →
    ∃ t', exec i s' = .next t' ∧ sameButStaleCells t t'

/-- 10_state.md R46, the transitions: no block changes phase but as its rule says. -/
def Obligations.PhasesMoveOnlyAsTheRuleSays : Prop :=
  ∀ (i : Instr) (s t : State), exec i s = .next t →
    (t.b58.phase = s.b58.phase ∨ (∃ m, i = .b58Init m) ∧ t.b58.phase = .active ∨ i = .srst ∧ t.b58.phase = .idle ∨
      i = .b58Fin ∧ s.b58.phase = .active ∧ (t.b58.phase = .drain ∨ t.b58.phase = .error) ∨
      (∃ v, i = .b58Push v) ∧ s.b58.phase = .active ∧ t.b58.phase = .error) ∧
    (t.rgp.phase = s.rgp.phase ∨ (∃ d, i = .rgpInit d) ∧ t.rgp.phase = .active ∨ i = .srst ∧ t.rgp.phase = .idle ∨
      (∃ p, i = .rgpFlush p) ∧ s.rgp.phase = .active ∧ (t.rgp.phase = .idle ∨ t.rgp.phase = .error)) ∧
    (t.pck.phase = s.pck.phase ∨ i = .pckInit ∧ t.pck.phase = .active ∨ i = .srst ∧ t.pck.phase = .idle ∨
      i = .pckVerify ∧ s.pck.phase = .active ∧ t.pck.phase = .error)

/-- 60_exceptions.md R161, R162: a block in ERROR keeps its whole record until its own `INIT`, `SRST` or reset. -/
def Obligations.ErrorIsLeftOnlyByInitOrReset : Prop :=
  ∀ (s t : State) (x : HostInput) (rest : List HostInput), s.inputs = x :: rest → step s = .next t →
    (s.b58.phase = .error → t.b58 = s.b58 ∨
      (x = .command 0x1000 ∨ x = .command 0x1001) ∧ t.b58.phase = .active ∧ t.b58.err = 0 ∨
      (x = .command 0x0F00 ∨ x = .reset) ∧ t.b58.phase = .idle ∧ t.b58.err = 0) ∧
    (s.rgp.phase = .error → t.rgp = s.rgp ∨
      (x = .command 0x2000 ∨ x = .command 0x2001) ∧ t.rgp.phase = .active ∧ t.rgp.err = 0 ∨
      (x = .command 0x0F00 ∨ x = .reset) ∧ t.rgp.phase = .idle ∧ t.rgp.err = 0) ∧
    (s.pck.phase = .error → t.pck = s.pck ∨
      x = .command 0x3000 ∧ t.pck.phase = .active ∧ t.pck.err = 0 ∨
      (x = .command 0x0F00 ∨ x = .reset) ∧ t.pck.phase = .idle ∧ t.pck.err = 0)

/-! ### System commands -/

/-- 44_system.md R140: `NOP` answers 0 and changes nothing, in every state. -/
def Obligations.NopOnlyAnswers : Prop :=
  decode 0x0000 = .ok .nop ∧ ∀ s : State, exec .nop s = .next { s with resps := s.resps ++ [0x00000000] }

/-- 44_system.md R141: `RDSR n` answers `0x0002_0000 + SR[n]` and changes nothing, in every state; a number above 10 is
no command. -/
def Obligations.RdsrAnswersTheRegister : Prop :=
  ∀ n : Byte,
    (n.toNat ≤ 10 → decode (0x0100 ||| n.setWidth 16) = .ok (.rdsr n) ∧
      ∀ s : State, ∃ v : StatusWord, statusReg s n = some v ∧
        exec (.rdsr n) s = .next { s with resps := s.resps ++ [0x00020000 + v.setWidth 32] }) ∧
    (10 < n.toNat → ∀ i, decode (0x0100 ||| n.setWidth 16) ≠ .ok i)

/-- 10_state.md R30 to R40: the fields of the eleven status registers, in every state. -/
def Obligations.StatusRegistersShowTheState : Prop :=
  ∀ s : State,
    statusReg s 0 = some 0x5801 ∧
    (∃ v, statusReg s 1 = some v ∧ (s.cfg.legal → (v.extractLsb' 0 8).toNat = s.cfg.cap) ∧
      v.getLsbD 8 = s.cfg.rejectExcess ∧ v.extractLsb' 9 7 = 0) ∧
    (∃ v, statusReg s 2 = some v ∧
      (v.extractLsb' 0 2 = 0 ↔ s.b58.phase = .idle) ∧ (v.extractLsb' 0 2 = 1 ↔ s.b58.phase = .active) ∧
      (v.extractLsb' 0 2 = 2 ↔ s.b58.phase = .drain) ∧ (v.extractLsb' 0 2 = 3 ↔ s.b58.phase = .error) ∧
      (v.getLsbD 2 = true ↔ s.b58.mode = .dec) ∧ v.getLsbD 3 = s.b58.leading ∧ v.getLsbD 4 = s.b58.ovf ∧
      v.extractLsb' 5 3 = 0 ∧ v.extractLsb' 8 4 = s.b58.err ∧ v.extractLsb' 12 4 = 0) ∧
    (∃ v, statusReg s 3 = some v ∧ v.extractLsb' 0 8 = s.b58.lz ∧ v.extractLsb' 8 8 = s.b58.blen) ∧
    (∃ v, statusReg s 4 = some v ∧ v.extractLsb' 0 8 = s.b58.rptr ∧ v.extractLsb' 8 8 = 0) ∧
    (∃ v, statusReg s 5 = some v ∧
      (v.extractLsb' 0 2 = 0 ↔ s.rgp.phase = .idle) ∧ (v.extractLsb' 0 2 = 1 ↔ s.rgp.phase = .active) ∧
      (v.extractLsb' 0 2 = 2 ↔ s.rgp.phase = .drain) ∧ (v.extractLsb' 0 2 = 3 ↔ s.rgp.phase = .error) ∧
      (v.getLsbD 2 = true ↔ s.rgp.dir = .fiveToEight) ∧ v.extractLsb' 3 3 = s.rgp.nbits ∧
      v.extractLsb' 6 2 = 0 ∧ v.extractLsb' 8 4 = s.rgp.err ∧ v.extractLsb' 12 4 = 0) ∧
    (∃ v, statusReg s 6 = some v ∧ v.extractLsb' 0 7 = s.rgp.acc ∧ v.extractLsb' 7 9 = 0) ∧
    (∃ v, statusReg s 7 = some v ∧
      (v.extractLsb' 0 2 = 0 ↔ s.pck.phase = .idle) ∧ (v.extractLsb' 0 2 = 1 ↔ s.pck.phase = .active) ∧
      (v.extractLsb' 0 2 = 2 ↔ s.pck.phase = .drain) ∧ (v.extractLsb' 0 2 = 3 ↔ s.pck.phase = .error) ∧
      v.extractLsb' 2 6 = 0 ∧ v.extractLsb' 8 4 = s.pck.err ∧ v.extractLsb' 12 4 = 0) ∧
    statusReg s 8 = some (s.pck.csum.extractLsb' 0 16) ∧
    statusReg s 9 = some (s.pck.csum.extractLsb' 16 16) ∧
    (∃ v, statusReg s 10 = some v ∧ v.extractLsb' 0 8 = s.pck.csum.extractLsb' 32 8 ∧ v.extractLsb' 8 8 = 0)

/-- 44_system.md R142: after `SRST` the unit's tuple is the reset state's. That the buffer is erased is the model's
choice, which R142 allows (log 9). -/
def Obligations.SrstGivesTheResetState : Prop :=
  decode 0x0F00 = .ok .srst ∧ ∀ s : State, exec .srst s = .next { s with
    b58 := State.reset.b58
    buf := State.reset.buf
    rgp := State.reset.rgp
    pck := State.reset.pck
    resps := s.resps ++ [0x00000000] }

/-! ### B58 -/

/-- 10_state.md R42: the inverse table. It inverts the alphabet, 198 codes have no digit, among them the ones the rule
lists, and the two cases of a letter are different digits. -/
def Obligations.InverseTableInvertsTheAlphabet : Prop :=
  (∀ (c : Byte) (d : Nat), b58Inv c = some d ↔ b58Char d = some c) ∧
    ((List.range 256).filter fun c => (b58Inv (BitVec.ofNat 8 c)).isNone).length = 198 ∧
    b58Inv 0x30 = none ∧ b58Inv 0x4F = none ∧ b58Inv 0x49 = none ∧ b58Inv 0x6C = none ∧
    (∀ c : Byte, c.toNat < 0x31 ∨ 0x3A ≤ c.toNat ∧ c.toNat ≤ 0x40 ∨ 0x5B ≤ c.toNat ∧ c.toNat ≤ 0x60 ∨ 0x7B ≤ c.toNat →
      b58Inv c = none) ∧
    b58Inv 0x61 = some 33 ∧ b58Inv 0x41 = some 9

/-- 10_state.md section 5 (R41): digit `d` is the character at position `d` of the source's alphabet, and there is no digit
58. That a character's code is its ASCII code is general knowledge by the spec's own mark (93 G5; log 6). -/
def Obligations.AlphabetIsTheSourcesString : Prop :=
  ∀ d : Nat, b58Char d =
    ("123456789ABCDEFGHJKLMNPQRSTUVWXYZabcdefghijkmnopqrstuvwxyz".toList[d]?).map fun c => BitVec.ofNat 8 c.toNat

/-- 41_base58.md R95: `B58.INIT m` opens a transaction in every phase, writes the whole record, leaves `BUF` and all
else. -/
def Obligations.B58InitOpensATransaction : Prop :=
  decode 0x1000 = .ok (.b58Init .enc) ∧ decode 0x1001 = .ok (.b58Init .dec) ∧
  ∀ (s : State) (m : Mode), exec (.b58Init m) s = .next { s with
    b58 := {
      phase := .active, mode := m, leading := true, ovf := false, err := 0, lz := 0, blen := 0, rptr := 0 }
    resps := s.resps ++ [0x00000000] }

/-- 41_base58.md R96, R93 in ENC: a byte that fits makes the number `VAL * 256 + v`, held in as many base-58 cells as it
has digits; a zero byte of the leading run is counted. Every other cell and every other field is as before. -/
def Obligations.B58PushFoldsAByteIntoTheNumber : Prop :=
  ∀ (s : State) (v : Byte), Inv s → s.b58.phase = .active → s.b58.mode = .enc →
    let value := b58Value s * 256 + v.toNat
    let n := digitCount 58 value
    let lead := s.b58.leading && v == 0
    let lz := s.b58.lz.toNat + (if lead = true then 1 else 0)
    lz + n ≤ s.cfg.cap →
      ∃ t, exec (.b58Push v) s = .next t ∧
        t = { s with
          b58 := { s.b58 with leading := lead, lz := BitVec.ofNat 8 lz, blen := BitVec.ofNat 8 n }
          buf := t.buf
          resps := s.resps ++ [0x00000000] } ∧
        b58Value t = value ∧
        (∀ i, i < n → Memory.get i t.buf = some (BitVec.ofNat 8 (value / 58 ^ i % 58))) ∧
        ∀ a, n ≤ a → Memory.get a t.buf = Memory.get a s.buf

/-- 41_base58.md R96, R93 in DEC: a character of the alphabet, of digit `d`, makes the number `VAL * 58 + d`, held in as
many bytes as it needs; a `'1'` of the leading run is counted. Every other cell and every other field is as before. -/
def Obligations.B58PushFoldsACharacterIntoTheNumber : Prop :=
  ∀ (s : State) (v : Byte) (d : Nat), Inv s → s.b58.phase = .active → s.b58.mode = .dec → s.b58.ovf = false →
    b58Char d = some v →
    let value := b58Value s * 58 + d
    let n := digitCount 256 value
    let lead := s.b58.leading && d == 0
    let lz := s.b58.lz.toNat + (if lead = true then 1 else 0)
    lz + n ≤ s.cfg.cap →
      ∃ t, exec (.b58Push v) s = .next t ∧
        t = { s with
          b58 := { s.b58 with leading := lead, lz := BitVec.ofNat 8 lz, blen := BitVec.ofNat 8 n }
          buf := t.buf
          resps := s.resps ++ [0x00000000] } ∧
        b58Value t = value ∧
        (∀ i, i < n → Memory.get i t.buf = some (BitVec.ofNat 8 (value / 256 ^ i % 256))) ∧
        ∀ a, n ≤ a → Memory.get a t.buf = Memory.get a s.buf

/-- 41_base58.md R96, 60_exceptions.md R152, R157: where a push is refused and where it fails. Outside ACTIVE it is
refused; in DEC a code outside the alphabet is `InvalidCharacter`, whatever the flag `OVF`; in ENC a byte whose number
does not fit is `E_CAPACITY`. -/
def Obligations.B58PushRefusalAndDataErrors : Prop :=
  (∀ v : Byte, decode (0x1100 ||| v.setWidth 16) = .ok (.b58Push v)) ∧
  (∀ (s : State) (v : Byte), s.b58.phase ≠ .active →
    exec (.b58Push v) s = .next { s with resps := s.resps ++ [0xE0000000] }) ∧
  ∀ (s : State) (v : Byte), s.b58.phase = .active →
    (s.b58.mode = .dec → (∀ d, b58Char d ≠ some v) →
      exec (.b58Push v) s = .next { s with
        b58 := { s.b58 with err := 0x1, phase := .error }, resps := s.resps ++ [0x10000000] }) ∧
    (Inv s → s.b58.mode = .enc →
      s.cfg.cap < s.b58.lz.toNat + (if (s.b58.leading && v == 0) = true then 1 else 0) +
        digitCount 58 (b58Value s * 256 + v.toNat) →
      exec (.b58Push v) s = .next { s with
        b58 := { s.b58 with err := 0xC, phase := .error }, resps := s.resps ++ [0xC0000000] })

/-- 41_base58.md R96, R101: in DEC a number that does not fit sets the sticky flag `OVF`, without error, and from then
on characters of the alphabet change nothing. -/
def Obligations.B58PushDecodeOverflowIsSticky : Prop :=
  ∀ (s : State) (v : Byte) (d : Nat), Inv s → s.b58.phase = .active → s.b58.mode = .dec → b58Char d = some v →
    (s.b58.ovf = false →
      s.cfg.cap < s.b58.lz.toNat + (if (s.b58.leading && d == 0) = true then 1 else 0) +
        digitCount 256 (b58Value s * 58 + d) →
      exec (.b58Push v) s = .next { s with
        b58 := { s.b58 with ovf := true }, resps := s.resps ++ [0x00000000] }) ∧
    (s.b58.ovf = true → exec (.b58Push v) s = .next { s with resps := s.resps ++ [0x00000000] })

/-- 41_base58.md R97: `B58.FIN`. Outside ACTIVE it is refused; in DEC a length other than 25 is `InvalidLength`; else
the output is open and the response is the output length. -/
def Obligations.B58FinClosesTheInput : Prop :=
  decode 0x1200 = .ok .b58Fin ∧
  ∀ s : State,
    (s.b58.phase ≠ .active → exec .b58Fin s = .next { s with resps := s.resps ++ [0xE0000000] }) ∧
    (s.b58.phase = .active → s.b58.mode = .dec → (s.b58.ovf = true ∨ s.b58.lz.toNat + s.b58.blen.toNat ≠ 25) →
      exec .b58Fin s = .next { s with
        b58 := { s.b58 with err := 0x2, phase := .error }, resps := s.resps ++ [0x20000000] }) ∧
    (s.b58.phase = .active → (s.b58.mode = .enc ∨ s.b58.ovf = false ∧ s.b58.lz.toNat + s.b58.blen.toNat = 25) →
      exec .b58Fin s = .next { s with
        b58 := { s.b58 with phase := .drain, rptr := 0 }
        resps := s.resps ++ [respWord 0 [BitVec.ofNat 8 (s.b58.lz.toNat + s.b58.blen.toNat)]] })

/-- 41_base58.md R98: `B58.POP`. Outside DRAIN it is refused; exhausted it answers no data; inside the leading run it
delivers the zero unit; then the cells from `BUF[BLEN - 1]` down to `BUF[0]`, as characters in ENC and bytes in DEC. -/
def Obligations.B58PopDeliversTheNextUnit : Prop :=
  decode 0x1300 = .ok .b58Pop ∧
  ∀ s : State,
    (s.b58.phase ≠ .drain → exec .b58Pop s = .next { s with resps := s.resps ++ [0xE0000000] }) ∧
    (s.b58.phase = .drain → s.b58.lz.toNat + s.b58.blen.toNat ≤ s.b58.rptr.toNat →
      exec .b58Pop s = .next { s with resps := s.resps ++ [0x00000000] }) ∧
    (s.b58.phase = .drain → s.b58.rptr.toNat < s.b58.lz.toNat →
      exec .b58Pop s = .next { s with
        b58 := { s.b58 with rptr := s.b58.rptr + 1 }
        resps := s.resps ++ [respWord 0 [if s.b58.mode = .enc then 0x31 else 0x00]] }) ∧
    (Inv s → s.b58.phase = .drain → s.b58.lz.toNat ≤ s.b58.rptr.toNat →
      s.b58.rptr.toNat < s.b58.lz.toNat + s.b58.blen.toNat →
      ∃ d u : Byte, Memory.get (s.b58.blen.toNat - 1 - (s.b58.rptr.toNat - s.b58.lz.toNat)) s.buf = some d ∧
        (s.b58.mode = .enc → b58Char d.toNat = some u) ∧ (s.b58.mode = .dec → u = d) ∧
        exec .b58Pop s = .next { s with
          b58 := { s.b58 with rptr := s.b58.rptr + 1 }, resps := s.resps ++ [respWord 0 [u]] })

/-- 41_base58.md section 2, which the spec marks as its own inference (R94): the bounds of the step. Every product fits
14 bits, the carry out of the pass is below `FROM`, every new cell is below `TO`, and an absorb appends at most two
cells in ENC and one in DEC. -/
def Obligations.AbsorbStaysWithinItsBounds : Prop :=
  ∀ (m : Mode) (cells : List Nat) (u : Nat), (∀ d ∈ cells, d < toRadix m) → u < fromRadix m →
    (∀ c k : Nat, c < toRadix m → k < fromRadix m → c * fromRadix m + k ≤ 14847) ∧
    (mulCarry (fromRadix m) (toRadix m) cells u).2 < fromRadix m ∧
    (∀ d ∈ absorbCells (fromRadix m) (toRadix m) cells u, d < toRadix m) ∧
    (absorbCells (fromRadix m) (toRadix m) cells u).length ≤ cells.length + (if m = .enc then 2 else 1)

/-- 41_base58.md section 4, which the spec marks as its own inference (R99): an encoding transaction, from any state of
any legal build. An input whose encoding fits gives the characters of `Base58Encode` and then empty answers; else the
first byte that does not fit is answered `E_CAPACITY` and everything after it `E_SEQ`. -/
def Obligations.EncodingTransactionComputesBase58Encode : Prop :=
  ∀ (s : State) (bs : List Byte) (extra : Nat), s.cfg.legal →
    ((base58Encode bs).length ≤ s.cfg.cap →
      ∃ t, execAll (b58Transaction .enc bs ((base58Encode bs).length + extra)) s = .next t ∧
        t.resps = s.resps ++ List.replicate (bs.length + 1) 0#32 ++
          [respWord 0 [BitVec.ofNat 8 (base58Encode bs).length]] ++ (base58Encode bs).map (fun c => respWord 0 [c]) ++
          List.replicate extra 0#32) ∧
    ∀ i, i < bs.length → (∀ j, j ≤ i → (base58Encode (bs.take j)).length ≤ s.cfg.cap) →
      s.cfg.cap < (base58Encode (bs.take (i + 1))).length →
      ∃ t, execAll (b58Transaction .enc bs extra) s = .next t ∧
        t.resps = s.resps ++ List.replicate (i + 1) 0#32 ++ [0xC0000000#32] ++
          List.replicate (bs.length - 1 - i + 1 + extra) 0xE0000000#32

/-- 41_base58.md section 4, which the spec marks as its own inference (R100, R101): a decoding transaction, from any
state, whatever the `B58_CAP` of at least 25. The bytes of `Base58Decode` and then empty answers; or `InvalidLength` at
`FIN` and `E_SEQ` after it; or `InvalidCharacter` at the first foreign character and `E_SEQ` after it. -/
def Obligations.DecodingTransactionComputesBase58Decode : Prop :=
  ∀ (s : State) (cs : List Byte) (extra : Nat), 25 ≤ s.cfg.cap ∧ s.cfg.cap ≤ 255 →
    (∀ bs, base58Decode cs = .ok bs →
      ∃ t, execAll (b58Transaction .dec cs (25 + extra)) s = .next t ∧
        t.resps = s.resps ++ List.replicate (cs.length + 1) 0#32 ++ [respWord 0 [25]] ++
          bs.map (fun b => respWord 0 [b]) ++ List.replicate extra 0#32) ∧
    (base58Decode cs = .error .invalidLength →
      ∃ t, execAll (b58Transaction .dec cs extra) s = .next t ∧
        t.resps = s.resps ++ List.replicate (cs.length + 1) 0#32 ++ [0x20000000#32] ++
          List.replicate extra 0xE0000000#32) ∧
    ∀ (i : Nat) (h : i < cs.length), allBase58 (cs.take i) = true → b58Inv cs[i] = none →
      ∃ t, execAll (b58Transaction .dec cs extra) s = .next t ∧
        t.resps = s.resps ++ List.replicate (i + 1) 0#32 ++ [0x10000000#32] ++
          List.replicate (cs.length - 1 - i + 1 + extra) 0xE0000000#32

/-- 41_base58.md section 1, which the spec marks as its own inference (R103): encode and decode are inverse on 25-byte
sequences and the strings that decode. -/
def Obligations.Base58DecodeAndEncodeAreInverse : Prop :=
  (∀ bs : List Byte, bs.length = 25 → base58Decode (base58Encode bs) = .ok bs) ∧
  ∀ cs bs : List Byte, base58Decode cs = .ok bs → base58Encode bs = cs

/-- 41_base58.md section 4, which the spec marks as its own inference (R102): at most 25 bytes encode to at most 35
characters, and 35 is reached by 25 bytes 0xFF. -/
def Obligations.TwentyFiveBytesEncodeToAtMost35Characters : Prop :=
  (∀ bs : List Byte, bs.length ≤ 25 → (base58Encode bs).length ≤ 35) ∧
  (base58Encode (List.replicate 25 0xFF)).length = 35

/-! ### RGP -/

/-- 42_regrouper.md R111: `RGP.INIT d` opens a transaction in every phase and writes the whole record. -/
def Obligations.RgpInitOpensATransaction : Prop :=
  decode 0x2000 = .ok (.rgpInit .eightToFive) ∧ decode 0x2001 = .ok (.rgpInit .fiveToEight) ∧
  ∀ (s : State) (d : Dir), exec (.rgpInit d) s = .next { s with
    rgp := { phase := .active, dir := d, nbits := 0, acc := 0, err := 0 }, resps := s.resps ++ [0x00000000] }

/-- 42_regrouper.md R113, by the step of R112: `RGP.PUSH8 v` is refused unless the block is ACTIVE in direction 8 to 5;
else it cuts the left-over bits followed by the bits of `v` into 5-bit groups, oldest first, which the response carries,
and keeps the rest. -/
def Obligations.RgpPush8CutsTheBitStream : Prop :=
  (∀ v : Byte, decode (0x2100 ||| v.setWidth 16) = .ok (.rgpPush8 v)) ∧
  (∀ (s : State) (v : Byte), ¬(s.rgp.phase = .active ∧ s.rgp.dir = .eightToFive) →
    exec (.rgpPush8 v) s = .next { s with resps := s.resps ++ [0xE0000000] }) ∧
  ∀ (s : State) (v : Byte), InvTail s → s.rgp.phase = .active → s.rgp.dir = .eightToFive →
    ∃ (out : List Nat) (t : State), exec (.rgpPush8 v) s = .next t ∧
      t = { s with
        rgp := { s.rgp with acc := t.rgp.acc, nbits := BitVec.ofNat 3 ((s.rgp.nbits.toNat + 8) % 5) }
        resps := s.resps ++ [respWord 0 (out.map (BitVec.ofNat 8))] } ∧
      out.length = (s.rgp.nbits.toNat + 8) / 5 ∧ (∀ g ∈ out, g < 32) ∧
      t.rgp.acc.toNat < 2 ^ ((s.rgp.nbits.toNat + 8) % 5) ∧
      groupBits s.rgp.nbits.toNat s.rgp.acc.toNat ++ groupBits 8 v.toNat =
        streamBits 5 out ++ groupBits ((s.rgp.nbits.toNat + 8) % 5) t.rgp.acc.toNat

/-- 42_regrouper.md R114, by the step of R112: `RGP.PUSH5 g` is refused unless the block is ACTIVE in direction 5 to 8;
else it cuts the left-over bits followed by the bits of `g` into bytes, none or one, which the response carries, and
keeps the rest. -/
def Obligations.RgpPush5CutsTheBitStream : Prop :=
  (∀ g : Group, decode (0x2200 ||| g.setWidth 16) = .ok (.rgpPush5 g)) ∧
  (∀ (s : State) (g : Group), ¬(s.rgp.phase = .active ∧ s.rgp.dir = .fiveToEight) →
    exec (.rgpPush5 g) s = .next { s with resps := s.resps ++ [0xE0000000] }) ∧
  ∀ (s : State) (g : Group), InvTail s → s.rgp.phase = .active → s.rgp.dir = .fiveToEight →
    ∃ (out : List Nat) (t : State), exec (.rgpPush5 g) s = .next t ∧
      t = { s with
        rgp := { s.rgp with acc := t.rgp.acc, nbits := BitVec.ofNat 3 ((s.rgp.nbits.toNat + 5) % 8) }
        resps := s.resps ++ [respWord 0 (out.map (BitVec.ofNat 8))] } ∧
      out.length = (s.rgp.nbits.toNat + 5) / 8 ∧ (∀ b ∈ out, b < 256) ∧
      t.rgp.acc.toNat < 2 ^ ((s.rgp.nbits.toNat + 5) % 8) ∧
      groupBits s.rgp.nbits.toNat s.rgp.acc.toNat ++ groupBits 5 g.toNat =
        streamBits 8 out ++ groupBits ((s.rgp.nbits.toNat + 5) % 8) t.rgp.acc.toNat

/-- 42_regrouper.md R115: `RGP.FLUSH p`. Outside ACTIVE it is refused; with `p = 1` the left-over bits leave padded with
zeros; with `p = 0` a zero tail is dropped and any other (or, in a build that rejects excess, one that holds a whole
input group) is `InvalidPadding`. -/
def Obligations.RgpFlushPadsDropsOrFails : Prop :=
  decode 0x2300 = .ok (.rgpFlush false) ∧ decode 0x2301 = .ok (.rgpFlush true) ∧
  ∀ s : State, InvTail s →
    let win := if s.rgp.dir = .eightToFive then 8 else 5
    let wout := if s.rgp.dir = .eightToFive then 5 else 8
    let bad := s.rgp.acc ≠ 0 ∨ s.cfg.rejectExcess = true ∧ win ≤ s.rgp.nbits.toNat
    (s.rgp.phase ≠ .active → ∀ p, exec (.rgpFlush p) s = .next { s with resps := s.resps ++ [0xE0000000] }) ∧
    (s.rgp.phase = .active →
      (s.rgp.nbits = 0 → exec (.rgpFlush true) s = .next { s with
        rgp := { s.rgp with phase := .idle, acc := 0, nbits := 0 }, resps := s.resps ++ [0x00000000] }) ∧
      (s.rgp.nbits ≠ 0 → exec (.rgpFlush true) s = .next { s with
        rgp := { s.rgp with phase := .idle, acc := 0, nbits := 0 }
        resps := s.resps ++ [respWord 0 [BitVec.ofNat 8 (s.rgp.acc.toNat * 2 ^ (wout - s.rgp.nbits.toNat))]] }) ∧
      (¬ bad → exec (.rgpFlush false) s = .next { s with
        rgp := { s.rgp with phase := .idle, acc := 0, nbits := 0 }, resps := s.resps ++ [0x00000000] }) ∧
      (bad → exec (.rgpFlush false) s = .next { s with
        rgp := { s.rgp with err := 0x4, phase := .error }, resps := s.resps ++ [0x40000000] }))

/-- 42_regrouper.md section 4, which the spec marks as its own inference (R116), with `(from, to) = (8, 5)`: the data of
the responses of a transaction, in order, are the groups of `Regroup`; where `Regroup` fails, `FLUSH` answers
`InvalidPadding` after the complete groups. -/
def Obligations.EightToFiveTransactionComputesRegroup : Prop :=
  ∀ (s : State) (bs : List Byte) (p : Bool),
    ∃ (t : State) (rs : List RespWord) (r : RespWord),
      execAll (rgp8Transaction bs p) s = .next t ∧ t.resps = s.resps ++ rs ++ [r] ∧ (∀ x ∈ rs, respErr x = 0) ∧
      match regroup s.cfg.rejectExcess (bs.map BitVec.toNat) 8 5 p with
      | .ok out => respErr r = 0 ∧ ((rs ++ [r]).flatMap respData).map BitVec.toNat = out
      | .error _ => r = 0x40000000 ∧
          (rs.flatMap respData).map BitVec.toNat = wholeGroups 5 (streamBits 8 (bs.map BitVec.toNat))

/-- 42_regrouper.md section 4, which the spec marks as its own inference (R116), with `(from, to) = (5, 8)`, as the
statement before it. -/
def Obligations.FiveToEightTransactionComputesRegroup : Prop :=
  ∀ (s : State) (gs : List Group) (p : Bool),
    ∃ (t : State) (rs : List RespWord) (r : RespWord),
      execAll (rgp5Transaction gs p) s = .next t ∧ t.resps = s.resps ++ rs ++ [r] ∧ (∀ x ∈ rs, respErr x = 0) ∧
      match regroup s.cfg.rejectExcess (gs.map BitVec.toNat) 5 8 p with
      | .ok out => respErr r = 0 ∧ ((rs ++ [r]).flatMap respData).map BitVec.toNat = out
      | .error _ => r = 0x40000000 ∧
          (rs.flatMap respData).map BitVec.toNat = wholeGroups 8 (streamBits 5 (gs.map BitVec.toNat))

/-- 42_regrouper.md section 4, which the spec marks as its own inference (R117): the round trip, whatever
`RGP_REJECT_EXCESS` is in either pass. -/
def Obligations.RegroupRoundTripGivesTheBytesBack : Prop :=
  ∀ (reject reject' : Bool) (bs : List Byte),
    ∃ gs, regroup reject (bs.map BitVec.toNat) 8 5 true = .ok gs ∧ (∀ g ∈ gs, g < 32) ∧
      regroup reject' gs 5 8 false = .ok (bs.map BitVec.toNat)

/-! ### PCK -/

/-- 43_checksum.md R128: `PCK.INIT` loads `PCK_INIT` in every phase and writes the whole record. -/
def Obligations.PckInitOpensAFrame : Prop :=
  decode 0x3000 = .ok .pckInit ∧ ∀ s : State, exec .pckInit s = .next { s with
    pck := { phase := .active, csum := s.cfg.init, err := 0 }, resps := s.resps ++ [0x00000000] }

/-- 43_checksum.md section 1 (R129), the step the spec marks as general knowledge (93 G4; log 6) and its linearity as
its own inference: the value of `PckStep`, the bits 39 to 35 of the old state selecting the constants, and its linearity
over xor, for any constants. -/
def Obligations.PckStepValueAndLinearity : Prop :=
  ∀ gen : Vector Csum 5,
    (∀ (c : Csum) (d : Group), pckStep gen c d =
      (c <<< 5) ^^^ d.setWidth 40 ^^^ (if c.getLsbD 35 = true then gen[0] else 0) ^^^
        (if c.getLsbD 36 = true then gen[1] else 0) ^^^ (if c.getLsbD 37 = true then gen[2] else 0) ^^^
        (if c.getLsbD 38 = true then gen[3] else 0) ^^^ (if c.getLsbD 39 = true then gen[4] else 0)) ∧
    ∀ (a b : Csum) (d e : Group), pckStep gen (a ^^^ b) (d ^^^ e) = pckStep gen a d ^^^ pckStep gen b e

/-- 43_checksum.md R130, R131: `PCK.PFX c` absorbs the low five bits of `c`, `PCK.GRP g` absorbs `g`; outside ACTIVE
both are refused. -/
def Obligations.PckPfxAndGrpAbsorb : Prop :=
  (∀ c : Byte, decode (0x3100 ||| c.setWidth 16) = .ok (.pckPfx c)) ∧
  (∀ g : Group, decode (0x3200 ||| g.setWidth 16) = .ok (.pckGrp g)) ∧
  ∀ s : State,
    (s.pck.phase ≠ .active →
      (∀ c, exec (.pckPfx c) s = .next { s with resps := s.resps ++ [0xE0000000] }) ∧
      ∀ g, exec (.pckGrp g) s = .next { s with resps := s.resps ++ [0xE0000000] }) ∧
    (s.pck.phase = .active →
      (∀ c : Byte, exec (.pckPfx c) s = .next { s with
        pck := { s.pck with csum := pckStep s.cfg.gen s.pck.csum (c.extractLsb' 0 5) }
        resps := s.resps ++ [0x00000000] }) ∧
      ∀ g : Group, exec (.pckGrp g) s = .next { s with
        pck := { s.pck with csum := pckStep s.cfg.gen s.pck.csum g }, resps := s.resps ++ [0x00000000] })

/-- 43_checksum.md R132, R134 and 20_memory.md R56: `PCK.RDSYM k` answers the bits `[39 - 5k : 35 - 5k]` of `CSUM xor
PCK_FINAL_XOR` and changes nothing; outside ACTIVE it is refused. -/
def Obligations.PckRdsymReadsASymbolOfTheResult : Prop :=
  (∀ k : BitVec 3, decode (0x3300 ||| k.setWidth 16) = .ok (.pckRdsym k)) ∧
  ∀ (s : State) (k : BitVec 3),
    (s.pck.phase ≠ .active → exec (.pckRdsym k) s = .next { s with resps := s.resps ++ [0xE0000000] }) ∧
    (s.pck.phase = .active → exec (.pckRdsym k) s = .next { s with
      resps := s.resps ++
        [respWord 0 [((s.pck.csum ^^^ s.cfg.finalXor).extractLsb' (35 - 5 * k.toNat) 5).setWidth 8]] })

/-- 43_checksum.md R133: `PCK.VERIFY` answers 0 and changes nothing when the result is zero; else it is
`ChecksumMismatch`, the state of the frame being kept; outside ACTIVE it is refused. -/
def Obligations.PckVerifyTestsTheResult : Prop :=
  decode 0x3400 = .ok .pckVerify ∧
  ∀ s : State,
    (s.pck.phase ≠ .active → exec .pckVerify s = .next { s with resps := s.resps ++ [0xE0000000] }) ∧
    (s.pck.phase = .active → s.pck.csum = s.cfg.finalXor →
      exec .pckVerify s = .next { s with resps := s.resps ++ [0x00000000] }) ∧
    (s.pck.phase = .active → s.pck.csum ≠ s.cfg.finalXor → exec .pckVerify s = .next { s with
      pck := { s.pck with err := 0x3, phase := .error }, resps := s.resps ++ [0x30000000] })

/-- 43_checksum.md section 3, which the spec marks as its own inference (R135): a computing transaction, from any state
and for any constants: no command fails, the register ends at `PolymodRaw` of the frame with eight placeholders, and the
symbols read are those of `Compute`. -/
def Obligations.ComputeTransactionGivesTheSymbols : Prop :=
  ∀ (s : State) (pfx : List Byte) (pl : List Group),
    ∃ t, execAll (pckComputeTransaction pfx pl) s = .next t ∧
      t.pck.csum = polymodRaw s.cfg (checksumBase pfx pl ++ List.replicate 8 0) ∧
      t.resps = s.resps ++ List.replicate (pfx.length + pl.length + 10) 0#32 ++
        (symbols (compute s.cfg pfx pl)).map (fun g => respWord 0 [g.setWidth 8])

/-- 43_checksum.md section 3, which the spec marks as its own inference (R136): a verifying transaction, from any state
and for any constants: every command before `VERIFY` answers 0, and `VERIFY` passes exactly when `Verify` holds. -/
def Obligations.VerifyTransactionDecidesVerify : Prop :=
  ∀ (s : State) (pfx : List Byte) (plc : List Group),
    ∃ t, execAll (pckVerifyTransaction pfx plc) s = .next t ∧
      t.resps = s.resps ++ List.replicate (pfx.length + plc.length + 2) 0#32 ++
        [if verify s.cfg pfx plc = true then 0#32 else 0x30000000#32]

/-- 43_checksum.md section 3, which the spec marks as its own inference (R137): compute and verify agree, for any
constants. -/
def Obligations.ComputedSymbolsVerify : Prop :=
  ∀ (c : Config) (pfx : List Byte) (pl : List Group), verify c pfx (pl ++ symbols (compute c pfx pl)) = true

/-- 43_checksum.md section 3, which the spec marks as its own inference (R138): a frame that verifies does not verify
after a change of one of its last eight groups, for any constants. -/
def Obligations.OneChangedChecksumSymbolFails : Prop :=
  ∀ (c : Config) (pfx : List Byte) (pl cs : List Group) (k : Nat) (g : Group),
    cs.length = 8 → k < 8 → cs[k]? ≠ some g → verify c pfx (pl ++ cs) = true →
      verify c pfx (pl ++ cs.set k g) = false
end

