-- ==== Sys2Proof/Laws/Base58.lean ====
section
/-! SUPPORT. The arithmetic of the B58 step (41_base58.md R93, R94): one absorb turns the digits of a number into the
digits of the number times `FROM` plus the unit. And the reference digits (R91) are the library's. -/

namespace Sys2Proof.Machine

@[simp] theorem mulCarry_length (rin rout : Nat) (cells : List Nat) (u : Nat) :
    (mulCarry rin rout cells u).1.length = cells.length := by
  induction cells generalizing u with
  | nil => rfl
  | cons c cs ih => simp [mulCarry, ih]

/-- The pass computes the product: the cells it leaves and the carry it gives out stand for `VAL * FROM + u`. -/
theorem mulCarry_value (rin rout : Nat) (cells : List Nat) (u : Nat) :
    Nat.ofDigits rout (mulCarry rin rout cells u).1 + rout ^ cells.length * (mulCarry rin rout cells u).2 =
      Nat.ofDigits rout cells * rin + u := by
  induction cells generalizing u with
  | nil => simp [mulCarry]
  | cons c cs ih =>
    have h := ih ((c * rin + u) / rout)
    have hd := Nat.mod_add_div (c * rin + u) rout
    simp only [mulCarry, Nat.ofDigits_cons, List.length_cons, pow_succ]
    generalize Nat.ofDigits rout (mulCarry rin rout cs ((c * rin + u) / rout)).1 = x at h ⊢
    generalize (mulCarry rin rout cs ((c * rin + u) / rout)).2 = y at h ⊢
    generalize Nat.ofDigits rout cs = z at h ⊢
    generalize (c * rin + u) / rout = q at h hd ⊢
    generalize (c * rin + u) % rout = r at hd ⊢
    calc r + rout * x + rout ^ cs.length * rout * y
        = r + rout * (x + rout ^ cs.length * y) := by ring
      _ = r + rout * (z * rin + q) := by rw [h]
      _ = (r + rout * q) + rout * z * rin := by ring
      _ = (c + rout * z) * rin + u := by rw [hd]; ring

/-- Every cell the pass leaves is a digit of the output radix (R94). -/
theorem mulCarry_digit (rin rout : Nat) (hout : 0 < rout) (cells : List Nat) (u : Nat) :
    ∀ d ∈ (mulCarry rin rout cells u).1, d < rout := by
  induction cells generalizing u with
  | nil => simp [mulCarry]
  | cons c cs ih =>
    intro d hd
    simp only [mulCarry, List.mem_cons] at hd
    rcases hd with rfl | hd
    · exact Nat.mod_lt _ hout
    · exact ih _ d hd

/-- A pass over a number without leading zero digit that gives no carry out leaves no leading zero digit. -/
theorem mulCarry_last (rin rout : Nat) (hin : 0 < rin) (cells : List Nat) (u : Nat)
    (hlast : ∀ h : cells ≠ [], cells.getLast h ≠ 0) (hcarry : (mulCarry rin rout cells u).2 = 0) :
    ∀ h : (mulCarry rin rout cells u).1 ≠ [], (mulCarry rin rout cells u).1.getLast h ≠ 0 := by
  induction cells generalizing u with
  | nil => simp [mulCarry]
  | cons c cs ih =>
    intro h
    by_cases hcs : cs = []
    · subst hcs
      have hc : c ≠ 0 := by simpa using hlast (by simp)
      simp only [mulCarry, List.getLast_singleton] at hcarry ⊢
      have hpos : 0 < c * rin := Nat.mul_pos (Nat.pos_of_ne_zero hc) hin
      have hdm := Nat.mod_add_div (c * rin + u) rout
      rw [hcarry, Nat.mul_zero, Nat.add_zero] at hdm
      omega
    · have hne : (mulCarry rin rout cs ((c * rin + u) / rout)).1 ≠ [] := by
        intro h0
        have := congrArg List.length h0
        simp at this
        exact hcs this
      have := ih ((c * rin + u) / rout) (fun h' => by simpa [List.getLast_cons hcs] using hlast (by simp))
        (by simpa [mulCarry] using hcarry) hne
      simpa [mulCarry, List.getLast_cons hne] using this

/-- The appended cells are the digits of the carry. -/
theorem growDigits_eq_digits (rout : Nat) (hout : 2 ≤ rout) (turns c : Nat) (h : c ≤ turns) :
    growDigits rout turns c = Nat.digits rout c := by
  induction turns generalizing c with
  | zero =>
    obtain rfl : c = 0 := by omega
    simp [growDigits]
  | succ turns ih =>
    unfold growDigits
    split
    · rename_i h0; simp [h0]
    · rename_i h0
      have hpos : 0 < c := Nat.pos_of_ne_zero h0
      rw [Nat.digits_def' (by omega) hpos, ih]
      have := Nat.div_lt_self hpos (by omega : 1 < rout)
      omega

/-- The absorbed number (R93): `VAL * FROM + u`. -/
theorem absorbCells_value (rin rout : Nat) (hout : 2 ≤ rout) (cells : List Nat) (u : Nat) :
    Nat.ofDigits rout (absorbCells rin rout cells u) = Nat.ofDigits rout cells * rin + u := by
  simp only [absorbCells, Nat.ofDigits_append, mulCarry_length, growDigits_eq_digits rout hout _ _ (Nat.le_refl _),
    Nat.ofDigits_digits]
  exact mulCarry_value rin rout cells u

theorem absorbCells_digit (rin rout : Nat) (hout : 2 ≤ rout) (cells : List Nat) (u : Nat) :
    ∀ d ∈ absorbCells rin rout cells u, d < rout := by
  intro d hd
  simp only [absorbCells, growDigits_eq_digits rout hout _ _ (Nat.le_refl _), List.mem_append] at hd
  rcases hd with hd | hd
  · exact mulCarry_digit rin rout (by omega) cells u d hd
  · exact Nat.digits_lt_base (by omega) hd

theorem absorbCells_last (rin rout : Nat) (hin : 0 < rin) (hout : 2 ≤ rout) (cells : List Nat) (u : Nat)
    (hlast : ∀ h : cells ≠ [], cells.getLast h ≠ 0) :
    ∀ h : absorbCells rin rout cells u ≠ [], (absorbCells rin rout cells u).getLast h ≠ 0 := by
  simp only [absorbCells, growDigits_eq_digits rout hout _ _ (Nat.le_refl _)]
  intro h
  by_cases hc : (mulCarry rin rout cells u).2 = 0
  · simp only [hc, Nat.digits_zero, List.append_nil] at h ⊢
    exact mulCarry_last rin rout hin cells u hlast hc h
  · have hne : Nat.digits rout (mulCarry rin rout cells u).2 ≠ [] := Nat.digits_ne_nil_iff_ne_zero.2 hc
    rw [List.getLast_append_of_ne_nil _ hne]
    exact Nat.getLast_digit_ne_zero rout hc

/-- One absorb on the digits of `v` gives the digits of `v * FROM + u` (41_base58.md R93). -/
theorem absorbCells_digits (rin rout : Nat) (hin : 0 < rin) (hout : 2 ≤ rout) (v u : Nat) :
    absorbCells rin rout (Nat.digits rout v) u = Nat.digits rout (v * rin + u) := by
  have hv := absorbCells_value rin rout hout (Nat.digits rout v) u
  rw [Nat.ofDigits_digits] at hv
  rw [← hv, Nat.digits_ofDigits rout (by omega) _ (absorbCells_digit rin rout hout _ _)]
  refine absorbCells_last rin rout hin hout _ _ (fun h => ?_)
  exact Nat.getLast_digit_ne_zero rout (Nat.digits_ne_nil_iff_ne_zero.1 h)

/-! ### The reference digits -/

theorem divisions_eq_length (base : Nat) (hb : 2 ≤ base) (turns v : Nat) (h : v ≤ turns) :
    divisions base turns v = (Nat.digits base v).length := by
  induction turns generalizing v with
  | zero =>
    obtain rfl : v = 0 := by omega
    simp [divisions]
  | succ turns ih =>
    unfold divisions
    split
    · rename_i h0; simp [h0]
    · rename_i h0
      have hpos : 0 < v := Nat.pos_of_ne_zero h0
      have := Nat.div_lt_self hpos (by omega : 1 < base)
      rw [Nat.digits_def' (by omega) hpos, ih _ (by omega), List.length_cons]

theorem digitCount_eq_length (base : Nat) (hb : 2 ≤ base) (v : Nat) :
    digitCount base v = (Nat.digits base v).length :=
  divisions_eq_length base hb v v (Nat.le_refl v)

/-- The digits of 41_base58.md R91 are the library's, most significant first. -/
theorem digitsOf_eq_reverse (base : Nat) (hb : 2 ≤ base) (v : Nat) :
    digitsOf base v = (Nat.digits base v).reverse := by
  have hc := digitCount_eq_length base hb v
  refine List.ext_getElem (by simp [digitsOf, hc]) (fun i h1 h2 => ?_)
  simp only [digitsOf, List.getElem_map, List.getElem_range, List.getElem_reverse, hc]
  have := Nat.getD_digits v ((Nat.digits base v).length - 1 - i) hb
  rw [← this, List.getD_eq_getElem?_getD, List.getElem?_eq_getElem]
  rfl

end Sys2Proof.Machine
end

