-- ==== Sys2Proof/Laws/Memory.lean ====
section
/-! SUPPORT. The working buffer: read after write, the canonical form, and what reading and writing a run of cells does. -/

namespace Sys2Proof.Machine

theorem Memory.get_set (m : Memory) (a : Nat) (v : Byte) (c : Nat) :
    Memory.get c (Memory.set a v m) = if c = a then some v else Memory.get c m := by
  induction m with
  | nil => simp [Memory.set, Memory.get, eq_comm]
  | cons x m ih =>
    obtain ⟨b, u⟩ := x
    unfold Memory.set
    split
    · simp [Memory.get, eq_comm]
    · split
      · subst b
        by_cases h : c = a
        · simp [Memory.get, h]
        · simp [Memory.get, h, Ne.symm h]
      · rename_i h
        simp only [Memory.get, ih]
        by_cases hb : b = c
        · have : ¬ c = a := by omega
          simp [hb, this]
        · simp [hb]

@[simp] theorem Memory.get_set_same (m : Memory) (a : Nat) (v : Byte) :
    Memory.get a (Memory.set a v m) = some v := by simp [Memory.get_set]

theorem Memory.get_set_other (m : Memory) (a : Nat) (v : Byte) (c : Nat) (h : c ≠ a) :
    Memory.get c (Memory.set a v m) = Memory.get c m := by simp [Memory.get_set, h]

/-- The indices after a write: the old ones and the one written. -/
theorem Memory.mem_set (m : Memory) (a : Nat) (v : Byte) (x : Host.Cell) (h : x ∈ Memory.set a v m) :
    x = (a, v) ∨ x ∈ m := by
  induction m with
  | nil => simpa [Memory.set] using h
  | cons y m ih =>
    obtain ⟨b, u⟩ := y
    unfold Memory.set at h
    split at h
    · simpa using h
    · split at h
      · rcases List.mem_cons.1 h with h | h
        · exact .inl h
        · exact .inr (List.mem_cons_of_mem _ h)
      · rcases List.mem_cons.1 h with h | h
        · exact .inr (h ▸ List.mem_cons_self)
        · rcases ih h with h | h
          · exact .inl h
          · exact .inr (List.mem_cons_of_mem _ h)

theorem Memory.wf_nil : Memory.wf [] := List.Pairwise.nil

/-- A write keeps the canonical form. -/
theorem Memory.wf_set (m : Memory) (a : Nat) (v : Byte) (h : Memory.wf m) : Memory.wf (Memory.set a v m) := by
  induction m with
  | nil => simp [Memory.set, Memory.wf]
  | cons y m ih =>
    obtain ⟨b, u⟩ := y
    have hb := List.pairwise_cons.1 h
    unfold Memory.set
    split
    · rename_i hab
      refine List.pairwise_cons.2 ⟨fun x hx => ?_, h⟩
      rcases List.mem_cons.1 hx with hx | hx
      · subst hx; exact hab
      · exact Nat.lt_trans hab (hb.1 x hx)
    · split
      · rename_i hab
        subst hab
        exact List.pairwise_cons.2 ⟨fun x hx => hb.1 x hx, hb.2⟩
      · rename_i h1 h2
        refine List.pairwise_cons.2 ⟨fun x hx => ?_, ih hb.2⟩
        rcases Memory.mem_set m a v x hx with hx | hx
        · subst hx; simp only; omega
        · exact hb.1 x hx

/-- A read of a cell answers only the value written there, in a cell that exists. -/
theorem readCell_ok (cap : Nat) (m : Memory) (a : Nat) (v : Byte) :
    readCell cap m a = .ok v ↔ a < cap ∧ Memory.get a m = some v := by
  unfold readCell
  split
  · rename_i h
    cases hg : Memory.get a m <;> simp [h]
  · rename_i h
    simp [h]

theorem writeCell_ok (cap : Nat) (m : Memory) (a : Nat) (v : Byte) (m' : Memory) :
    writeCell cap m a v = .ok m' ↔ a < cap ∧ m' = Memory.set a v m := by
  unfold writeCell
  split
  · rename_i h
    simp [h, eq_comm]
  · rename_i h
    simp [h]

/-- All that reading a run of cells can answer. -/
theorem readCells_ok (cap : Nat) (m : Memory) (k a : Nat) (vs : List Byte) :
    readCells cap m a k = .ok vs ↔
      vs.length = k ∧ ∀ i, (h : i < vs.length) → a + i < cap ∧ Memory.get (a + i) m = some vs[i] := by
  induction k generalizing a vs with
  | zero =>
    cases vs <;> simp [readCells]
  | succ k ih =>
    unfold readCells
    cases hr : readCell cap m a with
    | error f =>
      simp only [reduceCtorEq, false_iff, not_and]
      intro hl hall
      have h0 := hall 0 (by omega)
      have : readCell cap m a = .ok vs[0] := (readCell_ok ..).2 (by simpa using h0)
      simp [hr] at this
    | ok v =>
      have hv := (readCell_ok ..).1 hr
      cases vs with
      | nil =>
        simp only [List.length_nil, Nat.right_eq_add, Nat.add_eq_zero_iff, one_ne_zero, and_false, false_and, iff_false]
        split <;> simp
      | cons w ws =>
        have key : (match readCells cap m (a + 1) k with
            | .error f => Except.error f
            | .ok us => Except.ok (v :: us)) = .ok (w :: ws) ↔ v = w ∧ readCells cap m (a + 1) k = .ok ws := by
          split
          · rename_i f hf; simp [hf]
          · rename_i us hu; simp [hu]
        refine Iff.trans key ?_
        rw [ih]
        constructor
        · rintro ⟨rfl, hl, hall⟩
          refine ⟨by simp [hl], fun i hi => ?_⟩
          cases i with
          | zero => simpa using hv
          | succ i =>
            have := hall i (by simpa using hi)
            simpa [Nat.add_assoc, Nat.add_comm 1 i] using this
        · rintro ⟨hl, hall⟩
          have h0 := hall 0 (by simp)
          refine ⟨?_, by simpa using hl, fun i hi => ?_⟩
          · have := h0.2; rw [Nat.add_zero, hv.2] at this; simpa using this
          · have := hall (i + 1) (by simpa using hi)
            simpa [Nat.add_assoc, Nat.add_comm 1 i] using this

/-- All that writing a run of cells can answer: it fails exactly when a cell does not exist; else each cell of the run
holds its value, every other cell is as before, and the canonical form is kept. -/
theorem writeCells_ok (cap : Nat) (m m' : Memory) (a : Nat) (vs : List Byte) (h : writeCells cap m a vs = .ok m') :
    (∀ i, (hi : i < vs.length) → Memory.get (a + i) m' = some vs[i]) ∧
    (∀ c, c < a ∨ a + vs.length ≤ c → Memory.get c m' = Memory.get c m) ∧
    (Memory.wf m → Memory.wf m') ∧
    (∀ x ∈ m', x ∈ m ∨ x.1 < cap) := by
  induction vs generalizing a m with
  | nil =>
    simp only [writeCells, Except.ok.injEq] at h
    subst h
    refine ⟨fun i hi => absurd hi (by simp), fun _ _ => rfl, id, fun x hx => .inl hx⟩
  | cons v vs ih =>
    unfold writeCells at h
    cases hw : writeCell cap m a v with
    | error f => simp [hw] at h
    | ok m1 =>
      simp only [hw] at h
      obtain ⟨ha, rfl⟩ := (writeCell_ok ..).1 hw
      obtain ⟨h1, h2, h3, h4⟩ := ih _ _ h
      refine ⟨fun i hi => ?_, fun c hc => ?_, fun hm => h3 (Memory.wf_set _ _ _ hm), fun x hx => ?_⟩
      · cases i with
        | zero => rw [Nat.add_zero, h2 a (.inl (by omega))]; simp
        | succ i =>
          have := h1 i (by simpa using hi)
          simpa [Nat.add_assoc, Nat.add_comm 1 i] using this
      · simp only [List.length_cons] at hc
        rw [h2 c (by omega), Memory.get_set_other _ _ _ _ (by omega)]
      · rcases h4 x hx with hx | hx
        · rcases Memory.mem_set _ _ _ _ hx with hx | hx
          · subst hx; exact .inr ha
          · exact .inl hx
        · exact .inr hx

/-- Writing a run of cells that exist never fails. -/
theorem writeCells_total (cap : Nat) (m : Memory) (a : Nat) (vs : List Byte) (h : a + vs.length ≤ cap) :
    ∃ m', writeCells cap m a vs = .ok m' := by
  induction vs generalizing a m with
  | nil => exact ⟨m, rfl⟩
  | cons v vs ih =>
    simp only [List.length_cons] at h
    have hw : writeCell cap m a v = .ok (Memory.set a v m) := (writeCell_ok ..).2 ⟨by omega, rfl⟩
    obtain ⟨m', hm'⟩ := ih (Memory.set a v m) (a + 1) (by omega)
    exact ⟨m', by simp [writeCells, hw, hm']⟩

/-- Reading a run of cells that exist and have been written never fails. -/
theorem readCells_total (cap : Nat) (m : Memory) (a k : Nat) (h : a + k ≤ cap)
    (hv : ∀ i, i < k → ∃ v, Memory.get (a + i) m = some v) :
    ∃ vs, readCells cap m a k = .ok vs := by
  induction k generalizing a with
  | zero => exact ⟨[], rfl⟩
  | succ k ih =>
    obtain ⟨v, hv0⟩ := hv 0 (by omega)
    have hr : readCell cap m a = .ok v := (readCell_ok ..).2 ⟨by omega, hv0⟩
    obtain ⟨vs, hvs⟩ := ih (a + 1) (by omega) (fun i hi => by
      have := hv (i + 1) (by omega)
      simpa [Nat.add_assoc, Nat.add_comm 1 i] using this)
    exact ⟨v :: vs, by simp [readCells, hr, hvs]⟩

end Sys2Proof.Machine
end

