-- ==== Sys2Proof/Laws/State.lean ====
section
/-! SUPPORT. What each shared update of `State` leaves and writes, field by field. -/

namespace Sys2Proof.Machine

/-! ### The reset state -/

/-- The buffer of the reset state is in canonical form (10_state.md R45). -/
theorem State.reset_wf : Memory.wf State.reset.buf := List.Pairwise.nil

/-! ### `State.say`: one more response -/

@[simp] theorem State.say_cfg (s : State) (r : RespWord) : (s.say r).cfg = s.cfg := rfl
@[simp] theorem State.say_b58 (s : State) (r : RespWord) : (s.say r).b58 = s.b58 := rfl
@[simp] theorem State.say_buf (s : State) (r : RespWord) : (s.say r).buf = s.buf := rfl
@[simp] theorem State.say_rgp (s : State) (r : RespWord) : (s.say r).rgp = s.rgp := rfl
@[simp] theorem State.say_pck (s : State) (r : RespWord) : (s.say r).pck = s.pck := rfl
@[simp] theorem State.say_inputs (s : State) (r : RespWord) : (s.say r).inputs = s.inputs := rfl
@[simp] theorem State.say_resps (s : State) (r : RespWord) : (s.say r).resps = s.resps ++ [r] := rfl

/-! ### `resetUnit` -/

@[simp] theorem resetUnit_cfg (s : State) : (resetUnit s).cfg = s.cfg := rfl
@[simp] theorem resetUnit_b58 (s : State) : (resetUnit s).b58 = b58Reset := rfl
@[simp] theorem resetUnit_buf (s : State) : (resetUnit s).buf = [] := rfl
@[simp] theorem resetUnit_rgp (s : State) : (resetUnit s).rgp = rgpReset := rfl
@[simp] theorem resetUnit_pck (s : State) : (resetUnit s).pck = pckReset := rfl
@[simp] theorem resetUnit_inputs (s : State) : (resetUnit s).inputs = s.inputs := rfl
@[simp] theorem resetUnit_resps (s : State) : (resetUnit s).resps = s.resps := rfl

/-! ### `latchError` -/

@[simp] theorem latchError_cfg (k : Kind) (s : State) : (latchError k s).cfg = s.cfg := by cases k <;> rfl
@[simp] theorem latchError_buf (k : Kind) (s : State) : (latchError k s).buf = s.buf := by cases k <;> rfl
@[simp] theorem latchError_inputs (k : Kind) (s : State) : (latchError k s).inputs = s.inputs := by cases k <;> rfl
@[simp] theorem latchError_resps (k : Kind) (s : State) : (latchError k s).resps = s.resps := by cases k <;> rfl

theorem latchError_b58 (k : Kind) (s : State) (h : kindBlock k = .b58) :
    latchError k s = { s with b58 := { s.b58 with err := kindCode k, phase := .error } } := by
  cases k <;> first | rfl | simp [kindBlock] at h

theorem latchError_rgp (k : Kind) (s : State) (h : kindBlock k = .rgp) :
    latchError k s = { s with rgp := { s.rgp with err := kindCode k, phase := .error } } := by
  cases k <;> first | rfl | simp [kindBlock] at h

theorem latchError_pck (k : Kind) (s : State) (h : kindBlock k = .pck) :
    latchError k s = { s with pck := { s.pck with err := kindCode k, phase := .error } } := by
  cases k <;> first | rfl | simp [kindBlock] at h

/-! ### The command port -/

@[simp] theorem presentNext_inputs (w : CmdWord) (s : State) : (presentNext w s).inputs = .command w :: s.inputs := rfl
@[simp] theorem State.present_inputs (s : State) (ws : List CmdWord) : (s.present ws).inputs = ws.map .command := rfl
@[simp] theorem State.present_resps (s : State) (ws : List CmdWord) : (s.present ws).resps = s.resps := rfl
@[simp] theorem State.present_cfg (s : State) (ws : List CmdWord) : (s.present ws).cfg = s.cfg := rfl
@[simp] theorem State.present_b58 (s : State) (ws : List CmdWord) : (s.present ws).b58 = s.b58 := rfl
@[simp] theorem State.present_buf (s : State) (ws : List CmdWord) : (s.present ws).buf = s.buf := rfl
@[simp] theorem State.present_rgp (s : State) (ws : List CmdWord) : (s.present ws).rgp = s.rgp := rfl
@[simp] theorem State.present_pck (s : State) (ws : List CmdWord) : (s.present ws).pck = s.pck := rfl

/-! ### The answers -/

theorem respond_eq (data : List Byte) (s : State) : respond data s = .next (s.say (respWord 0 data)) := rfl
theorem refuseSeq_eq (s : State) : refuseSeq s = .next (s.say (respWord seqCode [])) := rfl
theorem refuseIllegal_eq (s : State) : refuseIllegal s = .next (s.say (respWord illegalCode [])) := rfl
theorem raise_eq (k : Kind) (s : State) : raise k s = .next ((latchError k s).say (respWord (kindCode k) [])) := rfl

theorem whenAccepted_of_accepts (i : Instr) (s : State) (body : Result) (h : accepts s i = true) :
    whenAccepted i s body = body := if_pos h

theorem whenAccepted_of_not_accepts (i : Instr) (s : State) (body : Result) (h : accepts s i = false) :
    whenAccepted i s body = refuseSeq s := by simp [whenAccepted, h]

/-- All an accepted-or-refused command can answer. -/
theorem whenAccepted_cases (i : Instr) (s : State) (body : Result) :
    (accepts s i = true ∧ whenAccepted i s body = body) ∨
      (accepts s i = false ∧ whenAccepted i s body = refuseSeq s) := by
  cases h : accepts s i
  · exact .inr ⟨rfl, whenAccepted_of_not_accepts i s body h⟩
  · exact .inl ⟨rfl, whenAccepted_of_accepts i s body h⟩

end Sys2Proof.Machine
end

