-- ==== Sys2Proof/Laws/Exec.lean ====
section
/-! SUPPORT. What each meaning can answer, said once: the provers cite these and do not unfold a meaning. -/

namespace Sys2Proof.Machine

/-! ### The acceptance checks, phase by phase (60_exceptions.md R155) -/

theorem execB58Push_of_not_active (v : Byte) (s : State) (h : s.b58.phase ≠ .active) :
    execB58Push v s = refuseSeq s := by simp [execB58Push, whenAccepted, accepts, h]

theorem execB58Push_of_active (v : Byte) (s : State) (h : s.b58.phase = .active) :
    execB58Push v s =
      match b58Unit s.b58.mode v with
      | none => raise .invalidCharacter s
      | some u => b58PushUnit u s :=
  whenAccepted_of_accepts _ _ _ (by simp [accepts, h])

theorem execB58Fin_of_not_active (s : State) (h : s.b58.phase ≠ .active) :
    execB58Fin s = refuseSeq s := by simp [execB58Fin, whenAccepted, accepts, h]

theorem execB58Fin_of_active (s : State) (h : s.b58.phase = .active) :
    execB58Fin s =
      if s.b58.mode = .dec ∧ (s.b58.ovf = true ∨ b58OutLen s.b58 ≠ b58DecLen) then raise .invalidLength s
      else
        respond [BitVec.ofNat 8 (b58OutLen s.b58)]
          { s with b58 := { s.b58 with phase := .drain, rptr := 0 } } := by
  simp [execB58Fin, whenAccepted, accepts, h]

theorem execB58Pop_of_not_drain (s : State) (h : s.b58.phase ≠ .drain) :
    execB58Pop s = refuseSeq s := by simp [execB58Pop, whenAccepted, accepts, h]

theorem execB58Pop_of_drain (s : State) (h : s.b58.phase = .drain) :
    execB58Pop s =
      if b58OutLen s.b58 ≤ s.b58.rptr.toNat then respond [] s
      else
        match b58PopDigit s with
        | .error f => .fault f
        | .ok d =>
          match b58OutUnit s.b58.mode d with
          | none => .fault .alphaRange
          | some c => respond [c] { s with b58 := { s.b58 with rptr := s.b58.rptr + 1 } } :=
  whenAccepted_of_accepts _ _ _ (by simp [accepts, h])

theorem execRgpPush8_of_not (v : Byte) (s : State) (h : ¬(s.rgp.phase = .active ∧ s.rgp.dir = .eightToFive)) :
    execRgpPush8 v s = refuseSeq s := by simp [execRgpPush8, whenAccepted, accepts, h]

theorem execRgpPush8_of (v : Byte) (s : State) (h : s.rgp.phase = .active) (hd : s.rgp.dir = .eightToFive) :
    execRgpPush8 v s = rgpPush v.toNat 8 5 s := by simp [execRgpPush8, whenAccepted, accepts, h, hd, fromWidth, toWidth]

theorem execRgpPush5_of_not (g : Group) (s : State) (h : ¬(s.rgp.phase = .active ∧ s.rgp.dir = .fiveToEight)) :
    execRgpPush5 g s = refuseSeq s := by simp [execRgpPush5, whenAccepted, accepts, h]

theorem execRgpPush5_of (g : Group) (s : State) (h : s.rgp.phase = .active) (hd : s.rgp.dir = .fiveToEight) :
    execRgpPush5 g s = rgpPush g.toNat 5 8 s := by simp [execRgpPush5, whenAccepted, accepts, h, hd, fromWidth, toWidth]

theorem execRgpFlush_of_not_active (p : Bool) (s : State) (h : s.rgp.phase ≠ .active) :
    execRgpFlush p s = refuseSeq s := by simp [execRgpFlush, whenAccepted, accepts, h]

theorem execRgpFlush_of_active (p : Bool) (s : State) (h : s.rgp.phase = .active) :
    execRgpFlush p s =
      if p then rgpClose (rgpPadded s.rgp) s
      else if rgpBadTail s.cfg s.rgp then raise .invalidPadding s
      else rgpClose [] s := by simp [execRgpFlush, whenAccepted, accepts, h]

theorem execPckPfx_of_not_active (c : Byte) (s : State) (h : s.pck.phase ≠ .active) :
    execPckPfx c s = refuseSeq s := by simp [execPckPfx, whenAccepted, accepts, h]

theorem execPckPfx_of_active (c : Byte) (s : State) (h : s.pck.phase = .active) :
    execPckPfx c s = pckAbsorb (pfxGroup c) s := by simp [execPckPfx, whenAccepted, accepts, h]

theorem execPckGrp_of_not_active (g : Group) (s : State) (h : s.pck.phase ≠ .active) :
    execPckGrp g s = refuseSeq s := by simp [execPckGrp, whenAccepted, accepts, h]

theorem execPckGrp_of_active (g : Group) (s : State) (h : s.pck.phase = .active) :
    execPckGrp g s = pckAbsorb g s := by simp [execPckGrp, whenAccepted, accepts, h]

theorem execPckRdsym_of_not_active (k : BitVec 3) (s : State) (h : s.pck.phase ≠ .active) :
    execPckRdsym k s = refuseSeq s := by simp [execPckRdsym, whenAccepted, accepts, h]

theorem execPckRdsym_of_active (k : BitVec 3) (s : State) (h : s.pck.phase = .active) :
    execPckRdsym k s = respond [symbolAt (pckResult s.cfg s.pck) k.toNat] s := by
  simp [execPckRdsym, whenAccepted, accepts, h]

theorem execPckVerify_of_not_active (s : State) (h : s.pck.phase ≠ .active) :
    execPckVerify s = refuseSeq s := by simp [execPckVerify, whenAccepted, accepts, h]

theorem execPckVerify_of_active (s : State) (h : s.pck.phase = .active) :
    execPckVerify s =
      if pckResult s.cfg s.pck ≠ 0 then raise .checksumMismatch s else respond [] s := by
  simp [execPckVerify, whenAccepted, accepts, h]

/-! ### `B58.PUSH` and `B58.POP`, the two commands that touch the buffer -/

/-- All that `B58Absorb` can answer (41_base58.md R93). -/
theorem b58Absorb_cases (cap : Nat) (b : B58Rec) (cells : List Nat) (u : Nat) :
    let lead := b.leading && u == 0
    let lz := if lead then b.lz.toNat + 1 else b.lz.toNat
    let cs := if lead then cells else absorbCells (fromRadix b.mode) (toRadix b.mode) cells u
    b58Absorb cap b cells u = if lz + cs.length > cap then none else some ⟨lead, lz, cs⟩ := by
  cases h : b.leading && u == 0 <;> simp [b58Absorb, h]

/-- All that a commit can answer (41_base58.md R96): the new cells are stored and the three fields follow. -/
theorem b58Commit_cases (r : Absorbed) (s t : State) (h : b58Commit r s = .next t) :
    ∃ m, writeCells s.cfg.cap s.buf 0 (r.cells.map (BitVec.ofNat 8)) = .ok m ∧
      t = State.say { s with
        b58 := { s.b58 with
          leading := r.lead
          lz := BitVec.ofNat 8 r.lz
          blen := BitVec.ofNat 8 r.cells.length }
        buf := m } (respWord 0 []) := by
  unfold b58Commit at h
  split at h
  · simp at h
  · rename_i m hm
    refine ⟨m, hm, ?_⟩
    simpa [respond] using h.symm

/-- All that an accepted `B58.PUSH` of the unit `u` can answer (41_base58.md R96). -/
theorem b58PushUnit_cases (u : Nat) (s t : State) (h : b58PushUnit u s = .next t) :
    (s.b58.ovf = true ∧ t = s.say (respWord 0 [])) ∨
    (s.b58.ovf = false ∧ ∃ cells, readCells s.cfg.cap s.buf 0 s.b58.blen.toNat = .ok cells ∧
      ((b58Absorb s.cfg.cap s.b58 (cells.map BitVec.toNat) u = none ∧ s.b58.mode = .enc ∧
          t = (latchError .eCapacity s).say (respWord 0xC [])) ∨
       (b58Absorb s.cfg.cap s.b58 (cells.map BitVec.toNat) u = none ∧ s.b58.mode = .dec ∧
          t = State.say { s with b58 := { s.b58 with ovf := true } } (respWord 0 [])) ∨
       ∃ r, b58Absorb s.cfg.cap s.b58 (cells.map BitVec.toNat) u = some r ∧ b58Commit r s = .next t)) := by
  unfold b58PushUnit at h
  split at h
  · rename_i ho
    exact .inl ⟨ho, by simpa [respond] using h.symm⟩
  · rename_i ho
    refine .inr ⟨by simpa using ho, ?_⟩
    split at h
    · simp at h
    · rename_i cells hc
      refine ⟨cells, hc, ?_⟩
      split at h
      · rename_i ha
        unfold b58Overflow at h
        split at h
        · rename_i hm
          exact .inl ⟨ha, hm, by simpa [raise, kindCode] using h.symm⟩
        · rename_i hm
          exact .inr (.inl ⟨ha, hm, by simpa [respond] using h.symm⟩)
      · rename_i r ha
        exact .inr (.inr ⟨r, ha, h⟩)

/-- All that `B58.POP` can answer in DRAIN (41_base58.md R98). -/
theorem execB58Pop_cases (s t : State) (hd : s.b58.phase = .drain) (h : execB58Pop s = .next t) :
    (b58OutLen s.b58 ≤ s.b58.rptr.toNat ∧ t = s.say (respWord 0 [])) ∨
    (s.b58.rptr.toNat < b58OutLen s.b58 ∧ ∃ d c, b58PopDigit s = .ok d ∧ b58OutUnit s.b58.mode d = some c ∧
      t = State.say { s with b58 := { s.b58 with rptr := s.b58.rptr + 1 } } (respWord 0 [c])) := by
  rw [execB58Pop_of_drain s hd] at h
  split at h
  · rename_i hl
    exact .inl ⟨hl, by simpa [respond] using h.symm⟩
  · rename_i hl
    refine .inr ⟨by omega, ?_⟩
    split at h
    · simp at h
    · rename_i d hdg
      split at h
      · simp at h
      · rename_i c hc
        exact ⟨d, c, hdg, hc, by simpa [respond] using h.symm⟩

/-- All that reading the digit `B58.POP` delivers can answer (41_base58.md R98). -/
theorem b58PopDigit_ok (s : State) (d : Byte) :
    b58PopDigit s = .ok d ↔
      (s.b58.rptr.toNat < s.b58.lz.toNat ∧ d = 0) ∨
      (s.b58.lz.toNat ≤ s.b58.rptr.toNat ∧
        s.b58.blen.toNat - 1 - (s.b58.rptr.toNat - s.b58.lz.toNat) < s.cfg.cap ∧
        Memory.get (s.b58.blen.toNat - 1 - (s.b58.rptr.toNat - s.b58.lz.toNat)) s.buf = some d) := by
  unfold b58PopDigit
  split
  · rename_i h
    rw [Except.ok.injEq]
    exact ⟨fun e => .inl ⟨h, e.symm⟩, fun e => e.elim (fun e => e.2.symm) (fun e => absurd e.1 (by omega))⟩
  · rename_i h
    rw [readCell_ok]
    exact ⟨fun e => .inr ⟨by omega, e⟩, fun e => e.elim (fun e => absurd e.1 h) (fun e => e.2)⟩

end Sys2Proof.Machine
end

