-- ==== Sys2Proof/Laws/B58Step.lean ====
section
/-! SUPPORT. `B58.PUSH` under the invariants of 10_state.md R28: what it reads, and all it can answer. -/

namespace Sys2Proof.Machine

theorem fromRadix_pos (m : Mode) : 0 < fromRadix m := by cases m <;> decide
theorem two_le_toRadix (m : Mode) : 2 ≤ toRadix m := by cases m <;> decide
theorem toRadix_le (m : Mode) : toRadix m ≤ 256 := by cases m <;> decide

/-- Under the invariants the significant cells can be read, and they are the digits of `VAL` in the output radix, least
significant first, with no leading zero digit (10_state.md R24, R28). -/
theorem readCells_of_inv (s : State) (h : Inv s) (hb : b58Busy s) :
    ∃ vs, readCells s.cfg.cap s.buf 0 s.b58.blen.toNat = .ok vs ∧ vs.map BitVec.toNat = b58Cells s ∧
      b58Cells s = Nat.digits (toRadix s.b58.mode) (b58Value s) := by
  obtain ⟨hl, hbuf, hc, hcell, -⟩ := h
  obtain ⟨h1, h2⟩ := hcell hb
  obtain ⟨vs, hvs⟩ := readCells_total s.cfg.cap s.buf 0 s.b58.blen.toNat (by have := hc.1; omega) (fun i hi => by
    have := h1 i hi
    unfold cellGood at this
    rw [Nat.zero_add]
    cases hg : Memory.get i s.buf with
    | none => simp [hg] at this
    | some v => exact ⟨v, rfl⟩)
  have hv := (readCells_ok ..).1 hvs
  have he : vs.map BitVec.toNat = b58Cells s := by
    refine List.ext_getElem (by simp [b58Cells, hv.1]) (fun i a b => ?_)
    have := (hv.2 i (by simpa using a)).2
    rw [Nat.zero_add] at this
    simp [b58Cells, this]
  refine ⟨vs, hvs, he, ?_⟩
  unfold b58Value
  rw [Nat.digits_ofDigits _ (by have := two_le_toRadix s.b58.mode; omega)]
  · intro d hd
    simp only [b58Cells, List.mem_map, List.mem_range] at hd
    obtain ⟨i, hi, rfl⟩ := hd
    have := h1 i hi
    unfold cellGood at this
    cases hg : Memory.get i s.buf with
    | none => simp [hg] at this
    | some v =>
      simp only [hg] at this
      cases hm : s.b58.mode with
      | enc => simp [hm] at this; exact this
      | dec => exact v.isLt
  · intro hne
    have hn : 0 < s.b58.blen.toNat := by
      rcases Nat.eq_zero_or_pos s.b58.blen.toNat with h0 | h0
      · simp [b58Cells, h0] at hne
      · exact h0
    have h3 := h2 hn
    have h4 := h1 (s.b58.blen.toNat - 1) (by omega)
    rw [List.getLast_eq_getElem]
    simp only [b58Cells, List.getElem_map, List.getElem_range, List.length_map, List.length_range]
    unfold cellGood at h4
    cases hg : Memory.get (s.b58.blen.toNat - 1) s.buf with
    | none => simp [hg] at h4
    | some v =>
      intro h0
      apply h3; rw [hg]
      simp at h0; rw [show v = 0 from BitVec.eq_of_toNat_eq (by simpa using h0)]

/-- The leading run stays open under the unit `u` (41_base58.md R93). -/
def unitLead (s : State) (u : Nat) : Bool := s.b58.leading && u == 0

/-- All that an accepted push of the unit `u` can answer under the invariants while `OVF` is 0 (41_base58.md R93, R96): the
overflow if the number has no room, else the number times `FROM` plus `u`, digit by digit. -/
theorem b58PushUnit_of_inv (s : State) (u : Nat) (h : Inv s) (hb : s.b58.phase = .active) (ho : s.b58.ovf = false) :
    let value := b58Value s * fromRadix s.b58.mode + u
    let n := (Nat.digits (toRadix s.b58.mode) value).length
    let lz := s.b58.lz.toNat + (if unitLead s u = true then 1 else 0)
    (s.cfg.cap < lz + n → b58PushUnit u s = b58Overflow s) ∧
    (lz + n ≤ s.cfg.cap → ∃ m, b58PushUnit u s = respond [] { s with
        b58 := { s.b58 with leading := unitLead s u, lz := BitVec.ofNat 8 lz, blen := BitVec.ofNat 8 n }, buf := m } ∧
      (∀ i, i < n → Memory.get i m = some (BitVec.ofNat 8 (value / toRadix s.b58.mode ^ i % toRadix s.b58.mode))) ∧
      (∀ a, n ≤ a → Memory.get a m = Memory.get a s.buf) ∧ (Memory.wf m) ∧ ∀ x ∈ m, x.1 < s.cfg.cap) := by
  obtain ⟨vs, hvs, he, hd⟩ := readCells_of_inv s h (.inl hb)
  intro value n lz
  have ha := b58Absorb_cases s.cfg.cap s.b58 (vs.map BitVec.toNat) u
  simp only at ha
  have hz : unitLead s u = true → b58Value s = 0 ∧ u = 0 ∧ b58Cells s = [] := by
    intro hl
    simp only [unitLead, Bool.and_eq_true, beq_iff_eq] at hl
    have := h.2.2.2.2.1.1 hl.1
    simp [b58Value, b58Cells, this, hl.2]
  have hcs : (if (s.b58.leading && u == 0) = true then vs.map BitVec.toNat
      else absorbCells (fromRadix s.b58.mode) (toRadix s.b58.mode) (vs.map BitVec.toNat) u) =
        Nat.digits (toRadix s.b58.mode) value := by
    split
    · rename_i hl
      obtain ⟨a, b, c⟩ := hz hl
      simp [value, a, b, he, c]
    · rw [he, hd, absorbCells_digits _ _ (fromRadix_pos _) (two_le_toRadix _)]
  have hlz : (if (s.b58.leading && u == 0) = true then s.b58.lz.toNat + 1 else s.b58.lz.toNat) = lz := by
    simp only [lz, unitLead]; split <;> rename_i hx <;> simp [hx]
  rw [hcs, hlz] at ha
  constructor
  · intro hlt
    rw [if_pos (by exact hlt)] at ha
    simp [b58PushUnit, ho, hvs, ha]
  · intro hle
    rw [if_neg (by show ¬ s.cfg.cap < lz + n; omega)] at ha
    obtain ⟨m, hm⟩ := writeCells_total s.cfg.cap s.buf 0
      ((Nat.digits (toRadix s.b58.mode) value).map (BitVec.ofNat 8)) (by simp; show n ≤ _; omega)
    obtain ⟨w1, w2, w3, w4⟩ := writeCells_ok _ _ _ _ _ hm
    refine ⟨m, ?_, ?_, ?_, w3 h.2.1.1, ?_⟩
    · simp [b58PushUnit, ho, hvs, ha, b58Commit, hm, unitLead, n]
    · intro i hi
      have := w1 i (by simpa using hi)
      rw [Nat.zero_add] at this
      rw [this]
      simp only [List.getElem_map, Option.some.injEq]
      congr 1
      have h2 := Nat.getD_digits value i (two_le_toRadix s.b58.mode)
      rw [← h2, List.getD_eq_getElem?_getD, List.getElem?_eq_getElem hi]; rfl
    · intro a ha'
      exact w2 a (.inr (by simpa using ha'))
    · intro x hx
      rcases w4 x hx with hx | hx
      · exact h.2.1.2 x hx
      · exact hx

end Sys2Proof.Machine
end

