-- ==== Sys2Proof/Laws/Checksum.lean ====
section
/-! SUPPORT. The polymod step (43_checksum.md R129) bit by bit, and the symbols of a 40-bit value (R126, R132). -/

namespace Sys2Proof.Machine

/-- A constant taken only if its bit is set (43_checksum.md R129). -/
def pickGen (b : Bool) (g : Csum) : Csum := if b then g else 0

@[simp] theorem pickGen_false (g : Csum) : pickGen false g = 0 := rfl
@[simp] theorem pickGen_true (g : Csum) : pickGen true g = g := rfl

/-- The loop of 43_checksum.md R129, its five turns written out. -/
theorem xorGens_eq (gen : Vector Csum 5) (c0 : BitVec 5) (c1 : Csum) :
    xorGens gen c0 c1 =
      c1 ^^^ pickGen (c0.getLsbD 0) gen[0] ^^^ pickGen (c0.getLsbD 1) gen[1] ^^^ pickGen (c0.getLsbD 2) gen[2] ^^^
        pickGen (c0.getLsbD 3) gen[3] ^^^ pickGen (c0.getLsbD 4) gen[4] := by
  have step : ∀ (b : Bool) (c g : Csum), (if b then c ^^^ g else c) = c ^^^ pickGen b g := by
    intro b c g; cases b <;> simp
  simp only [xorGens, List.foldl_cons, List.foldl_nil, step]
  rfl

/-- The step's five high bits, one by one: bit `i` of `c0` is bit `35 + i` of the old state. -/
theorem pckStep_eq (gen : Vector Csum 5) (c : Csum) (d : Group) :
    pckStep gen c d =
      ((c.extractLsb' 0 35 ++ (0 : BitVec 5)) ^^^ d.setWidth 40) ^^^ pickGen (c.getLsbD 35) gen[0] ^^^
        pickGen (c.getLsbD 36) gen[1] ^^^ pickGen (c.getLsbD 37) gen[2] ^^^ pickGen (c.getLsbD 38) gen[3] ^^^
        pickGen (c.getLsbD 39) gen[4] := by
  simp [pckStep, xorGens_eq]

theorem polymodRaw_nil (c : Config) : polymodRaw c [] = c.init := rfl

/-- 43_checksum.md R125, the second equation. -/
theorem polymodRaw_snoc (c : Config) (gs : List Group) (d : Group) :
    polymodRaw c (gs ++ [d]) = pckStep c.gen (polymodRaw c gs) d := by simp [polymodRaw]

theorem polymodRaw_append (c : Config) (gs hs : List Group) :
    polymodRaw c (gs ++ hs) = hs.foldl (pckStep c.gen) (polymodRaw c gs) := by simp [polymodRaw]

end Sys2Proof.Machine
end

