-- ==== Sys2Proof/Laws/PerInstr.lean ====
section
/-! SUPPORT. Per-instruction laws: the encoded word against the instruction's row of spec/opcode_table.json
(30_encoding.md R74). -/

namespace Sys2Proof.Laws

/-- The `match` and `mask` columns of 30_encoding.md R74, row by row. -/
def rowOf : Instr → CmdWord × CmdWord
  | .nop => (0x0000, 0xFFFF)
  | .rdsr _ => (0x0100, 0xFF00)
  | .srst => (0x0F00, 0xFFFF)
  | .b58Init _ => (0x1000, 0xFFFE)
  | .b58Push _ => (0x1100, 0xFF00)
  | .b58Fin => (0x1200, 0xFFFF)
  | .b58Pop => (0x1300, 0xFFFF)
  | .rgpInit _ => (0x2000, 0xFFFE)
  | .rgpPush8 _ => (0x2100, 0xFF00)
  | .rgpPush5 _ => (0x2200, 0xFFE0)
  | .rgpFlush _ => (0x2300, 0xFFFE)
  | .pckInit => (0x3000, 0xFFFF)
  | .pckPfx _ => (0x3100, 0xFF00)
  | .pckGrp _ => (0x3200, 0xFFE0)
  | .pckRdsym _ => (0x3300, 0xFFF8)
  | .pckVerify => (0x3400, 0xFFFF)

/-- The encoded word of a legal instruction has its row's fixed bits. -/
def EncodeRow.Statement (i : Instr) : Prop :=
  i.wf = true → encode i &&& (rowOf i).2 = (rowOf i).1

theorem EncodeRow.nop : EncodeRow.Statement .nop := fun _ => by decide
theorem EncodeRow.rdsr (n : Byte) : EncodeRow.Statement (.rdsr n) := by
  revert n; unfold EncodeRow.Statement; decide +kernel
theorem EncodeRow.srst : EncodeRow.Statement .srst := fun _ => by decide
theorem EncodeRow.b58Init (m : Mode) : EncodeRow.Statement (.b58Init m) := by
  intro _; cases m <;> decide
theorem EncodeRow.b58Push (v : Byte) : EncodeRow.Statement (.b58Push v) := by
  revert v; unfold EncodeRow.Statement; decide +kernel
theorem EncodeRow.b58Fin : EncodeRow.Statement .b58Fin := fun _ => by decide
theorem EncodeRow.b58Pop : EncodeRow.Statement .b58Pop := fun _ => by decide
theorem EncodeRow.rgpInit (d : Dir) : EncodeRow.Statement (.rgpInit d) := by
  intro _; cases d <;> decide
theorem EncodeRow.rgpPush8 (v : Byte) : EncodeRow.Statement (.rgpPush8 v) := by
  revert v; unfold EncodeRow.Statement; decide +kernel
theorem EncodeRow.rgpPush5 (g : Group) : EncodeRow.Statement (.rgpPush5 g) := by
  revert g; unfold EncodeRow.Statement; decide +kernel
theorem EncodeRow.rgpFlush (p : Bool) : EncodeRow.Statement (.rgpFlush p) := by
  intro _; cases p <;> decide
theorem EncodeRow.pckInit : EncodeRow.Statement .pckInit := fun _ => by decide
theorem EncodeRow.pckPfx (c : Byte) : EncodeRow.Statement (.pckPfx c) := by
  revert c; unfold EncodeRow.Statement; decide +kernel
theorem EncodeRow.pckGrp (g : Group) : EncodeRow.Statement (.pckGrp g) := by
  revert g; unfold EncodeRow.Statement; decide +kernel
theorem EncodeRow.pckRdsym (k : BitVec 3) : EncodeRow.Statement (.pckRdsym k) := by
  revert k; unfold EncodeRow.Statement; decide +kernel
theorem EncodeRow.pckVerify : EncodeRow.Statement .pckVerify := fun _ => by decide

end Sys2Proof.Laws
end

