-- ==== Sys2Proof/Laws/Regroup.lean ====
section
/-! SUPPORT. Bit streams (42_regrouper.md R110, R112): groups as bits and back, and what the streaming step's loop cuts. -/

namespace Sys2Proof.Machine

@[simp] theorem groupBits_length (w g : Nat) : (groupBits w g).length = w := by simp [groupBits]

theorem groupBits_getElem (w g i : Nat) (h : i < (groupBits w g).length) :
    (groupBits w g)[i] = g.testBit (w - 1 - i) := by simp [groupBits]

theorem streamBits_nil (w : Nat) : streamBits w [] = [] := rfl

theorem streamBits_cons (w g : Nat) (gs : List Nat) : streamBits w (g :: gs) = groupBits w g ++ streamBits w gs := rfl

theorem streamBits_append (w : Nat) (gs hs : List Nat) :
    streamBits w (gs ++ hs) = streamBits w gs ++ streamBits w hs := by simp [streamBits]

theorem streamBits_length (w : Nat) (gs : List Nat) : (streamBits w gs).length = w * gs.length := by
  induction gs with
  | nil => rfl
  | cons g gs ih => simp [streamBits_cons, ih, Nat.mul_succ, Nat.add_comm]

/-- Two groups side by side are one wider group. -/
theorem groupBits_append (m n x y : Nat) (hy : y < 2 ^ n) :
    groupBits m x ++ groupBits n y = groupBits (m + n) (x * 2 ^ n + y) := by
  refine List.ext_getElem (by simp) (fun i h1 h2 => ?_)
  simp only [List.length_append, groupBits_length] at h1
  rw [groupBits_getElem, Nat.mul_comm, Nat.testBit_two_pow_mul_add _ hy]
  by_cases hi : i < m
  · rw [List.getElem_append_left (by simpa using hi), groupBits_getElem, if_neg (by omega)]
    congr 1
    omega
  · rw [List.getElem_append_right (by simpa using hi), groupBits_getElem, if_pos (by omega)]
    congr 1
    simp only [groupBits_length]
    omega

theorem bitsValue_cons (b : Bool) (bs : List Bool) :
    bitsValue (b :: bs) = b.toNat * 2 ^ bs.length + bitsValue bs := by
  have key : ∀ (l : List Bool) (v : Nat),
      l.foldl (fun v b => 2 * v + b.toNat) v = v * 2 ^ l.length + bitsValue l := by
    intro l
    induction l with
    | nil => intro v; simp [bitsValue]
    | cons c l ih =>
      intro v
      have h1 := ih (2 * v + c.toNat)
      have h2 := ih (2 * 0 + c.toNat)
      simp only [bitsValue, List.foldl_cons, List.length_cons] at h1 h2 ⊢
      rw [h1, h2, pow_succ]
      ring
  have := key bs (2 * 0 + b.toNat)
  simpa [bitsValue] using this

theorem bitsValue_lt (bs : List Bool) : bitsValue bs < 2 ^ bs.length := by
  induction bs with
  | nil => simp [bitsValue]
  | cons b bs ih =>
    rw [bitsValue_cons, List.length_cons, pow_succ]
    have : b.toNat ≤ 1 := by cases b <;> simp
    have := Nat.mul_le_mul_right (2 ^ bs.length) this
    omega

/-- A bit sequence is the bits of its value. -/
theorem groupBits_bitsValue (bs : List Bool) : groupBits bs.length (bitsValue bs) = bs := by
  induction bs with
  | nil => rfl
  | cons b bs ih =>
    have h := groupBits_append 1 bs.length b.toNat (bitsValue bs) (bitsValue_lt bs)
    rw [bitsValue_cons, List.length_cons, Nat.add_comm, ← h, ih]
    cases b <;> simp [groupBits]

/-- The value of a group's bits is the group. -/
theorem bitsValue_groupBits (w g : Nat) (h : g < 2 ^ w) : bitsValue (groupBits w g) = g := by
  have hb := groupBits_bitsValue (groupBits w g)
  have hl := bitsValue_lt (groupBits w g)
  rw [groupBits_length] at hb hl
  refine Nat.eq_of_testBit_eq (fun i => ?_)
  by_cases hi : i < w
  · have hg := groupBits_getElem w g (w - 1 - i) (by simp; omega)
    have hv := groupBits_getElem w (bitsValue (groupBits w g)) (w - 1 - i) (by simp; omega)
    have he : w - 1 - (w - 1 - i) = i := by omega
    rw [he] at hg hv
    rw [← hg, ← hv]
    simp [hb]
  · have hp : 2 ^ w ≤ 2 ^ i := Nat.pow_le_pow_right (by omega) (by omega)
    rw [Nat.testBit_lt_two_pow (Nat.lt_of_lt_of_le hl hp), Nat.testBit_lt_two_pow (Nat.lt_of_lt_of_le h hp)]

/-- The masks and shifts of 42_regrouper.md R112 as division and remainder. -/
theorem cutGroups_succ (w turns a n : Nat) (h : w ≤ n) :
    cutGroups w (turns + 1) a n =
      ⟨a / 2 ^ (n - w) % 2 ^ w :: (cutGroups w turns (a % 2 ^ (n - w)) (n - w)).out,
        (cutGroups w turns (a % 2 ^ (n - w)) (n - w)).acc, (cutGroups w turns (a % 2 ^ (n - w)) (n - w)).nbits⟩ := by
  simp only [cutGroups, if_neg (Nat.not_lt.2 h), Nat.shiftRight_eq_div_pow, Nat.and_two_pow_sub_one_eq_mod]

/-- All the loop of 42_regrouper.md R112 does: the stream is cut into whole groups and fewer than `w` bits that stay. -/
theorem cutGroups_spec (w : Nat) (hw : 0 < w) (turns a n : Nat) (ht : n ≤ turns) (ha : a < 2 ^ n) :
    groupBits n a = streamBits w (cutGroups w turns a n).out ++
        groupBits (cutGroups w turns a n).nbits (cutGroups w turns a n).acc ∧
      (cutGroups w turns a n).nbits = n % w ∧
      (cutGroups w turns a n).acc < 2 ^ (cutGroups w turns a n).nbits ∧
      (cutGroups w turns a n).out.length = n / w ∧
      ∀ g ∈ (cutGroups w turns a n).out, g < 2 ^ w := by
  induction turns generalizing a n with
  | zero =>
    obtain rfl : n = 0 := by omega
    obtain rfl : a = 0 := by simpa using ha
    simp [cutGroups, streamBits_nil]
  | succ turns ih =>
    by_cases hn : n < w
    · simp [cutGroups, hn, streamBits_nil, ha, Nat.mod_eq_of_lt, Nat.div_eq_of_lt]
    · have hn' : w ≤ n := Nat.le_of_not_lt hn
      obtain ⟨h1, h2, h3, h4, h5⟩ := ih (a % 2 ^ (n - w)) (n - w) (by omega) (Nat.mod_lt _ (Nat.two_pow_pos _))
      have hq : a / 2 ^ (n - w) < 2 ^ w := by
        rw [Nat.div_lt_iff_lt_mul (Nat.two_pow_pos _), ← pow_add]
        rwa [show w + (n - w) = n by omega]
      rw [cutGroups_succ w turns a n hn']
      simp only [streamBits_cons, List.append_assoc, ← h1, List.length_cons, List.mem_cons, forall_eq_or_imp]
      refine ⟨?_, ?_, h3, ?_, ?_, h5⟩
      · rw [Nat.mod_eq_of_lt hq, groupBits_append _ _ _ _ (Nat.mod_lt _ (Nat.two_pow_pos _)),
          show w + (n - w) = n by omega]
        congr 1
        rw [Nat.mul_comm]
        exact (Nat.div_add_mod _ _).symm
      · rw [h2, Nat.mod_eq_sub_mod hn']
      · rw [h4, Nat.div_eq_sub_div hw hn']
      · exact Nat.mod_lt _ (Nat.two_pow_pos _)

/-- All that `RgpAbsorb` does (42_regrouper.md R112): the left-over bits followed by the bits of `v` are cut into whole
output groups and fewer than `wout` bits that stay. -/
theorem rgpAbsorb_spec (r : RgpRec) (v win wout : Nat) (hw : 0 < wout) (hv : v < 2 ^ win)
    (ha : r.acc.toNat < 2 ^ r.nbits.toNat) :
    groupBits r.nbits.toNat r.acc.toNat ++ groupBits win v =
        streamBits wout (rgpAbsorb r v win wout).out ++
          groupBits (rgpAbsorb r v win wout).nbits (rgpAbsorb r v win wout).acc ∧
      (rgpAbsorb r v win wout).nbits = (r.nbits.toNat + win) % wout ∧
      (rgpAbsorb r v win wout).acc < 2 ^ (rgpAbsorb r v win wout).nbits ∧
      (rgpAbsorb r v win wout).out.length = (r.nbits.toNat + win) / wout ∧
      ∀ g ∈ (rgpAbsorb r v win wout).out, g < 2 ^ wout := by
  have hs : ((r.acc.toNat <<< win) ||| v) = r.acc.toNat * 2 ^ win + v := by
    rw [← Nat.shiftLeft_add_eq_or_of_lt hv, Nat.shiftLeft_eq]
  have hlt : r.acc.toNat * 2 ^ win + v < 2 ^ (r.nbits.toNat + win) := by
    have h := Nat.mul_le_mul_right (2 ^ win) (Nat.succ_le_of_lt ha)
    rw [Nat.succ_mul] at h
    rw [pow_add]
    omega
  simp only [rgpAbsorb, hs, groupBits_append _ _ _ _ hv]
  exact cutGroups_spec wout hw _ _ _ (Nat.le_refl _) hlt

/-- The whole groups and the tail of a stream that is given as groups and fewer bits than a group. -/
theorem wholeGroups_stream (w : Nat) (hw : 0 < w) (gs : List Nat) (rest : List Bool)
    (hg : ∀ g ∈ gs, g < 2 ^ w) (hr : rest.length < w) :
    wholeGroups w (streamBits w gs ++ rest) = gs ∧ tailBits w (streamBits w gs ++ rest) = rest := by
  have hlen : (streamBits w gs ++ rest).length = w * gs.length + rest.length := by
    rw [List.length_append, streamBits_length]
  have hdiv : (streamBits w gs ++ rest).length / w = gs.length := by
    rw [hlen, Nat.mul_add_div hw, Nat.div_eq_of_lt hr, Nat.add_zero]
  have hdrop : ∀ k, k ≤ gs.length →
      (streamBits w gs ++ rest).drop (k * w) = streamBits w (gs.drop k) ++ rest := by
    intro k hk
    have hs : streamBits w gs = streamBits w (gs.take k) ++ streamBits w (gs.drop k) := by
      rw [← streamBits_append, List.take_append_drop]
    have hl : (streamBits w (gs.take k)).length = k * w := by
      rw [streamBits_length, List.length_take, Nat.min_eq_left hk, Nat.mul_comm]
    rw [hs, List.append_assoc, ← hl, List.drop_left]
  constructor
  · refine List.ext_getElem (by simp only [wholeGroups, List.length_map, List.length_range, hdiv]) (fun k h1 h2 => ?_)
    simp only [wholeGroups, List.getElem_map, List.getElem_range]
    rw [hdrop k (by omega), List.drop_eq_getElem_cons h2, streamBits_cons, List.append_assoc,
      List.take_append_of_le_length (by simp), List.take_of_length_le (by simp)]
    exact bitsValue_groupBits w _ (hg _ (List.getElem_mem h2))
  · rw [tailBits, hdiv, hdrop _ (Nat.le_refl _), List.drop_length]
    rfl

end Sys2Proof.Machine
end

