-- ==== Sys2Proof/Tests/Slice0.lean ====
section
/-! SUPPORT. Tests on single commands, with results from the spec's examples, and for every statement with hypotheses a
witness that meets them. -/

namespace Sys2Proof.Tests

open Sys2Proof.Machine

/-! ### Well-formedness and decoding -/

/-- The one check of `Instr.wf` refuses: a status register that does not exist (10_state.md R29). -/
theorem test_wf_refuses_rdsr_11 : Instr.wf (.rdsr 11) = false := by decide

/-- 30_encoding.md R74: a word of every row, written from its UNIT, FUNC and operand columns. -/
theorem test_decode_sys : decode 0x0000 = .ok .nop ∧ decode 0x0103 = .ok (.rdsr 3) ∧ decode 0x0F00 = .ok .srst := by decide

theorem test_decode_b58 :
    decode 0x1001 = .ok (.b58Init .dec) ∧ decode 0x117A = .ok (.b58Push 0x7A) ∧ decode 0x1200 = .ok .b58Fin ∧
      decode 0x1300 = .ok .b58Pop := by decide

theorem test_decode_rgp :
    decode 0x2000 = .ok (.rgpInit .eightToFive) ∧ decode 0x21FF = .ok (.rgpPush8 0xFF) ∧
      decode 0x221F = .ok (.rgpPush5 31) ∧ decode 0x2301 = .ok (.rgpFlush true) := by decide

theorem test_decode_pck :
    decode 0x3000 = .ok .pckInit ∧ decode 0x3162 = .ok (.pckPfx 0x62) ∧ decode 0x3210 = .ok (.pckGrp 16) ∧
      decode 0x3305 = .ok (.pckRdsym 5) ∧ decode 0x3400 = .ok .pckVerify := by decide

/-- 30_encoding.md R75: one word for each cause. -/
theorem test_decode_illegal :
    decode 0xFFFF = .error .noSuchUnit ∧ decode 0x0200 = .error .noSuchFunc ∧ decode 0x2220 = .error .operandBits ∧
      decode 0x3308 = .error .operandBits ∧ decode 0x01FF = .error .noSuchStatusReg := by decide

/-- 30_encoding.md R77: the spec's own operand forms. -/
theorem test_assemble_line :
    assembleLine "PCK.PFX 'b' ; 0x62".toList = .ok [.pckPfx 0x62] ∧
      assembleLine "RGP.PUSH5 0x1F".toList = .ok [.rgpPush5 31] ∧
      assembleLine "RDSR 11".toList = .error .operandNotLegal := by decide +kernel

/-- 30_encoding.md R78. -/
theorem test_assemble_pseudo :
    assembleLine "PCK.PAD8".toList = .ok (List.replicate 8 (.pckGrp 0)) ∧
      assembleLine "B58.PUSHS \"1z\"".toList = .ok [.b58Push 0x31, .b58Push 0x7A] := by decide +kernel

/-! ### Small states -/

/-- The reset state with another B58 record and buffer. -/
def withB58 (b : B58Rec) (buf : Memory) : State := { State.reset with b58 := b, buf := buf }

/-- The reset state with another RGP record. -/
def withRgp (r : RgpRec) : State := { State.reset with rgp := r }

/-- The reset state with an open frame whose register is `c`. -/
def withPck (c : Csum) : State := { State.reset with pck := ⟨.active, c, 0⟩ }

/-- The state of 41_base58.md R96's example. -/
def encOne : State := withB58 ⟨.active, .enc, false, false, 0, 1, 1, 0⟩ [(0, 1)]

/-- A decoding with one cell. -/
def decOne : State := withB58 ⟨.active, .dec, false, false, 0, 1, 1, 0⟩ [(0, 1)]

/-- A leading run of `n` units in mode `m`. -/
def leadingRunOf (m : Mode) (n : BitVec 8) : State := withB58 ⟨.active, m, true, false, 0, n, 0, 0⟩ []

/-- A decoding that has overflowed. -/
def decOverflowed : State := withB58 ⟨.active, .dec, true, true, 0, 35, 0, 0⟩ []

/-- The state of 41_base58.md R98's example after `n` pops. -/
def draining (n : BitVec 8) : State := withB58 ⟨.drain, .enc, false, false, 0, 1, 2, n⟩ [(0, 0x18), (1, 0x04)]

/-- The three blocks in ERROR. -/
def failed : State :=
  { State.reset with b58 := ⟨.error, .dec, true, false, 2, 0, 0, 0⟩, rgp := ⟨.error, .fiveToEight, 3, 5, 4⟩, pck := ⟨.error, 5, 3⟩ }

/-- The last response of an outcome. -/
def answer (r : Result) : Option RespWord :=
  match r with
  | .next t => t.resps.getLast?
  | .fault _ => none
  | .refused _ => none

/-- What a status register reads after an outcome. -/
def shows (n : Byte) (r : Result) : Option StatusWord :=
  match r with
  | .next t => statusReg t n
  | .fault _ => none
  | .refused _ => none

/-- The buffer after an outcome. -/
def bufAfter (r : Result) : Option Memory :=
  match r with
  | .next t => some t.buf
  | .fault _ => none
  | .refused _ => none

/-! ### One step of each command; the results are those of the examples of the command rules -/

theorem test_nop : answer (exec .nop failed) = some 0x00000000 ∧ shows 7 (exec .nop failed) = some 0x0303 := by decide

theorem test_rdsr_id : answer (exec (.rdsr 0) State.reset) = some 0x00025801 := by decide

theorem test_rdsr_cfg : answer (exec (.rdsr 1) State.reset) = some 0x00020023 := by decide

theorem test_srst : answer (exec .srst failed) = some 0x00000000 ∧ shows 2 (exec .srst failed) = some 0x0000 ∧
    shows 5 (exec .srst failed) = some 0x0000 ∧ shows 8 (exec .srst failed) = some 0x0000 := by decide

theorem test_b58_init : answer (exec (.b58Init .dec) State.reset) = some 0x00000000 ∧
    shows 2 (exec (.b58Init .dec) State.reset) = some 0x000D := by decide

theorem test_b58_push : answer (exec (.b58Push 0x00) encOne) = some 0x00000000 ∧
    bufAfter (exec (.b58Push 0x00) encOne) = some [(0, 0x18), (1, 0x04)] ∧
    shows 3 (exec (.b58Push 0x00) encOne) = some 0x0201 := by decide

theorem test_b58_push_foreign : answer (exec (.b58Push 0x30) decOne) = some 0x10000000 ∧
    shows 2 (exec (.b58Push 0x30) decOne) = some 0x0107 := by decide

theorem test_b58_fin :
    answer (exec .b58Fin (withB58 ⟨.active, .dec, false, false, 0, 1, 24, 0⟩ [])) = some 0x00010019 := by decide

theorem test_b58_fin_length : answer (exec .b58Fin (leadingRunOf .dec 24)) = some 0x20000000 ∧
    shows 2 (exec .b58Fin (leadingRunOf .dec 24)) = some 0x020F := by decide

theorem test_b58_pop : answer (exec .b58Pop (draining 0)) = some 0x00010031 ∧
    answer (exec .b58Pop (draining 1)) = some 0x00010035 := by decide

theorem test_b58_pop_last : answer (exec .b58Pop (draining 2)) = some 0x00010052 ∧
    answer (exec .b58Pop (draining 3)) = some 0x00000000 := by decide

theorem test_rgp_init : answer (exec (.rgpInit .fiveToEight) State.reset) = some 0x00000000 ∧
    shows 5 (exec (.rgpInit .fiveToEight) State.reset) = some 0x0005 := by decide

theorem test_rgp_push8 : answer (exec (.rgpPush8 0x00) (withRgp ⟨.active, .eightToFive, 3, 7, 0⟩)) = some 0x0002001C ∧
    shows 5 (exec (.rgpPush8 0x00) (withRgp ⟨.active, .eightToFive, 3, 7, 0⟩)) = some 0x0009 := by decide

theorem test_rgp_push5 : answer (exec (.rgpPush5 28) (withRgp ⟨.active, .fiveToEight, 5, 31, 0⟩)) = some 0x000100FF ∧
    shows 5 (exec (.rgpPush5 28) (withRgp ⟨.active, .fiveToEight, 5, 31, 0⟩)) = some 0x0015 := by decide

theorem test_rgp_flush_pads :
    answer (exec (.rgpFlush true) (withRgp ⟨.active, .eightToFive, 3, 7, 0⟩)) = some 0x0001001C := by decide

theorem test_rgp_flush_fails : answer (exec (.rgpFlush false) (withRgp ⟨.active, .eightToFive, 3, 7, 0⟩)) = some 0x40000000 ∧
    shows 5 (exec (.rgpFlush false) (withRgp ⟨.active, .eightToFive, 3, 7, 0⟩)) = some 0x041B ∧
    shows 6 (exec (.rgpFlush false) (withRgp ⟨.active, .eightToFive, 3, 7, 0⟩)) = some 0x0007 := by decide

theorem test_pck_init : answer (exec .pckInit State.reset) = some 0x00000000 ∧
    shows 7 (exec .pckInit State.reset) = some 0x0001 ∧ shows 8 (exec .pckInit State.reset) = some 0x0001 := by decide

theorem test_pck_pfx : shows 8 (exec (.pckPfx 0x62) (withPck 1)) = some 0x0022 := by decide

theorem test_pck_grp : shows 8 (exec (.pckGrp 0) (withPck 0x0800000000)) = some 0x8E61 ∧
    shows 9 (exec (.pckGrp 0) (withPck 0x0800000000)) = some 0xF2BC ∧
    shows 10 (exec (.pckGrp 0) (withPck 0x0800000000)) = some 0x0098 := by decide

theorem test_pck_rdsym : answer (exec (.pckRdsym 0) (withPck 0xA2752685D7)) = some 0x00010014 ∧
    answer (exec (.pckRdsym 7) (withPck 0xA2752685D7)) = some 0x00010016 := by decide

theorem test_pck_verify : answer (exec .pckVerify (withPck 1)) = some 0x00000000 := by decide

theorem test_pck_verify_fails : answer (exec .pckVerify (withPck 5)) = some 0x30000000 ∧
    shows 7 (exec .pckVerify (withPck 5)) = some 0x0303 := by decide

/-- 60_exceptions.md R155: a `POP` in the reset state. -/
theorem test_out_of_sequence : answer (step (State.reset.withFetchWord 16 0x1300)) = some 0xE0000000 := by decide

/-- 60_exceptions.md R154. -/
theorem test_illegal_word : answer (step (State.reset.withFetchWord 16 0x010B)) = some 0xD0000000 := by decide

/-! ### The invariants on the small states -/

theorem inv_reset : Inv State.reset := by refine ⟨?_, ?_, ?_, ?_, ?_, ?_, ?_, ?_, ?_, ?_⟩ <;> decide

theorem inv_encOne : Inv encOne := by refine ⟨?_, ?_, ?_, ?_, ?_, ?_, ?_, ?_, ?_, ?_⟩ <;> decide

theorem inv_decOne : Inv decOne := by refine ⟨?_, ?_, ?_, ?_, ?_, ?_, ?_, ?_, ?_, ?_⟩ <;> decide

theorem inv_leading_enc_34 : Inv (leadingRunOf .enc 34) := by refine ⟨?_, ?_, ?_, ?_, ?_, ?_, ?_, ?_, ?_, ?_⟩ <;> decide

theorem inv_leading_enc_35 : Inv (leadingRunOf .enc 35) := by refine ⟨?_, ?_, ?_, ?_, ?_, ?_, ?_, ?_, ?_, ?_⟩ <;> decide

theorem inv_leading_dec_34 : Inv (leadingRunOf .dec 34) := by refine ⟨?_, ?_, ?_, ?_, ?_, ?_, ?_, ?_, ?_, ?_⟩ <;> decide

theorem inv_leading_dec_35 : Inv (leadingRunOf .dec 35) := by refine ⟨?_, ?_, ?_, ?_, ?_, ?_, ?_, ?_, ?_, ?_⟩ <;> decide

theorem inv_decOverflowed : Inv decOverflowed := by refine ⟨?_, ?_, ?_, ?_, ?_, ?_, ?_, ?_, ?_, ?_⟩ <;> decide

theorem inv_draining_1 : Inv (draining 1) := by refine ⟨?_, ?_, ?_, ?_, ?_, ?_, ?_, ?_, ?_, ?_⟩ <;> decide

theorem inv_draining_2 : Inv (draining 2) := by refine ⟨?_, ?_, ?_, ?_, ?_, ?_, ?_, ?_, ?_, ?_⟩ <;> decide

/-! ### Witnesses: the hypotheses of each statement can be met -/

theorem witness_DecodeOfEncodeIsTheInstruction : Instr.wf (.rdsr 10) = true := by decide

theorem witness_EncodeOfDecodeIsTheWord : decode 0x010A = .ok (.rdsr 10) := by decide

theorem witness_AssemblerEmitsOnlyLegalInstructions :
    assembleLine "RDSR 10".toList = .ok [.rdsr 10] ∧ Instr.rdsr 10 ∈ [Instr.rdsr 10] := by decide +kernel

theorem witness_ResponseWordHoldsErrCountAndData : ([0x12, 0x34] : List Byte).length ≤ 2 := by decide

theorem witness_StepRunsTheDecodedCommand :
    (State.reset.withFetchWord 16 0x010A).inputs = .command 0x010A :: [] ∧ decode 0x010A = .ok (.rdsr 10) := by decide

theorem witness_StepRefusesIllegalWords :
    (State.reset.withFetchWord 16 0x010B).inputs = .command 0x010B :: [] ∧ ∀ i, decode 0x010B ≠ .ok i :=
  ⟨by decide, fun _ h => (nomatch h)⟩

theorem witness_HardwareResetGivesTheResetState :
    ({ failed with inputs := [.reset] } : State).inputs = .reset :: [] := rfl

theorem witness_RunOfWordsIsTheirCommandsInOrder :
    ∀ i ∈ [Instr.rgpInit .eightToFive, Instr.rgpPush8 0xFF, Instr.rdsr 10], i.wf = true := by decide

theorem witness_ResetStateHoldsTheSpecValues :
    (2 ≤ (2 : Byte).toNat ∧ (10 : Byte).toNat ≤ 10) ∧ (Instr.wf (.rdsr 10) = true ∧ ∃ n, Instr.rdsr 10 = .rdsr n) ∧
      Instr.b58Fin ≠ .nop ∧ (∀ n, Instr.b58Fin ≠ .rdsr n) ∧
      Instr.b58Fin ≠ .srst ∧ (∀ m, Instr.b58Fin ≠ .b58Init m) ∧ (∀ d, Instr.b58Fin ≠ .rgpInit d) ∧
      Instr.b58Fin ≠ .pckInit :=
  ⟨by decide, ⟨by decide, 10, rfl⟩, by decide, fun _ h => (nomatch h), by decide, fun _ h => (nomatch h), fun _ h => (nomatch h), by decide⟩

theorem witness_StepKeepsTheInvariants :
    Inv (encOne.withFetchWord 16 0x1100) ∧ ∃ t, step (encOne.withFetchWord 16 0x1100) = .next t :=
  ⟨inv_encOne, _, rfl⟩

theorem witness_StepNeverFaultsUnderTheInvariants : Inv ((draining 1).withFetchWord 16 0x1300) := inv_draining_1

theorem witness_EveryCommandIsAnsweredOnce :
    Inv (encOne.withFetchWord 16 0x1100) ∧ (encOne.withFetchWord 16 0x1100).inputs = .command 0x1100 :: [] :=
  ⟨inv_encOne, by decide⟩

theorem witness_OutOfSequenceExactlyOutsideTheTable :
    (Instr.wf .b58Pop = true ∧ ¬ acceptedBy .b58Pop encOne) ∧
      (Instr.wf .b58Fin = true ∧ acceptedBy .b58Fin encOne ∧ ∃ t, exec .b58Fin encOne = .next t) :=
  ⟨⟨rfl, fun h => (nomatch h)⟩, rfl, rfl, _, rfl⟩

theorem witness_DataErrorLatchesCodeAndPhaseOnly_b58 :
    ∃ t r, exec (.b58Push 0x30) decOne = .next t ∧ t.resps = decOne.resps ++ [r] ∧ respErr r ∈ [0x1#4, 0x2#4, 0x3#4, 0x4#4, 0xC#4] :=
  ⟨_, _, rfl, rfl, by decide⟩

theorem witness_DataErrorLatchesCodeAndPhaseOnly_rgp :
    ∃ t r, exec (.rgpFlush false) (withRgp ⟨.active, .eightToFive, 3, 7, 0⟩) = .next t ∧ t.resps = [] ++ [r] ∧
      respErr r ∈ [0x1#4, 0x2#4, 0x3#4, 0x4#4, 0xC#4] :=
  ⟨_, _, rfl, rfl, by decide⟩

theorem witness_DataErrorLatchesCodeAndPhaseOnly_pck :
    ∃ t r, exec .pckVerify (withPck 5) = .next t ∧ t.resps = [] ++ [r] ∧ respErr r ∈ [0x1#4, 0x2#4, 0x3#4, 0x4#4, 0xC#4] :=
  ⟨_, _, rfl, rfl, by decide⟩

theorem witness_SourceErrorsHaveExactlyTheirCauses :
    (∃ t r, exec (.b58Push 0x30) decOne = .next t ∧ t.resps = [] ++ [r] ∧ respErr r = 1) ∧
      (∃ t r, exec .b58Fin (leadingRunOf .dec 24) = .next t ∧ t.resps = [] ++ [r] ∧ respErr r = 2) ∧
      (∃ t r, exec .pckVerify (withPck 5) = .next t ∧ t.resps = [] ++ [r] ∧ respErr r = 3) ∧
      (∃ t r, exec (.rgpFlush false) (withRgp ⟨.active, .fiveToEight, 1, 1, 0⟩) = .next t ∧ t.resps = [] ++ [r] ∧
        respErr r = 4) :=
  ⟨⟨_, _, rfl, rfl, by decide⟩, ⟨_, _, rfl, rfl, by decide⟩, ⟨_, _, rfl, rfl, by decide⟩, _, _, rfl, rfl, by decide⟩

theorem witness_CommandsWriteOnlyTheirOwnBlock :
    (∃ t, exec (.pckGrp 1) (withPck 1) = .next t) ∧ (Instr.pckGrp 1).block ≠ .b58 ∧ (Instr.pckGrp 1).block ≠ .rgp ∧
      Instr.pckGrp 1 ≠ .srst ∧ (∃ t, exec .b58Fin encOne = .next t) ∧ Instr.b58Fin.block ≠ .pck ∧ Instr.b58Fin ≠ .srst :=
  ⟨⟨_, rfl⟩, by decide, by decide, by decide, ⟨_, rfl⟩, by decide, by decide⟩

theorem witness_CommandsReadOnlyTheirOwnBlock :
    Instr.b58Fin.block ≠ .sys ∧ encOne.cfg = ({ encOne with pck := ⟨.error, 5, 3⟩ } : State).cfg ∧
      sameBlock Instr.b58Fin.block encOne { encOne with pck := ⟨.error, 5, 3⟩ } ∧ ∃ t, exec .b58Fin encOne = .next t :=
  ⟨by decide, rfl, ⟨rfl, rfl⟩, _, rfl⟩

theorem witness_CommandsOfDifferentBlocksCommute :
    (Instr.b58Push 0).block ≠ .sys ∧ (Instr.pckPfx 0x62).block ≠ .sys ∧ (Instr.b58Push 0).block ≠ (Instr.pckPfx 0x62).block ∧
      ∃ t, execAll [.b58Push 0, .pckPfx 0x62] encOne = .next t :=
  ⟨by decide, by decide, by decide, _, rfl⟩

theorem witness_StaleCellsAreUnobservable :
    sameButStaleCells encOne { encOne with buf := [(0, 1), (1, 0xFF)] } ∧ ∃ t, exec (.b58Push 0) encOne = .next t := by
  refine ⟨⟨rfl, fun _ a ha => ?_⟩, _, rfl⟩
  obtain rfl : a = 0 := by
    have h : a < 1 := ha
    omega
  rfl

theorem witness_PhasesMoveOnlyAsTheRuleSays : ∃ t, exec .b58Fin encOne = .next t ∧ t.b58.phase = .drain := ⟨_, rfl, rfl⟩

theorem witness_ErrorIsLeftOnlyByInitOrReset :
    (failed.withFetchWord 16 0x1001).inputs = .command 0x1001 :: [] ∧
      (∃ t, step (failed.withFetchWord 16 0x1001) = .next t) ∧ failed.b58.phase = .error ∧ failed.rgp.phase = .error ∧
      failed.pck.phase = .error :=
  ⟨by decide, ⟨_, rfl⟩, rfl, rfl, rfl⟩

theorem witness_RdsrAnswersTheRegister : (10 : Byte).toNat ≤ 10 ∧ 10 < (11 : Byte).toNat := by decide

/-- Both ends of each range of codes without a digit. -/
theorem witness_InverseTableInvertsTheAlphabet :
    (0x30 : Byte).toNat < 0x31 ∧ 0x3A ≤ (0x3A : Byte).toNat ∧ (0x40 : Byte).toNat ≤ 0x40 ∧ 0x5B ≤ (0x5B : Byte).toNat ∧
      (0x60 : Byte).toNat ≤ 0x60 ∧ 0x7B ≤ (0x7B : Byte).toNat := by decide

/-- A push of a byte at the last place there is room for. -/
theorem witness_B58PushFoldsAByteIntoTheNumber :
    Inv (leadingRunOf .enc 34) ∧ (leadingRunOf .enc 34).b58.phase = .active ∧ (leadingRunOf .enc 34).b58.mode = .enc ∧
      34 + 1 + digitCount 58 (b58Value (leadingRunOf .enc 34) * 256 + 0) ≤ (leadingRunOf .enc 34).cfg.cap :=
  ⟨inv_leading_enc_34, rfl, rfl, by decide⟩

/-- A push of the character `'1'`, digit 0, at the last place there is room for. -/
theorem witness_B58PushFoldsACharacterIntoTheNumber :
    Inv (leadingRunOf .dec 34) ∧ (leadingRunOf .dec 34).b58.phase = .active ∧ (leadingRunOf .dec 34).b58.mode = .dec ∧
      (leadingRunOf .dec 34).b58.ovf = false ∧ b58Char 0 = some 0x31 ∧
      34 + 1 + digitCount 256 (b58Value (leadingRunOf .dec 34) * 58 + 0) ≤ (leadingRunOf .dec 34).cfg.cap :=
  ⟨inv_leading_dec_34, rfl, rfl, rfl, by decide, by decide⟩

theorem witness_B58PushRefusalAndDataErrors_refused : State.reset.b58.phase ≠ .active := by decide

theorem witness_B58PushRefusalAndDataErrors_foreign :
    decOne.b58.phase = .active ∧ decOne.b58.mode = .dec ∧ ∀ d, b58Char d ≠ some 0x30 := by
  refine ⟨rfl, rfl, fun d h => ?_⟩
  have hm : (0x30 : Byte) ∈ b58Alpha := List.mem_of_getElem? h
  exact absurd hm (by decide)

/-- A zero byte after a leading run that fills the buffer: the first that does not fit. -/
theorem witness_B58PushRefusalAndDataErrors_capacity :
    (leadingRunOf .enc 35).b58.phase = .active ∧ Inv (leadingRunOf .enc 35) ∧ (leadingRunOf .enc 35).b58.mode = .enc ∧
      (leadingRunOf .enc 35).cfg.cap < 35 + (if (true && (0 : Byte) == 0) = true then 1 else 0) +
        digitCount 58 (b58Value (leadingRunOf .enc 35) * 256 + (0 : Byte).toNat) :=
  ⟨rfl, inv_leading_enc_35, rfl, by decide⟩

theorem witness_B58PushDecodeOverflowIsSticky_sets :
    Inv (leadingRunOf .dec 35) ∧ (leadingRunOf .dec 35).b58.phase = .active ∧ (leadingRunOf .dec 35).b58.mode = .dec ∧
      b58Char 0 = some 0x31 ∧ (leadingRunOf .dec 35).b58.ovf = false ∧
      (leadingRunOf .dec 35).cfg.cap < 35 + 1 + digitCount 256 (b58Value (leadingRunOf .dec 35) * 58 + 0) :=
  ⟨inv_leading_dec_35, rfl, rfl, by decide, rfl, by decide⟩

theorem witness_B58PushDecodeOverflowIsSticky_stays :
    Inv decOverflowed ∧ decOverflowed.b58.phase = .active ∧ decOverflowed.b58.mode = .dec ∧ b58Char 57 = some 0x7A ∧
      decOverflowed.b58.ovf = true :=
  ⟨inv_decOverflowed, rfl, rfl, by decide, rfl⟩

theorem witness_B58FinClosesTheInput :
    State.reset.b58.phase ≠ .active ∧
      ((leadingRunOf .dec 24).b58.phase = .active ∧ (leadingRunOf .dec 24).b58.mode = .dec ∧
        (leadingRunOf .dec 24).b58.lz.toNat + (leadingRunOf .dec 24).b58.blen.toNat ≠ 25) ∧
      ((leadingRunOf .dec 25).b58.phase = .active ∧ (leadingRunOf .dec 25).b58.ovf = false ∧
        (leadingRunOf .dec 25).b58.lz.toNat + (leadingRunOf .dec 25).b58.blen.toNat = 25) ∧
      (encOne.b58.phase = .active ∧ encOne.b58.mode = .enc) := by decide

/-- The last unit of the leading run, the first and the last cell, and the exhausted output. -/
theorem witness_B58PopDeliversTheNextUnit :
    State.reset.b58.phase ≠ .drain ∧ (∀ n, (draining n).b58.phase = .drain) ∧
      (draining 3).b58.lz.toNat + (draining 3).b58.blen.toNat ≤ (draining 3).b58.rptr.toNat ∧
      (draining 0).b58.rptr.toNat < (draining 0).b58.lz.toNat ∧
      (Inv (draining 1) ∧ (draining 1).b58.lz.toNat ≤ (draining 1).b58.rptr.toNat ∧
        (draining 1).b58.rptr.toNat < (draining 1).b58.lz.toNat + (draining 1).b58.blen.toNat) ∧
      (Inv (draining 2) ∧ (draining 2).b58.lz.toNat ≤ (draining 2).b58.rptr.toNat ∧
        (draining 2).b58.rptr.toNat < (draining 2).b58.lz.toNat + (draining 2).b58.blen.toNat) :=
  ⟨by decide, fun _ => rfl, by decide, by decide, ⟨inv_draining_1, by decide, by decide⟩, inv_draining_2, by decide, by decide⟩

theorem witness_AbsorbStaysWithinItsBounds :
    (∀ d ∈ [57, 57], d < toRadix .enc) ∧ 255 < fromRadix .enc ∧ (∀ d ∈ [255], d < toRadix .dec) ∧ 57 < fromRadix .dec ∧
      57 < toRadix .enc ∧ 255 < toRadix .dec := by decide

/-- Thirty-five zero bytes fit the smallest buffer and the thirty-sixth does not. -/
theorem witness_EncodingTransactionComputesBase58Encode :
    State.reset.cfg.legal ∧ (base58Encode (List.replicate 35 0)).length ≤ State.reset.cfg.cap ∧
      35 < (List.replicate 36 (0 : Byte)).length ∧
      (∀ j, j ≤ 35 → (base58Encode ((List.replicate 36 (0 : Byte)).take j)).length ≤ State.reset.cfg.cap) ∧
      State.reset.cfg.cap < (base58Encode ((List.replicate 36 (0 : Byte)).take (35 + 1))).length := by
  refine ⟨by decide, by decide +kernel, by decide, ?_, by decide +kernel⟩
  have h : ∀ j : Fin 36, (base58Encode ((List.replicate 36 (0 : Byte)).take j)).length ≤ State.reset.cfg.cap := by
    decide +kernel
  exact fun j hj => h ⟨j, by omega⟩

theorem witness_DecodingTransactionComputesBase58Decode :
    (25 ≤ State.reset.cfg.cap ∧ State.reset.cfg.cap ≤ 255) ∧
      base58Decode (List.replicate 25 0x31) = .ok (List.replicate 25 0) ∧ base58Decode [] = .error .invalidLength ∧
      0 < ([0x30] : List Byte).length ∧ allBase58 (([0x30] : List Byte).take 0) = true ∧ b58Inv 0x30 = none := by
  decide +kernel

theorem witness_Base58DecodeAndEncodeAreInverse :
    (List.replicate 25 (0xFF : Byte)).length = 25 ∧
      base58Decode (List.replicate 25 0x31) = .ok (List.replicate 25 0) := by decide +kernel

theorem witness_TwentyFiveBytesEncodeToAtMost35Characters : (List.replicate 25 (0xFF : Byte)).length ≤ 25 := by decide

theorem witness_RgpPush8CutsTheBitStream :
    ¬(State.reset.rgp.phase = .active ∧ State.reset.rgp.dir = .eightToFive) ∧
      InvTail (withRgp ⟨.active, .eightToFive, 4, 15, 0⟩) ∧
      (withRgp ⟨.active, .eightToFive, 4, 15, 0⟩).rgp.phase = .active ∧
      (withRgp ⟨.active, .eightToFive, 4, 15, 0⟩).rgp.dir = .eightToFive := by decide

theorem witness_RgpPush5CutsTheBitStream :
    ¬(State.reset.rgp.phase = .active ∧ State.reset.rgp.dir = .fiveToEight) ∧
      InvTail (withRgp ⟨.active, .fiveToEight, 7, 127, 0⟩) ∧
      (withRgp ⟨.active, .fiveToEight, 7, 127, 0⟩).rgp.phase = .active ∧
      (withRgp ⟨.active, .fiveToEight, 7, 127, 0⟩).rgp.dir = .fiveToEight := by decide

/-- An open 5-to-8 transaction with `n` left-over bits of value `a`, in a build with the given `RGP_REJECT_EXCESS`. -/
def tailOf (reject : Bool) (n : BitVec 3) (a : BitVec 7) : State :=
  { State.reset with cfg := { bau1 with rejectExcess := reject }, rgp := ⟨.active, .fiveToEight, n, a, 0⟩ }

/-- Refused; no tail; a tail to pad; a zero tail that is dropped, at both ends of its range; a tail that is not zero; and a
zero tail of exactly one input group in a build that rejects it. -/
theorem witness_RgpFlushPadsDropsOrFails :
    (InvTail State.reset ∧ State.reset.rgp.phase ≠ .active) ∧ (∀ r n a, (tailOf r n a).rgp.phase = .active) ∧
      (InvTail (tailOf false 0 0) ∧ (tailOf false 0 0).rgp.nbits = 0) ∧
      (InvTail (tailOf false 7 127) ∧ (tailOf false 7 127).rgp.nbits ≠ 0 ∧ (tailOf false 7 127).rgp.acc ≠ 0) ∧
      (InvTail (tailOf false 7 0) ∧
        ¬((tailOf false 7 0).rgp.acc ≠ 0 ∨ (tailOf false 7 0).cfg.rejectExcess = true ∧ 5 ≤ (tailOf false 7 0).rgp.nbits.toNat)) ∧
      (InvTail (tailOf true 4 0) ∧
        ¬((tailOf true 4 0).rgp.acc ≠ 0 ∨ (tailOf true 4 0).cfg.rejectExcess = true ∧ 5 ≤ (tailOf true 4 0).rgp.nbits.toNat)) ∧
      (InvTail (tailOf true 5 0) ∧ (tailOf true 5 0).cfg.rejectExcess = true ∧ 5 ≤ (tailOf true 5 0).rgp.nbits.toNat) :=
  ⟨by decide, fun _ _ _ => rfl, by decide, by decide, by decide, by decide, by decide⟩

theorem witness_PckPfxAndGrpAbsorb : State.reset.pck.phase ≠ .active ∧ (withPck 1).pck.phase = .active := by decide

theorem witness_PckRdsymReadsASymbolOfTheResult :
    State.reset.pck.phase ≠ .active ∧ (withPck 0xA2752685D7).pck.phase = .active := by decide

theorem witness_PckVerifyTestsTheResult :
    State.reset.pck.phase ≠ .active ∧ (withPck 1).pck.phase = .active ∧ (withPck 1).pck.csum = (withPck 1).cfg.finalXor ∧
      (withPck 5).pck.phase = .active ∧ (withPck 5).pck.csum ≠ (withPck 5).cfg.finalXor := by decide

theorem witness_OneChangedChecksumSymbolFails :
    (symbols (compute bau1 [] [])).length = 8 ∧ 7 < 8 ∧ (symbols (compute bau1 [] []))[7]? ≠ some 31 ∧
      verify bau1 [] ([] ++ symbols (compute bau1 [] [])) = true := by decide +kernel

end Sys2Proof.Tests
end

section
/-! What every response of the unit looks like (30_encoding.md R72, 60_exceptions.md R151), and that every command word
gets exactly one (00_scope.md R10). -/

namespace Sys2Proof.Machine

/-! ### The fields of a response word (30_encoding.md R72) -/

section ResponseFields

open BitVec

variable (e : ErrCode) (data : List Byte)

@[simp] theorem respD0_respWord : respD0 (respWord e data) = data[0]?.getD 0 := extractLsb'_append_eq_right

@[simp] theorem respD1_respWord : respD1 (respWord e data) = data[1]?.getD 0 :=
  (extractLsb'_append_eq_of_le (by decide)).trans extractLsb'_append_eq_right

@[simp] theorem respCount_respWord : respCount (respWord e data) = BitVec.ofNat 2 data.length :=
  (extractLsb'_append_eq_of_le (by decide)).trans <|
    (extractLsb'_append_eq_of_le (by decide)).trans extractLsb'_append_eq_right

/-- The reserved bits `RESP[27:18]` are 0. -/
@[simp] theorem respWord_reserved : (respWord e data).extractLsb' 18 10 = 0 :=
  (extractLsb'_append_eq_of_le (by decide)).trans <|
    (extractLsb'_append_eq_of_le (by decide)).trans <|
      (extractLsb'_append_eq_of_le (by decide)).trans extractLsb'_append_eq_right

@[simp] theorem respErr_respWord : respErr (respWord e data) = e :=
  (extractLsb'_append_eq_of_le (by decide)).trans <|
    (extractLsb'_append_eq_of_le (by decide)).trans <|
      (extractLsb'_append_eq_of_le (by decide)).trans extractLsb'_append_eq_left

end ResponseFields

/-- The count field holds the number of data items of a response of R72, which has at most two. -/
theorem toNat_respCount_respWord (e : ErrCode) (data : List Byte) (h : data.length ≤ 2) :
    (respCount (respWord e data)).toNat = data.length := by
  rw [respCount_respWord, BitVec.toNat_ofNat]
  exact Nat.mod_eq_of_lt (by omega)

/-! ### The defined forms of a response -/

/-- The responses with an error code: the code above zeros (60_exceptions.md R151). -/
def errorWords : List RespWord :=
  [0x10000000#32, 0x20000000#32, 0x30000000#32, 0x40000000#32, 0xC0000000#32, 0xD0000000#32, 0xE0000000#32]

/-- A response of success: `ERR` 0, at most two data items, zeros where there is none (30_encoding.md R72). -/
def SuccessWord (r : RespWord) : Prop :=
  respErr r = 0 ∧ r.extractLsb' 18 10 = 0 ∧ (respCount r).toNat ≤ 2 ∧
    ((respCount r).toNat < 2 → respD1 r = 0) ∧ ((respCount r).toNat = 0 → respD0 r = 0)

/-- The response is of one of the forms 30_encoding.md R72 and 60_exceptions.md R151 define. -/
def DefinedResponse (r : RespWord) : Prop := SuccessWord r ∨ r ∈ errorWords

theorem successWord_respWord (data : List Byte) (h : data.length ≤ 2) : SuccessWord (respWord 0 data) := by
  have hc := toNat_respCount_respWord 0 data h
  refine ⟨respErr_respWord 0 data, respWord_reserved 0 data, hc.trans_le h, fun h1 => ?_, fun h0 => ?_⟩
  · rw [respD1_respWord, List.getElem?_eq_none (by omega), Option.getD_none]
  · rw [respD0_respWord, List.getElem?_eq_none (by omega), Option.getD_none]

theorem respWord_kindCode_mem_errorWords (k : Kind) : respWord (kindCode k) [] ∈ errorWords := by
  cases k <;> decide

theorem respWord_illegalCode_mem_errorWords : respWord illegalCode [] ∈ errorWords := by decide

theorem respWord_seqCode_mem_errorWords : respWord seqCode [] ∈ errorWords := by decide

/-! ### One response per command -/

/-- `res` is a next state of `s` that keeps the build and what the host has still to present, and has exactly one
response more, of a defined form. -/
def AnsweredOnce (s : State) (res : Result) : Prop :=
  ∃ (t : State) (r : RespWord), res = .next t ∧ t.inputs = s.inputs ∧ t.cfg = s.cfg ∧ t.resps = s.resps ++ [r] ∧
    DefinedResponse r

/-- A success whose data fit into a response; the update `t` of `s` is one that touches no port and no parameter. -/
theorem answeredOnce_respond {s t : State} {data : List Byte} (hd : data.length ≤ 2)
    (hi : t.inputs = s.inputs := by rfl) (hc : t.cfg = s.cfg := by rfl) (hr : t.resps = s.resps := by rfl) :
    AnsweredOnce s (respond data t) :=
  ⟨_, _, rfl, hi, hc, by rw [State.say_resps, hr], .inl (successWord_respWord data hd)⟩

theorem answeredOnce_refuseSeq (s : State) : AnsweredOnce s (refuseSeq s) :=
  ⟨_, _, rfl, rfl, rfl, rfl, .inr respWord_seqCode_mem_errorWords⟩

theorem answeredOnce_refuseIllegal (s : State) : AnsweredOnce s (refuseIllegal s) :=
  ⟨_, _, rfl, rfl, rfl, rfl, .inr respWord_illegalCode_mem_errorWords⟩

theorem answeredOnce_raise (k : Kind) (s : State) : AnsweredOnce s (raise k s) :=
  ⟨_, _, rfl, by simp, by simp, by simp, .inr (respWord_kindCode_mem_errorWords k)⟩

/-- A command that is refused out of sequence, and answered once where the block accepts it (60_exceptions.md R155). -/
theorem answeredOnce_whenAccepted {i : Instr} {s : State} {body : Result}
    (h : accepts s i = true → AnsweredOnce s body) : AnsweredOnce s (whenAccepted i s body) := by
  rcases whenAccepted_cases i s body with ⟨ha, heq⟩ | ⟨-, heq⟩
  · rw [heq]
    exact h ha
  · rw [heq]
    exact answeredOnce_refuseSeq s

/-! ### B58 under the invariants -/

theorem answeredOnce_b58Overflow (s : State) : AnsweredOnce s (b58Overflow s) := by
  unfold b58Overflow
  split
  · exact answeredOnce_raise _ s
  · exact answeredOnce_respond (by decide)

theorem answeredOnce_b58PushUnit (s : State) (u : Nat) (h : Inv s) (ha : s.b58.phase = .active) :
    AnsweredOnce s (b58PushUnit u s) := by
  cases ho : s.b58.ovf with
  | true =>
    rw [show b58PushUnit u s = respond [] s from if_pos ho]
    exact answeredOnce_respond (by decide)
  | false =>
    obtain ⟨hfull, hroom⟩ := b58PushUnit_of_inv s u h ha ho
    rcases Nat.lt_or_ge s.cfg.cap _ with hlt | hle
    · rw [hfull hlt]
      exact answeredOnce_b58Overflow s
    · obtain ⟨m, hm, -⟩ := hroom hle
      rw [hm]
      exact answeredOnce_respond (by decide)

theorem answeredOnce_execB58Push (v : Byte) (s : State) (h : Inv s) : AnsweredOnce s (execB58Push v s) := by
  refine answeredOnce_whenAccepted fun ha => ?_
  cases b58Unit s.b58.mode v with
  | none => exact answeredOnce_raise _ s
  | some u => exact answeredOnce_b58PushUnit s u h (eq_of_beq ha)

theorem answeredOnce_execB58Fin (s : State) : AnsweredOnce s (execB58Fin s) := by
  refine answeredOnce_whenAccepted fun _ => ?_
  split
  · exact answeredOnce_raise _ s
  · exact answeredOnce_respond (Nat.le_succ 1)

/-- A good cell has a value, and the value has an output unit (10_state.md R28 item 2, R41). -/
theorem cellGood_outUnit (s : State) (i : Nat) (h : cellGood s i = true) :
    ∃ d c, Memory.get i s.buf = some d ∧ b58OutUnit s.b58.mode d = some c := by
  unfold cellGood at h
  cases hg : Memory.get i s.buf with
  | none => simp [hg] at h
  | some d =>
    cases hm : s.b58.mode with
    | dec => exact ⟨d, d, rfl, rfl⟩
    | enc =>
      have hd : d.toNat < 58 := by simpa [hg, hm] using h
      exact ⟨d, _, rfl, List.getElem?_eq_getElem (show d.toNat < b58Alpha.length from hd)⟩

/-- Under the invariants the digit that `B58.POP` delivers can be read and has an output unit, as long as one is left
(41_base58.md R98). -/
theorem b58PopDigit_of_inv (s : State) (h : Inv s) (hd : s.b58.phase = .drain)
    (hl : s.b58.rptr.toNat < b58OutLen s.b58) :
    ∃ d c, b58PopDigit s = .ok d ∧ b58OutUnit s.b58.mode d = some c := by
  obtain ⟨-, -, ⟨hcap, -⟩, hcells, -⟩ := h
  unfold b58OutLen at hl
  rcases Nat.lt_or_ge s.b58.rptr.toNat s.b58.lz.toNat with hlead | hcell
  · have hzero : ∃ c, b58OutUnit s.b58.mode 0 = some c := by cases s.b58.mode <;> exact ⟨_, rfl⟩
    obtain ⟨c, hc⟩ := hzero
    exact ⟨0, c, (b58PopDigit_ok s 0).2 (.inl ⟨hlead, rfl⟩), hc⟩
  · have hi : s.b58.blen.toNat - 1 - (s.b58.rptr.toNat - s.b58.lz.toNat) < s.b58.blen.toNat := by omega
    obtain ⟨d, c, hg, hc⟩ := cellGood_outUnit s _ ((hcells (.inr hd)).1 _ hi)
    exact ⟨d, c, (b58PopDigit_ok s d).2 (.inr ⟨hcell, by omega, hg⟩), hc⟩

theorem answeredOnce_execB58Pop (s : State) (h : Inv s) : AnsweredOnce s (execB58Pop s) := by
  refine answeredOnce_whenAccepted fun ha => ?_
  split
  · exact answeredOnce_respond (by decide)
  · rename_i hl
    obtain ⟨d, c, hdigit, hunit⟩ := b58PopDigit_of_inv s h (eq_of_beq ha) (Nat.lt_of_not_le hl)
    simp only [hdigit, hunit]
    exact answeredOnce_respond (Nat.le_succ 1)

/-! ### RGP under the invariants -/

theorem invTail_of_inv (s : State) (h : Inv s) : InvTail s := by
  obtain ⟨-, -, -, -, -, -, -, htail, -⟩ := h
  exact htail

/-- A push completes at most two groups when fewer than three output groups of bits are at hand (42_regrouper.md
R112). -/
theorem answeredOnce_rgpPush (s : State) (v win wout : Nat) (h : InvTail s) (hw : 0 < wout) (hv : v < 2 ^ win)
    (hn : s.rgp.nbits.toNat + win < 3 * wout) : AnsweredOnce s (rgpPush v win wout s) := by
  obtain ⟨-, -, -, hlen, -⟩ := rgpAbsorb_spec s.rgp v win wout hw hv h.1
  refine answeredOnce_respond ?_
  rw [List.length_map, hlen]
  exact Nat.le_of_lt_succ ((Nat.div_lt_iff_lt_mul hw).2 hn)

theorem answeredOnce_execRgpPush8 (v : Byte) (s : State) (h : InvTail s) : AnsweredOnce s (execRgpPush8 v s) := by
  refine answeredOnce_whenAccepted fun ha => ?_
  obtain ⟨-, hdir⟩ := Bool.and_eq_true_iff.1 ha
  have hbits := h.2 (eq_of_beq hdir)
  exact answeredOnce_rgpPush s _ 8 5 h (by decide) v.isLt (by omega)

theorem answeredOnce_execRgpPush5 (g : Group) (s : State) (h : InvTail s) : AnsweredOnce s (execRgpPush5 g s) := by
  refine answeredOnce_whenAccepted fun _ => ?_
  have hbits := s.rgp.nbits.isLt
  exact answeredOnce_rgpPush s _ 5 8 h (by decide) g.isLt (by omega)

theorem rgpPadded_length_le (r : RgpRec) : (rgpPadded r).length ≤ 1 := by
  simp only [rgpPadded]
  split <;> simp

theorem answeredOnce_rgpClose (out : List Byte) (s : State) (h : out.length ≤ 1) :
    AnsweredOnce s (rgpClose out s) := answeredOnce_respond (by omega)

theorem answeredOnce_execRgpFlush (p : Bool) (s : State) : AnsweredOnce s (execRgpFlush p s) := by
  refine answeredOnce_whenAccepted fun _ => ?_
  split
  · exact answeredOnce_rgpClose _ s (rgpPadded_length_le s.rgp)
  · split
    · exact answeredOnce_raise _ s
    · exact answeredOnce_rgpClose [] s (by decide)

/-! ### PCK and the system commands, in every state -/

theorem answeredOnce_pckAbsorb (d : Group) (s : State) : AnsweredOnce s (pckAbsorb d s) :=
  answeredOnce_respond (by decide)

theorem answeredOnce_execPckVerify (s : State) : AnsweredOnce s (execPckVerify s) := by
  refine answeredOnce_whenAccepted fun _ => ?_
  split
  · exact answeredOnce_raise _ s
  · exact answeredOnce_respond (by decide)

theorem answeredOnce_execRdsr (n : Byte) (s : State) : AnsweredOnce s (execRdsr n s) := by
  unfold execRdsr
  split
  · exact answeredOnce_respond (by simp)
  · exact answeredOnce_refuseIllegal s

/-! ### Every command, and every command word -/

/-- Under the invariants every command gets one response of a defined form (00_scope.md R10). -/
theorem answeredOnce_exec (i : Instr) (s : State) (h : Inv s) : AnsweredOnce s (exec i s) := by
  have htail := invTail_of_inv s h
  cases i with
  | nop => exact answeredOnce_respond (by decide)
  | rdsr n => exact answeredOnce_execRdsr n s
  | srst => exact answeredOnce_respond (by decide)
  | b58Init m => exact answeredOnce_respond (by decide)
  | b58Push v => exact answeredOnce_execB58Push v s h
  | b58Fin => exact answeredOnce_execB58Fin s
  | b58Pop => exact answeredOnce_execB58Pop s h
  | rgpInit d => exact answeredOnce_respond (by decide)
  | rgpPush8 v => exact answeredOnce_execRgpPush8 v s htail
  | rgpPush5 g => exact answeredOnce_execRgpPush5 g s htail
  | rgpFlush p => exact answeredOnce_execRgpFlush p s
  | pckInit => exact answeredOnce_respond (by decide)
  | pckPfx c => exact answeredOnce_whenAccepted fun _ => answeredOnce_pckAbsorb _ s
  | pckGrp g => exact answeredOnce_whenAccepted fun _ => answeredOnce_pckAbsorb g s
  | pckRdsym k => exact answeredOnce_whenAccepted fun _ => answeredOnce_respond (Nat.le_succ 1)
  | pckVerify => exact answeredOnce_execPckVerify s

/-- A presented command word is taken, and then refused or executed (30_encoding.md R79). -/
theorem step_command (s : State) (w : CmdWord) (rest : List HostInput) (hi : s.inputs = .command w :: rest) :
    (∃ i, decode w = .ok i ∧ step s = exec i { s with inputs := rest }) ∨
      ((∃ e, decode w = .error e) ∧ step s = refuseIllegal { s with inputs := rest }) := by
  cases hd : decode w with
  | ok i => exact .inl ⟨i, rfl, by simp [step, fetch, hi, hd]⟩
  | error e => exact .inr ⟨⟨e, rfl⟩, by simp [step, fetch, hi, hd]⟩

/-- The invariants say nothing about what the host has still to present. -/
theorem inv_withInputs (s : State) (rest : List HostInput) (h : Inv s) : Inv { s with inputs := rest } := h

theorem answeredOnce_step (s : State) (w : CmdWord) (rest : List HostInput) (h : Inv s)
    (hi : s.inputs = .command w :: rest) : AnsweredOnce { s with inputs := rest } (step s) := by
  rcases step_command s w rest hi with ⟨i, -, hstep⟩ | ⟨-, hstep⟩
  · rw [hstep]
    exact answeredOnce_exec i _ (inv_withInputs s rest h)
  · rw [hstep]
    exact answeredOnce_refuseIllegal _

/-- Settles O15, by the one-response lemma of each command and of the refusal of an illegal word. -/
theorem everyCommandIsAnsweredOnce : Obligations.EveryCommandIsAnsweredOnce :=
  fun s w rest hs hi => answeredOnce_step s w rest hs hi

end Sys2Proof.Machine
end

section
/-! What holds after a command, said with one rule per shared operation: a property of the next state follows from the
property of what the operation writes. -/

namespace Sys2Proof.Machine

/-- The next state, where `res` is one, meets `P`. -/
def Ensures (res : Result) (P : State → Prop) : Prop := ∀ t, res = .next t → P t

section Rules

variable {s : State} {P : State → Prop}

theorem ensures_next (h : P s) : Ensures (.next s) P := fun _ ht => Host.Outcome.next.inj ht ▸ h

theorem ensures_respond {data : List Byte} (h : P (s.say (respWord 0 data))) : Ensures (respond data s) P :=
  ensures_next h

theorem ensures_refuseSeq (h : P (s.say (respWord seqCode []))) : Ensures (refuseSeq s) P := ensures_next h

theorem ensures_refuseIllegal (h : P (s.say (respWord illegalCode []))) : Ensures (refuseIllegal s) P :=
  ensures_next h

theorem ensures_raise {k : Kind} (h : P ((latchError k s).say (respWord (kindCode k) []))) :
    Ensures (raise k s) P := ensures_next h

/-- A command that its block may refuse out of sequence (60_exceptions.md R155). -/
theorem ensures_whenAccepted {i : Instr} {body : Result} (hseq : P (s.say (respWord seqCode [])))
    (h : accepts s i = true → Ensures body P) : Ensures (whenAccepted i s body) P := by
  rcases whenAccepted_cases i s body with ⟨ha, heq⟩ | ⟨-, heq⟩
  · rw [heq]
    exact h ha
  · rw [heq]
    exact ensures_refuseSeq hseq

/-- A read of a status register, whatever the register shows. -/
theorem ensures_execRdsr {n : Byte} (h : ∀ r, P (s.say r)) : Ensures (execRdsr n s) P := by
  unfold execRdsr
  split
  · exact ensures_respond (h _)
  · exact ensures_refuseIllegal (h _)

end Rules

end Sys2Proof.Machine
end

section
/-! The invariants of 10_state.md R28, block by block: each command can break only those of its own block. -/

namespace Sys2Proof.Machine

/-- The part of `Inv` that speaks of the B58 record and the buffer. -/
structure B58Good (s : State) : Prop where
  buffer : InvBuffer s
  counts : InvCounts s
  cells : InvCells s
  leading : InvLeading s
  ovf : InvOvf s
  err : s.b58.err ≠ 0 ↔ s.b58.phase = .error
  code : s.b58.err = 0 ∨ s.b58.err = 1 ∨ s.b58.err = 2 ∨ s.b58.err = 0xC
  idle : s.b58.phase = .idle → s.b58 = b58Reset

/-- The part of `Inv` that speaks of the RGP record. -/
structure RgpGood (r : RgpRec) : Prop where
  err : r.err ≠ 0 ↔ r.phase = .error
  code : r.err = 0 ∨ r.err = 4
  tail : r.acc.toNat < 2 ^ r.nbits.toNat
  short : r.dir = .eightToFive → r.nbits.toNat ≤ 4
  phase : r.phase ≠ .drain
  idle : r.phase = .idle → r.nbits = 0 ∧ r.acc = 0 ∧ r.err = 0

/-- The part of `Inv` that speaks of the PCK record. -/
structure PckGood (p : PckRec) : Prop where
  err : p.err ≠ 0 ↔ p.phase = .error
  code : p.err = 0 ∨ p.err = 3
  phase : p.phase ≠ .drain
  idle : p.phase = .idle → p.csum = 0 ∧ p.err = 0

theorem inv_iff (s : State) : Inv s ↔ s.cfg.legal ∧ B58Good s ∧ RgpGood s.rgp ∧ PckGood s.pck := by
  constructor
  · rintro ⟨hl, hbuf, hcnt, hcell, hlead, hovf, ⟨be, bc, re, rc, pe, pc⟩, ⟨ht, hs⟩, ⟨rp, pp⟩, bi, ri, pi⟩
    exact ⟨hl, ⟨hbuf, hcnt, hcell, hlead, hovf, be, bc, bi⟩, ⟨re, rc, ht, hs, rp, ri⟩, ⟨pe, pc, pp, pi⟩⟩
  · rintro ⟨hl, b, r, p⟩
    exact ⟨hl, b.buffer, b.counts, b.cells, b.leading, b.ovf, ⟨b.err, b.code, r.err, r.code, p.err, p.code⟩,
      ⟨r.tail, r.short⟩, ⟨r.phase, p.phase⟩, b.idle, r.idle, p.idle⟩

section Blocks

variable {s : State} (h : Inv s)
include h

theorem inv_b58Good : B58Good s := ((inv_iff s).1 h).2.1

theorem inv_rgpGood : RgpGood s.rgp := ((inv_iff s).1 h).2.2.1

theorem inv_pckGood : PckGood s.pck := ((inv_iff s).1 h).2.2.2

/-- A command of B58 keeps the invariants if it keeps those of its record and of the buffer. -/
theorem inv_withB58 {b : B58Rec} {m : Memory} (hb : B58Good { s with b58 := b, buf := m }) :
    Inv { s with b58 := b, buf := m } := by
  obtain ⟨hl, -, hr, hp⟩ := (inv_iff s).1 h
  exact (inv_iff _).2 ⟨hl, hb, hr, hp⟩

/-- A command of RGP keeps the invariants if it keeps those of its record. -/
theorem inv_withRgp {r : RgpRec} (hr : RgpGood r) : Inv { s with rgp := r } := by
  obtain ⟨hl, hb, -, hp⟩ := (inv_iff s).1 h
  exact (inv_iff _).2 ⟨hl, { hb with }, hr, hp⟩

/-- A command of PCK keeps the invariants if it keeps those of its record. -/
theorem inv_withPck {p : PckRec} (hp : PckGood p) : Inv { s with pck := p } := by
  obtain ⟨hl, hb, hr, -⟩ := (inv_iff s).1 h
  exact (inv_iff _).2 ⟨hl, { hb with }, hr, hp⟩

end Blocks

/-! ### Reset -/

theorem b58Good_reset (s : State) : B58Good (resetUnit s) where
  buffer := ⟨Memory.wf_nil, nofun⟩
  counts := by simp [InvCounts, b58Reset]
  cells := by simp [InvCells, b58Reset]
  leading := by simp [InvLeading, b58Reset]
  ovf := nofun
  err := by simp [b58Reset]
  code := .inl rfl
  idle _ := rfl

theorem rgpGood_reset : RgpGood rgpReset := by constructor <;> decide

theorem pckGood_reset : PckGood pckReset := by constructor <;> decide

/-- Both resets put a legal build into a state that meets the invariants (70_reset_and_hazards.md R176). -/
theorem inv_resetUnit (s : State) (hl : s.cfg.legal) : Inv (resetUnit s) :=
  (inv_iff _).2 ⟨hl, b58Good_reset s, rgpGood_reset, pckGood_reset⟩

/-- Settles O12: the state after reset is a legal build that was reset. -/
theorem resetMeetsTheInvariants : Obligations.ResetMeetsTheInvariants :=
  inv_resetUnit State.reset (by decide)

/-! ### Data errors -/

/-- The codes that a data error of B58 latches are those R23 allows. -/
theorem kindCode_b58 (k : Kind) (h : kindBlock k = .b58) :
    kindCode k ≠ 0 ∧ (kindCode k = 1 ∨ kindCode k = 2 ∨ kindCode k = 0xC) := by
  revert h; cases k <;> decide

theorem b58Good_latchError {s : State} (k : Kind) (hk : kindBlock k = .b58) (h : B58Good s) :
    B58Good { s with b58 := { s.b58 with err := kindCode k, phase := .error } } where
  buffer := h.buffer
  counts := h.counts
  cells := by simp
  leading := ⟨h.leading.1, by simp⟩
  ovf := h.ovf
  err := by simpa using (kindCode_b58 k hk).1
  code := .inr (kindCode_b58 k hk).2
  idle := nofun

theorem inv_latchError {s : State} (k : Kind) (h : Inv s) : Inv (latchError k s) := by
  cases hk : kindBlock k with
  | sys => cases k <;> cases hk
  | b58 =>
    rw [latchError_b58 k s hk]
    exact inv_withB58 h (b58Good_latchError k hk (inv_b58Good h))
  | rgp =>
    have hr := inv_rgpGood h
    rw [latchError_rgp k s hk]
    obtain rfl : k = .invalidPadding := by revert hk; cases k <;> decide
    exact inv_withRgp h ⟨by simp [kindCode], .inr rfl, hr.tail, hr.short, nofun, nofun⟩
  | pck =>
    rw [latchError_pck k s hk]
    obtain rfl : k = .checksumMismatch := by revert hk; cases k <;> decide
    exact inv_withPck h ⟨by simp [kindCode], .inr rfl, nofun, nofun⟩

/-! ### RGP -/

theorem RgpGood.err_eq_zero {r : RgpRec} (h : RgpGood r) (ha : r.phase = .active) : r.err = 0 := by
  by_contra he
  exact absurd (ha.symm.trans (h.err.1 he)) (by decide)

theorem rgpGood_init (d : Dir) : RgpGood ⟨.active, d, 0, 0, 0⟩ := by constructor <;> simp

/-- The left-over bits of an accepted push fit into `NBITS` and `ACC`, and into 4 bits where the groups have 5
(42_regrouper.md R112). -/
theorem rgpGood_push {r : RgpRec} (v win wout : Nat) (h : RgpGood r) (ha : r.phase = .active) (hw : 0 < wout)
    (hw8 : wout ≤ 8) (hv : v < 2 ^ win) (hd : r.dir = .eightToFive → wout = 5) :
    RgpGood { r with
      acc := BitVec.ofNat 7 (rgpAbsorb r v win wout).acc, nbits := BitVec.ofNat 3 (rgpAbsorb r v win wout).nbits } := by
  obtain ⟨-, hn, hacc, -, -⟩ := rgpAbsorb_spec r v win wout hw hv h.tail
  have hlt : (rgpAbsorb r v win wout).nbits < wout := hn ▸ Nat.mod_lt _ hw
  have hnbits : (BitVec.ofNat 3 (rgpAbsorb r v win wout).nbits).toNat = (rgpAbsorb r v win wout).nbits :=
    Nat.mod_eq_of_lt (by omega)
  constructor
  case err => exact h.err
  case code => exact h.code
  case tail =>
    rw [hnbits]
    exact (Nat.mod_le _ _).trans_lt hacc
  case short =>
    intro hdir
    have := hd hdir
    rw [hnbits]
    omega
  case phase => exact h.phase
  case idle => exact fun hi => absurd (ha.symm.trans hi) (by decide)

theorem rgpGood_close {r : RgpRec} (h : RgpGood r) (ha : r.phase = .active) :
    RgpGood { r with phase := .idle, acc := 0, nbits := 0 } := by
  have he := h.err_eq_zero ha
  exact ⟨by simp [he], .inl he, by simp, by simp, nofun, fun _ => ⟨rfl, rfl, he⟩⟩

/-! ### PCK -/

theorem pckGood_init (x : Csum) : PckGood ⟨.active, x, 0⟩ := by constructor <;> simp

theorem pckGood_absorb {p : PckRec} (x : Csum) (h : PckGood p) (ha : p.phase = .active) :
    PckGood { p with csum := x } :=
  ⟨h.err, h.code, h.phase, fun hi => absurd (ha.symm.trans hi) (by decide)⟩

/-! ### B58 -/

theorem b58Good_init (s : State) (m : Mode) (h : InvBuffer s) :
    B58Good { s with b58 := ⟨.active, m, true, false, 0, 0, 0, 0⟩ } where
  buffer := h
  counts := by simp [InvCounts]
  cells := by simp [InvCells]
  leading := by simp [InvLeading]
  ovf := nofun
  err := by simp
  code := .inl rfl
  idle := nofun

theorem b58Good_setOvf {s : State} (h : B58Good s) (ha : s.b58.phase = .active) (hm : s.b58.mode = .dec) :
    B58Good { s with b58 := { s.b58 with ovf := true } } :=
  { h with ovf := fun _ => hm, idle := fun hi => absurd (ha.symm.trans hi) (by decide) }

theorem B58Good.err_eq_zero {s : State} (h : B58Good s) (ha : b58Busy s) : s.b58.err = 0 := by
  by_contra he
  rcases ha with ha | ha <;> exact absurd (ha.symm.trans (h.err.1 he)) (by decide)

theorem b58Good_fin {s : State} (h : B58Good s) (ha : s.b58.phase = .active) :
    B58Good { s with b58 := { s.b58 with phase := .drain, rptr := 0 } } where
  buffer := h.buffer
  counts := ⟨h.counts.1, Nat.zero_le _⟩
  cells _ := h.cells (.inl ha)
  leading := ⟨h.leading.1, fun _ => h.leading.2 (.inl ha)⟩
  ovf := h.ovf
  err := by simp [h.err_eq_zero (.inl ha)]
  code := h.code
  idle := nofun

/-- `RPTR` stays within the output (R28 item 1), which is short enough for it not to wrap. -/
theorem b58Good_pop {s : State} (hl : s.cfg.legal) (h : B58Good s) (hd : s.b58.phase = .drain)
    (hlt : s.b58.rptr.toNat < b58OutLen s.b58) :
    B58Good { s with b58 := { s.b58 with rptr := s.b58.rptr + 1 } } :=
  { h with
    counts := by
      have hout : b58OutLen s.b58 ≤ s.cfg.cap := h.counts.1
      have hcap := hl.2
      have hstep : (s.b58.rptr + 1).toNat = s.b58.rptr.toNat + 1 :=
        Nat.mod_eq_of_lt (show s.b58.rptr.toNat + 1 < 256 by omega)
      exact ⟨hout, hstep ▸ hlt⟩
    idle := fun hi => absurd (hd.symm.trans hi) (by decide) }

/-! ### `B58.PUSH` -/

/-- The number after a push of the unit `u` (41_base58.md R93). -/
def pushedValue (s : State) (u : Nat) : Nat := b58Value s * fromRadix s.b58.mode + u

/-- The number of its digits, which is the new `BLEN`. -/
def pushedLen (s : State) (u : Nat) : Nat := (Nat.digits (toRadix s.b58.mode) (pushedValue s u)).length

/-- `LZ` after a push of the unit `u`. -/
def pushedLz (s : State) (u : Nat) : Nat := s.b58.lz.toNat + (if unitLead s u = true then 1 else 0)

/-- The record after a push of the unit `u` that has room. -/
def pushedRec (s : State) (u : Nat) : B58Rec :=
  { s.b58 with
    leading := unitLead s u, lz := BitVec.ofNat 8 (pushedLz s u), blen := BitVec.ofNat 8 (pushedLen s u) }

/-- The number of the buffer never loses digits (the multiplication is by at least 1). -/
theorem blen_le_pushedLen {s : State} (u : Nat) (h : Inv s) (ha : s.b58.phase = .active) :
    s.b58.blen.toNat ≤ pushedLen s u := by
  obtain ⟨-, -, -, hdigits⟩ := readCells_of_inv s h (.inl ha)
  have hlen : (b58Cells s).length = s.b58.blen.toNat := by simp [b58Cells]
  have hval : b58Value s ≤ pushedValue s u :=
    Nat.le_add_right_of_le (Nat.le_mul_of_pos_right _ (fromRadix_pos _))
  rw [← hlen, hdigits]
  exact Nat.le_length_digits_le _ _ _ hval

/-- An open leading run holds no digit, before and after the push. -/
theorem pushedLen_of_unitLead {s : State} {u : Nat} (h : Inv s) (hu : unitLead s u = true) : pushedLen s u = 0 := by
  obtain ⟨hlead, hzero⟩ := Bool.and_eq_true_iff.1 hu
  have hblen := (inv_b58Good h).leading.1 hlead
  simp [pushedLen, pushedValue, b58Value, b58Cells, hblen, eq_of_beq hzero]

/-- A push that does not prolong the leading run leaves at least one digit. -/
theorem one_le_pushedLen {s : State} {u : Nat} (h : Inv s) (ha : s.b58.phase = .active)
    (hu : unitLead s u = false) : 1 ≤ pushedLen s u := by
  rcases Bool.and_eq_false_iff.1 hu with hlead | hne
  · exact ((inv_b58Good h).leading.2 (.inl ha) hlead).trans (blen_le_pushedLen u h ha)
  · have hval : pushedValue s u ≠ 0 := fun h0 => ne_of_beq_false hne (Nat.add_eq_zero_iff.1 h0).2
    exact List.length_pos_of_ne_nil (Nat.digits_ne_nil_iff_ne_zero.2 hval)

/-- The cell a push writes for digit `i` of the new number. -/
def pushedCell (s : State) (u i : Nat) : Byte :=
  BitVec.ofNat 8 (pushedValue s u / toRadix s.b58.mode ^ i % toRadix s.b58.mode)

/-- A digit of the output radix fits into a cell. -/
theorem toNat_pushedCell (s : State) (u i : Nat) :
    (pushedCell s u i).toNat = pushedValue s u / toRadix s.b58.mode ^ i % toRadix s.b58.mode := by
  have hto := two_le_toRadix s.b58.mode
  have hdigit := Nat.mod_lt (pushedValue s u / toRadix s.b58.mode ^ i) (show 0 < toRadix s.b58.mode by omega)
  exact Nat.mod_eq_of_lt (hdigit.trans_le (toRadix_le s.b58.mode))

/-- The top digit of a number is not 0 (10_state.md R24). -/
theorem pushedCell_top_ne_zero {s : State} {u : Nat} (hn : 0 < pushedLen s u) :
    pushedCell s u (pushedLen s u - 1) ≠ 0 := by
  have hval : pushedValue s u ≠ 0 := Nat.digits_ne_nil_iff_ne_zero.1 (List.length_pos_iff.1 hn)
  have htop := Nat.getLast_digit_ne_zero (toRadix s.b58.mode) hval
  rw [List.getLast_eq_getElem, ← List.getD_eq_getElem _ 0, Nat.getD_digits _ _ (two_le_toRadix _)] at htop
  intro h0
  rw [← BitVec.toNat_inj, toNat_pushedCell] at h0
  exact htop h0

theorem cellGood_pushedCell {s t : State} {u i : Nat} (hmode : t.b58.mode = s.b58.mode)
    (hget : Memory.get i t.buf = some (pushedCell s u i)) : cellGood t i = true := by
  simp only [cellGood, hget, hmode]
  cases hm : s.b58.mode with
  | dec => rfl
  | enc =>
    have hdigit : (pushedCell s u i).toNat < 58 := by
      rw [toNat_pushedCell, hm]
      exact Nat.mod_lt _ (by decide)
    simpa using hdigit

/-- A push that has room stores a number whose length and leading run fit, so that the new fields hold them
(10_state.md R28, 41_base58.md R94). -/
theorem b58Good_push {s : State} {u : Nat} {m : Memory} (h : Inv s) (ha : s.b58.phase = .active)
    (hroom : pushedLz s u + pushedLen s u ≤ s.cfg.cap)
    (hm : ∀ i, i < pushedLen s u → Memory.get i m = some (pushedCell s u i))
    (hbuf : Memory.wf m ∧ ∀ x ∈ m, x.1 < s.cfg.cap) :
    B58Good { s with b58 := pushedRec s u, buf := m } := by
  have hb := inv_b58Good h
  have hcap : s.cfg.cap ≤ 255 := h.1.2
  have hlz : (BitVec.ofNat 8 (pushedLz s u)).toNat = pushedLz s u := Nat.mod_eq_of_lt (by omega)
  have hlen : (BitVec.ofNat 8 (pushedLen s u)).toNat = pushedLen s u := Nat.mod_eq_of_lt (by omega)
  constructor
  case buffer => exact hbuf
  case counts =>
    have hrptr : s.b58.rptr.toNat ≤ s.b58.lz.toNat + s.b58.blen.toNat := hb.counts.2
    have hgrow := blen_le_pushedLen u h ha
    have hrun : s.b58.lz.toNat ≤ pushedLz s u := Nat.le_add_right _ _
    simp only [InvCounts, pushedRec, hlz, hlen]
    exact ⟨hroom, by omega⟩
  case cells =>
    simp only [InvCells, pushedRec, hlen]
    refine fun _ => ⟨fun i hi => cellGood_pushedCell (s := s) rfl (hm i hi), fun hn htop => ?_⟩
    rw [hm _ (by omega)] at htop
    exact pushedCell_top_ne_zero hn (Option.some.inj htop)
  case leading =>
    simp only [InvLeading, pushedRec, hlen]
    exact ⟨pushedLen_of_unitLead h, fun _ => one_le_pushedLen h ha⟩
  case ovf => exact hb.ovf
  case err => exact hb.err
  case code => exact hb.code
  case idle => exact fun hi => absurd (ha.symm.trans hi) (by decide)

theorem b58Overflow_enc (s : State) (hm : s.b58.mode = .enc) : b58Overflow s = raise .eCapacity s := by
  simp [b58Overflow, hm]

theorem b58Overflow_dec (s : State) (hm : s.b58.mode = .dec) :
    b58Overflow s = respond [] { s with b58 := { s.b58 with ovf := true } } := by simp [b58Overflow, hm]

theorem inv_b58Overflow {s : State} (h : Inv s) (ha : s.b58.phase = .active) : Ensures (b58Overflow s) Inv := by
  cases hm : s.b58.mode with
  | enc =>
    rw [b58Overflow_enc s hm]
    exact ensures_raise (inv_latchError _ h)
  | dec =>
    rw [b58Overflow_dec s hm]
    exact ensures_respond (inv_withB58 h (b58Good_setOvf (inv_b58Good h) ha hm))

theorem inv_b58PushUnit {s : State} (u : Nat) (h : Inv s) (ha : s.b58.phase = .active) :
    Ensures (b58PushUnit u s) Inv := by
  cases ho : s.b58.ovf with
  | true =>
    rw [show b58PushUnit u s = respond [] s from if_pos ho]
    exact ensures_respond h
  | false =>
    obtain ⟨hfull, hroom⟩ := b58PushUnit_of_inv s u h ha ho
    rcases Nat.lt_or_ge s.cfg.cap (pushedLz s u + pushedLen s u) with hlt | hle
    · rw [hfull hlt]
      exact inv_b58Overflow h ha
    · obtain ⟨m, heq, hcells, -, hwf, hrange⟩ := hroom hle
      rw [heq]
      exact ensures_respond (inv_withB58 h (b58Good_push h ha hle hcells ⟨hwf, hrange⟩))

/-! ### Every command, and every step -/

theorem inv_execB58Push (v : Byte) {s : State} (h : Inv s) : Ensures (execB58Push v s) Inv := by
  refine ensures_whenAccepted h fun ha => ?_
  cases b58Unit s.b58.mode v with
  | none => exact ensures_raise (inv_latchError _ h)
  | some u => exact inv_b58PushUnit u h (eq_of_beq ha)

theorem inv_execB58Fin {s : State} (h : Inv s) : Ensures (execB58Fin s) Inv := by
  refine ensures_whenAccepted h fun ha => ?_
  split
  · exact ensures_raise (inv_latchError _ h)
  · exact ensures_respond (inv_withB58 h (b58Good_fin (inv_b58Good h) (eq_of_beq ha)))

theorem inv_execB58Pop {s : State} (h : Inv s) : Ensures (execB58Pop s) Inv := by
  intro t ht
  by_cases hd : s.b58.phase = .drain
  · rcases execB58Pop_cases s t hd ht with ⟨-, rfl⟩ | ⟨hlt, d, c, -, -, rfl⟩
    · exact h
    · exact inv_withB58 h (b58Good_pop h.1 (inv_b58Good h) hd hlt)
  · rw [execB58Pop_of_not_drain s hd] at ht
    exact ensures_refuseSeq h t ht

theorem inv_execRgpPush8 (v : Byte) {s : State} (h : Inv s) : Ensures (execRgpPush8 v s) Inv := by
  refine ensures_whenAccepted h fun ha => ?_
  obtain ⟨hphase, -⟩ := Bool.and_eq_true_iff.1 ha
  exact ensures_respond (inv_withRgp h
    (rgpGood_push v.toNat 8 5 (inv_rgpGood h) (eq_of_beq hphase) (by decide) (by decide) v.isLt fun _ => rfl))

theorem inv_execRgpPush5 (g : Group) {s : State} (h : Inv s) : Ensures (execRgpPush5 g s) Inv := by
  refine ensures_whenAccepted h fun ha => ?_
  obtain ⟨hphase, hdir⟩ := Bool.and_eq_true_iff.1 ha
  exact ensures_respond (inv_withRgp h
    (rgpGood_push g.toNat 5 8 (inv_rgpGood h) (eq_of_beq hphase) (by decide) (by decide) g.isLt fun hd =>
      absurd ((eq_of_beq hdir).symm.trans hd) (by decide)))

theorem inv_execRgpFlush (p : Bool) {s : State} (h : Inv s) : Ensures (execRgpFlush p s) Inv := by
  refine ensures_whenAccepted h fun ha => ?_
  have hclose (out : List Byte) : Ensures (rgpClose out s) Inv :=
    ensures_respond (inv_withRgp h (rgpGood_close (inv_rgpGood h) (eq_of_beq ha)))
  split
  · exact hclose _
  · split
    · exact ensures_raise (inv_latchError _ h)
    · exact hclose []

theorem inv_pckAbsorb (d : Group) {s : State} (h : Inv s) (ha : s.pck.phase = .active) :
    Ensures (pckAbsorb d s) Inv :=
  ensures_respond (inv_withPck h (pckGood_absorb _ (inv_pckGood h) ha))

theorem inv_execPckVerify {s : State} (h : Inv s) : Ensures (execPckVerify s) Inv := by
  refine ensures_whenAccepted h fun _ => ?_
  split
  · exact ensures_raise (inv_latchError _ h)
  · exact ensures_respond h

theorem inv_exec (i : Instr) {s : State} (h : Inv s) : Ensures (exec i s) Inv := by
  cases i with
  | nop => exact ensures_respond h
  | rdsr n => exact ensures_execRdsr fun _ => h
  | srst => exact ensures_respond (inv_resetUnit s h.1)
  | b58Init m => exact ensures_respond (inv_withB58 h (b58Good_init s m (inv_b58Good h).buffer))
  | b58Push v => exact inv_execB58Push v h
  | b58Fin => exact inv_execB58Fin h
  | b58Pop => exact inv_execB58Pop h
  | rgpInit d => exact ensures_respond (inv_withRgp h (rgpGood_init d))
  | rgpPush8 v => exact inv_execRgpPush8 v h
  | rgpPush5 g => exact inv_execRgpPush5 g h
  | rgpFlush p => exact inv_execRgpFlush p h
  | pckInit => exact ensures_respond (inv_withPck h (pckGood_init _))
  | pckPfx c => exact ensures_whenAccepted h fun ha => inv_pckAbsorb _ h (eq_of_beq ha)
  | pckGrp g => exact ensures_whenAccepted h fun ha => inv_pckAbsorb g h (eq_of_beq ha)
  | pckRdsym k => exact ensures_whenAccepted h fun _ => ensures_respond h
  | pckVerify => exact inv_execPckVerify h

/-- A step, by what the host presents (00_scope.md R11, 70_reset_and_hazards.md R175). -/
theorem step_cases (s : State) :
    step s = .refused .noCommand ∨
      (∃ rest, s.inputs = .reset :: rest ∧ step s = .next (resetUnit { s with inputs := rest })) ∨
      ∃ w rest, s.inputs = .command w :: rest := by
  cases hi : s.inputs with
  | nil => exact .inl (by simp [step, fetch, hi])
  | cons x rest =>
    cases x with
    | reset => exact .inr (.inl ⟨rest, rfl, by simp [step, fetch, hi]⟩)
    | command w => exact .inr (.inr ⟨w, rest, rfl⟩)

theorem inv_step {s : State} (h : Inv s) : Ensures (step s) Inv := by
  rcases step_cases s with hstep | ⟨rest, -, hstep⟩ | ⟨w, rest, hi⟩
  · exact fun t ht => by simp [hstep] at ht
  · rw [hstep]
    exact ensures_next (inv_resetUnit _ h.1)
  · rcases step_command s w rest hi with ⟨i, -, hstep⟩ | ⟨-, hstep⟩
    · rw [hstep]
      exact inv_exec i (inv_withInputs s rest h)
    · rw [hstep]
      exact ensures_refuseIllegal h

/-- Settles O13, by the invariants each command keeps and those both resets establish. -/
theorem stepKeepsTheInvariants : Obligations.StepKeepsTheInvariants :=
  fun _ t h ht => inv_step h t ht

/-- Settles O14: under the invariants a command is answered (O15), and nothing else that a step does reads a cell. -/
theorem stepNeverFaultsUnderTheInvariants : Obligations.StepNeverFaultsUnderTheInvariants := by
  intro s f h hf
  rcases step_cases s with hstep | ⟨rest, -, hstep⟩ | ⟨w, rest, hi⟩
  · simp [hstep] at hf
  · simp [hstep] at hf
  · obtain ⟨t, -, ht, -⟩ := answeredOnce_step s w rest h hi
    simp [ht] at hf

end Sys2Proof.Machine
end

section
/-! The transitions of 10_state.md R46: which command moves which block to which phase. -/

namespace Sys2Proof.Machine

/-- The moves of B58 that R46 lists. -/
def B58Moves (i : Instr) (s t : State) : Prop :=
  t.b58.phase = s.b58.phase ∨ (∃ m, i = .b58Init m) ∧ t.b58.phase = .active ∨ i = .srst ∧ t.b58.phase = .idle ∨
    i = .b58Fin ∧ s.b58.phase = .active ∧ (t.b58.phase = .drain ∨ t.b58.phase = .error) ∨
    (∃ v, i = .b58Push v) ∧ s.b58.phase = .active ∧ t.b58.phase = .error

/-- The moves of RGP that R46 lists. -/
def RgpMoves (i : Instr) (s t : State) : Prop :=
  t.rgp.phase = s.rgp.phase ∨ (∃ d, i = .rgpInit d) ∧ t.rgp.phase = .active ∨ i = .srst ∧ t.rgp.phase = .idle ∨
    (∃ p, i = .rgpFlush p) ∧ s.rgp.phase = .active ∧ (t.rgp.phase = .idle ∨ t.rgp.phase = .error)

/-- The moves of PCK that R46 lists. -/
def PckMoves (i : Instr) (s t : State) : Prop :=
  t.pck.phase = s.pck.phase ∨ i = .pckInit ∧ t.pck.phase = .active ∨ i = .srst ∧ t.pck.phase = .idle ∨
    i = .pckVerify ∧ s.pck.phase = .active ∧ t.pck.phase = .error

/-- No block moves but as R46 says. -/
def PhasesMove (i : Instr) (s t : State) : Prop := B58Moves i s t ∧ RgpMoves i s t ∧ PckMoves i s t

section Moves

variable {i : Instr} {s t : State}

theorem phasesMove_same (hb : t.b58.phase = s.b58.phase) (hr : t.rgp.phase = s.rgp.phase)
    (hp : t.pck.phase = s.pck.phase) : PhasesMove i s t := ⟨.inl hb, .inl hr, .inl hp⟩

theorem phasesMove_b58 (hb : B58Moves i s t) (hr : t.rgp = s.rgp) (hp : t.pck = s.pck) : PhasesMove i s t :=
  ⟨hb, .inl (hr ▸ rfl), .inl (hp ▸ rfl)⟩

end Moves

/-- An accepted push of a unit leaves the other blocks alone, and its own phase unless it fails (41_base58.md R96). -/
theorem b58PushUnit_phase {u : Nat} {s t : State} (h : b58PushUnit u s = .next t) :
    (t.b58.phase = s.b58.phase ∨ t.b58.phase = .error) ∧ t.rgp = s.rgp ∧ t.pck = s.pck := by
  rcases b58PushUnit_cases u s t h with ⟨-, rfl⟩ | ⟨-, cells, -, hcases⟩
  · exact ⟨.inl rfl, rfl, rfl⟩
  · rcases hcases with ⟨-, -, rfl⟩ | ⟨-, -, rfl⟩ | ⟨r, -, hcommit⟩
    · exact ⟨.inr rfl, rfl, rfl⟩
    · exact ⟨.inl rfl, rfl, rfl⟩
    · obtain ⟨m, -, rfl⟩ := b58Commit_cases r s t hcommit
      exact ⟨.inl rfl, rfl, rfl⟩

theorem phases_execB58Push (v : Byte) (s : State) : Ensures (execB58Push v s) (PhasesMove (.b58Push v) s) := by
  refine ensures_whenAccepted (phasesMove_same rfl rfl rfl) fun ha => ?_
  have hfail {t : State} (ht : t.b58.phase = .error) : B58Moves (.b58Push v) s t :=
    .inr (.inr (.inr (.inr ⟨⟨v, rfl⟩, eq_of_beq ha, ht⟩)))
  cases b58Unit s.b58.mode v with
  | none => exact ensures_raise (phasesMove_b58 (hfail rfl) rfl rfl)
  | some u =>
    intro t ht
    obtain ⟨hphase, hr, hp⟩ := b58PushUnit_phase ht
    exact phasesMove_b58 (hphase.elim .inl hfail) hr hp

theorem phases_execB58Fin (s : State) : Ensures (execB58Fin s) (PhasesMove .b58Fin s) := by
  refine ensures_whenAccepted (phasesMove_same rfl rfl rfl) fun ha => ?_
  have hmove {t : State} (ht : t.b58.phase = .drain ∨ t.b58.phase = .error) : B58Moves .b58Fin s t :=
    .inr (.inr (.inr (.inl ⟨rfl, eq_of_beq ha, ht⟩)))
  split
  · exact ensures_raise (phasesMove_b58 (hmove (.inr rfl)) rfl rfl)
  · exact ensures_respond (phasesMove_b58 (hmove (.inl rfl)) rfl rfl)

theorem phases_execB58Pop (s : State) : Ensures (execB58Pop s) (PhasesMove .b58Pop s) := by
  intro t ht
  by_cases hd : s.b58.phase = .drain
  · rcases execB58Pop_cases s t hd ht with ⟨-, rfl⟩ | ⟨-, d, c, -, -, rfl⟩ <;> exact phasesMove_same rfl rfl rfl
  · rw [execB58Pop_of_not_drain s hd] at ht
    exact ensures_refuseSeq (P := PhasesMove .b58Pop s) (phasesMove_same rfl rfl rfl) t ht

theorem phases_execRgpFlush (p : Bool) (s : State) : Ensures (execRgpFlush p s) (PhasesMove (.rgpFlush p) s) := by
  refine ensures_whenAccepted (phasesMove_same rfl rfl rfl) fun ha => ?_
  have hmove {t : State} (ht : t.rgp.phase = .idle ∨ t.rgp.phase = .error) : RgpMoves (.rgpFlush p) s t :=
    .inr (.inr (.inr ⟨⟨p, rfl⟩, eq_of_beq ha, ht⟩))
  split
  · exact ensures_respond ⟨.inl rfl, hmove (.inl rfl), .inl rfl⟩
  · split
    · exact ensures_raise ⟨.inl rfl, hmove (.inr rfl), .inl rfl⟩
    · exact ensures_respond ⟨.inl rfl, hmove (.inl rfl), .inl rfl⟩

theorem phases_execPckVerify (s : State) : Ensures (execPckVerify s) (PhasesMove .pckVerify s) := by
  refine ensures_whenAccepted (phasesMove_same rfl rfl rfl) fun ha => ?_
  split
  · exact ensures_raise ⟨.inl rfl, .inl rfl, .inr (.inr (.inr ⟨rfl, eq_of_beq ha, rfl⟩))⟩
  · exact ensures_respond (phasesMove_same rfl rfl rfl)

theorem phases_exec (i : Instr) (s : State) : Ensures (exec i s) (PhasesMove i s) := by
  have hsame {t : State} (hb : t.b58.phase = s.b58.phase := by rfl) (hr : t.rgp.phase = s.rgp.phase := by rfl)
      (hp : t.pck.phase = s.pck.phase := by rfl) : PhasesMove i s t := phasesMove_same hb hr hp
  cases i with
  | nop => exact ensures_respond hsame
  | rdsr n => exact ensures_execRdsr fun _ => hsame
  | srst =>
    exact ensures_respond
      ⟨.inr (.inr (.inl ⟨rfl, rfl⟩)), .inr (.inr (.inl ⟨rfl, rfl⟩)), .inr (.inr (.inl ⟨rfl, rfl⟩))⟩
  | b58Init m => exact ensures_respond ⟨.inr (.inl ⟨⟨m, rfl⟩, rfl⟩), .inl rfl, .inl rfl⟩
  | b58Push v => exact phases_execB58Push v s
  | b58Fin => exact phases_execB58Fin s
  | b58Pop => exact phases_execB58Pop s
  | rgpInit d => exact ensures_respond ⟨.inl rfl, .inr (.inl ⟨⟨d, rfl⟩, rfl⟩), .inl rfl⟩
  | rgpPush8 v => exact ensures_whenAccepted hsame fun _ => ensures_respond hsame
  | rgpPush5 g => exact ensures_whenAccepted hsame fun _ => ensures_respond hsame
  | rgpFlush p => exact phases_execRgpFlush p s
  | pckInit => exact ensures_respond ⟨.inl rfl, .inl rfl, .inr (.inl ⟨rfl, rfl⟩)⟩
  | pckPfx c => exact ensures_whenAccepted hsame fun _ => ensures_respond hsame
  | pckGrp g => exact ensures_whenAccepted hsame fun _ => ensures_respond hsame
  | pckRdsym k => exact ensures_whenAccepted hsame fun _ => ensures_respond hsame
  | pckVerify => exact phases_execPckVerify s

/-- Settles O23, by the moves of each command. -/
theorem phasesMoveOnlyAsTheRuleSays : Obligations.PhasesMoveOnlyAsTheRuleSays :=
  fun i s t ht => phases_exec i s t ht

end Sys2Proof.Machine
end

section
/-! Cells of the buffer that are not significant (10_state.md R24, R45): two runs from states that differ only there. -/

namespace Sys2Proof.Machine

/-- `s` with other contents of the buffer. -/
def State.withBuf (s : State) (m : Memory) : State := { s with buf := m }

@[simp] theorem State.withBuf_cfg (s : State) (m : Memory) : (s.withBuf m).cfg = s.cfg := rfl
@[simp] theorem State.withBuf_b58 (s : State) (m : Memory) : (s.withBuf m).b58 = s.b58 := rfl
@[simp] theorem State.withBuf_buf (s : State) (m : Memory) : (s.withBuf m).buf = m := rfl

/-- The buffer `m` has the significant cells of `s`. -/
def SameSignificantCells (s : State) (m : Memory) : Prop :=
  b58Busy s → ∀ a, a < s.b58.blen.toNat → Memory.get a s.buf = Memory.get a m

theorem sameButStaleCells_iff (s t : State) :
    sameButStaleCells s t ↔ ∃ m, t = s.withBuf m ∧ SameSignificantCells s m :=
  ⟨fun ⟨ht, h⟩ => ⟨t.buf, ht, h⟩, fun ⟨_, ht, h⟩ => ht ▸ ⟨rfl, h⟩⟩

/-- Whatever next state `res` gives, `res'` gives the same but for cells that are not significant; the responses are
part of the state. -/
def AnsweredAlike (res res' : Result) : Prop :=
  Ensures res fun t => ∃ m, res' = .next (t.withBuf m) ∧ SameSignificantCells t m

/-- No command is accepted or refused by what the buffer holds (60_exceptions.md R155). -/
theorem accepts_withBuf (i : Instr) (s : State) (m : Memory) : accepts (s.withBuf m) i = accepts s i := by
  cases i <;> rfl

section Rules

variable {s : State} {m : Memory}

theorem alike_respond (data : List Byte) (h : SameSignificantCells s m) :
    AnsweredAlike (respond data s) (respond data (s.withBuf m)) := ensures_respond ⟨m, rfl, h⟩

theorem alike_refuseSeq (h : SameSignificantCells s m) :
    AnsweredAlike (refuseSeq s) (refuseSeq (s.withBuf m)) := ensures_refuseSeq ⟨m, rfl, h⟩

theorem alike_refuseIllegal (h : SameSignificantCells s m) :
    AnsweredAlike (refuseIllegal s) (refuseIllegal (s.withBuf m)) := ensures_refuseIllegal ⟨m, rfl, h⟩

/-- A data error of B58 ends the transaction, and the other blocks' do not touch it. -/
theorem sameSignificantCells_latchError (k : Kind) (h : SameSignificantCells s m) :
    SameSignificantCells (latchError k s) m := by
  cases hk : kindBlock k with
  | sys => cases k <;> cases hk
  | b58 =>
    rw [latchError_b58 k s hk]
    exact fun hbusy => absurd hbusy (by simp)
  | rgp =>
    rw [latchError_rgp k s hk]
    exact h
  | pck =>
    rw [latchError_pck k s hk]
    exact h

theorem latchError_withBuf (k : Kind) : latchError k (s.withBuf m) = (latchError k s).withBuf m := by
  cases k <;> rfl

theorem alike_raise (k : Kind) (h : SameSignificantCells s m) :
    AnsweredAlike (raise k s) (raise k (s.withBuf m)) := by
  rw [raise_eq, raise_eq, latchError_withBuf]
  exact ensures_next ⟨m, rfl, sameSignificantCells_latchError k h⟩

theorem alike_whenAccepted {i : Instr} {body body' : Result} (h : SameSignificantCells s m)
    (hbody : accepts s i = true → AnsweredAlike body body') :
    AnsweredAlike (whenAccepted i s body) (whenAccepted i (s.withBuf m) body') := by
  cases ha : accepts s i with
  | true =>
    rw [whenAccepted_of_accepts i s _ ha, whenAccepted_of_accepts i _ _ (accepts_withBuf i s m ▸ ha)]
    exact hbody ha
  | false =>
    rw [whenAccepted_of_not_accepts i s _ ha, whenAccepted_of_not_accepts i _ _ (accepts_withBuf i s m ▸ ha)]
    exact alike_refuseSeq h

end Rules

/-! ### The three accesses to the buffer -/

theorem readCell_congr (cap : Nat) {m m' : Memory} {a : Nat} (h : Memory.get a m = Memory.get a m') :
    readCell cap m a = readCell cap m' a := by simp only [readCell, h]

theorem readCells_congr (cap : Nat) {m m' : Memory} {a k : Nat}
    (h : ∀ c, c < a + k → Memory.get c m = Memory.get c m') : readCells cap m a k = readCells cap m' a k := by
  induction k generalizing a with
  | zero => rfl
  | succ k ih => simp only [readCells, readCell_congr cap (h a (by omega)), ih (a := a + 1) fun c hc => h c (by omega)]

/-- Whether a write succeeds does not depend on what the buffer holds. -/
theorem writeCells_ok_of_ok (cap : Nat) {m n m' : Memory} {a : Nat} {vs : List Byte}
    (h : writeCells cap m a vs = .ok n) : ∃ n', writeCells cap m' a vs = .ok n' := by
  induction vs generalizing a m m' with
  | nil => exact ⟨m', rfl⟩
  | cons v vs ih =>
    unfold writeCells at h
    cases hw : writeCell cap m a v with
    | error f => simp [hw] at h
    | ok m1 =>
      obtain ⟨ha, -⟩ := (writeCell_ok ..).1 hw
      obtain ⟨n', hn'⟩ := ih (m' := Memory.set a v m') (by simpa [hw] using h)
      exact ⟨n', by simp [writeCells, (writeCell_ok ..).2 ⟨ha, rfl⟩, hn']⟩

/-- After the same write to the same cells, those cells agree. -/
theorem get_writeCells_congr (cap : Nat) {m m' n n' : Memory} {vs : List Byte} (h : writeCells cap m 0 vs = .ok n)
    (h' : writeCells cap m' 0 vs = .ok n') {c : Nat} (hc : c < vs.length) : Memory.get c n = Memory.get c n' := by
  obtain ⟨hget, -⟩ := writeCells_ok _ _ _ _ _ h
  obtain ⟨hget', -⟩ := writeCells_ok _ _ _ _ _ h'
  have e := hget c hc
  have e' := hget' c hc
  rw [Nat.zero_add] at e e'
  rw [e, e']

/-! ### The commands -/

/-- The commit of a push overwrites every cell that is significant afterwards (41_base58.md R96). -/
theorem alike_b58Commit (s : State) (m : Memory) (r : Absorbed) :
    AnsweredAlike (b58Commit r s) (b58Commit r (s.withBuf m)) := by
  intro t ht
  obtain ⟨n, hn, rfl⟩ := b58Commit_cases r s t ht
  obtain ⟨n', hn'⟩ := writeCells_ok_of_ok s.cfg.cap (m' := m) hn
  refine ⟨n', by simp [b58Commit, hn', State.withBuf, respond, State.say], fun _ c hc => ?_⟩
  refine get_writeCells_congr s.cfg.cap hn hn' (lt_of_lt_of_le hc ?_)
  simpa using Nat.mod_le r.cells.length 256

section Commands

variable {s : State} {m : Memory} (h : SameSignificantCells s m)
include h

theorem alike_b58Overflow : AnsweredAlike (b58Overflow s) (b58Overflow (s.withBuf m)) := by
  cases hm : s.b58.mode with
  | enc =>
    rw [b58Overflow_enc s hm, b58Overflow_enc (s.withBuf m) hm]
    exact alike_raise _ h
  | dec =>
    rw [b58Overflow_dec s hm, b58Overflow_dec (s.withBuf m) hm]
    exact ensures_respond ⟨m, rfl, h⟩

/-- An accepted push reads significant cells only (41_base58.md R93). -/
theorem alike_b58PushUnit (u : Nat) (ha : s.b58.phase = .active) :
    AnsweredAlike (b58PushUnit u s) (b58PushUnit u (s.withBuf m)) := by
  have hread : readCells s.cfg.cap m 0 s.b58.blen.toNat = readCells s.cfg.cap s.buf 0 s.b58.blen.toNat :=
    readCells_congr s.cfg.cap fun c hc => (h (.inl ha) c (by omega)).symm
  simp only [b58PushUnit, State.withBuf_b58, State.withBuf_cfg, State.withBuf_buf, hread]
  split
  · exact alike_respond [] h
  · cases readCells s.cfg.cap s.buf 0 s.b58.blen.toNat with
    | error f => exact fun t ht => by cases ht
    | ok cells =>
      dsimp only
      cases b58Absorb s.cfg.cap s.b58 (cells.map BitVec.toNat) u with
      | none => exact alike_b58Overflow h
      | some r => exact alike_b58Commit s m r

theorem alike_execB58Push (v : Byte) : AnsweredAlike (execB58Push v s) (execB58Push v (s.withBuf m)) := by
  refine alike_whenAccepted h fun ha => ?_
  rw [State.withBuf_b58]
  cases b58Unit s.b58.mode v with
  | none => exact alike_raise _ h
  | some u => exact alike_b58PushUnit h u (eq_of_beq ha)

theorem alike_execB58Fin : AnsweredAlike (execB58Fin s) (execB58Fin (s.withBuf m)) := by
  refine alike_whenAccepted h fun ha => ?_
  rw [State.withBuf_b58]
  split
  · exact alike_raise _ h
  · exact ensures_respond ⟨m, rfl, fun _ => h (.inl (eq_of_beq ha))⟩

/-- The cell `B58.POP` delivers is significant while there is output left (41_base58.md R98). -/
theorem b58PopDigit_withBuf (hd : s.b58.phase = .drain) (hl : s.b58.rptr.toNat < b58OutLen s.b58) :
    b58PopDigit (s.withBuf m) = b58PopDigit s := by
  by_cases hlead : s.b58.rptr.toNat < s.b58.lz.toNat
  · exact (if_pos hlead).trans (if_pos hlead).symm
  · have hcell : s.b58.blen.toNat - 1 - (s.b58.rptr.toNat - s.b58.lz.toNat) < s.b58.blen.toNat := by
      unfold b58OutLen at hl
      omega
    have hread := readCell_congr s.cfg.cap (h (.inr hd) _ hcell)
    exact (if_neg hlead).trans (hread.symm.trans (if_neg hlead).symm)

theorem alike_execB58Pop : AnsweredAlike (execB58Pop s) (execB58Pop (s.withBuf m)) := by
  refine alike_whenAccepted h fun ha => ?_
  have hd : s.b58.phase = .drain := eq_of_beq ha
  rw [State.withBuf_b58]
  split
  · exact alike_respond [] h
  · rename_i hl
    rw [b58PopDigit_withBuf h hd (Nat.lt_of_not_le hl)]
    cases b58PopDigit s with
    | error f => exact fun t ht => by cases ht
    | ok d =>
      dsimp only
      cases b58OutUnit s.b58.mode d with
      | none => exact fun t ht => by cases ht
      | some c => exact ensures_respond ⟨m, rfl, h⟩

theorem alike_execRdsr (n : Byte) : AnsweredAlike (execRdsr n s) (execRdsr n (s.withBuf m)) := by
  have hreg : statusReg (s.withBuf m) n = statusReg s n := rfl
  simp only [execRdsr, hreg]
  cases statusReg s n with
  | none => exact alike_refuseIllegal h
  | some v => exact alike_respond _ h

theorem alike_rgpPush (v win wout : Nat) :
    AnsweredAlike (rgpPush v win wout s) (rgpPush v win wout (s.withBuf m)) := ensures_respond ⟨m, rfl, h⟩

theorem alike_rgpClose (out : List Byte) : AnsweredAlike (rgpClose out s) (rgpClose out (s.withBuf m)) :=
  ensures_respond ⟨m, rfl, h⟩

theorem alike_execRgpFlush (p : Bool) : AnsweredAlike (execRgpFlush p s) (execRgpFlush p (s.withBuf m)) := by
  refine alike_whenAccepted h fun _ => ?_
  change AnsweredAlike _ (if p then rgpClose (rgpPadded s.rgp) _ else if rgpBadTail s.cfg s.rgp then _ else _)
  split
  · exact alike_rgpClose h _
  · split
    · exact alike_raise _ h
    · exact alike_rgpClose h []

theorem alike_pckAbsorb (d : Group) : AnsweredAlike (pckAbsorb d s) (pckAbsorb d (s.withBuf m)) :=
  ensures_respond ⟨m, rfl, h⟩

theorem alike_execPckVerify : AnsweredAlike (execPckVerify s) (execPckVerify (s.withBuf m)) := by
  refine alike_whenAccepted h fun _ => ?_
  change AnsweredAlike _ (if pckResult s.cfg s.pck ≠ 0 then _ else _)
  split
  · exact alike_raise _ h
  · exact alike_respond [] h

theorem alike_exec (i : Instr) : AnsweredAlike (exec i s) (exec i (s.withBuf m)) := by
  cases i with
  | nop => exact alike_respond [] h
  | rdsr n => exact alike_execRdsr h n
  | srst => exact ensures_respond ⟨[], rfl, fun _ _ _ => rfl⟩
  | b58Init b => exact ensures_respond ⟨m, rfl, fun _ _ ha => absurd ha (Nat.not_lt_zero _)⟩
  | b58Push v => exact alike_execB58Push h v
  | b58Fin => exact alike_execB58Fin h
  | b58Pop => exact alike_execB58Pop h
  | rgpInit d => exact ensures_respond ⟨m, rfl, h⟩
  | rgpPush8 v => exact alike_whenAccepted h fun _ => alike_rgpPush h _ _ _
  | rgpPush5 g => exact alike_whenAccepted h fun _ => alike_rgpPush h _ _ _
  | rgpFlush p => exact alike_execRgpFlush h p
  | pckInit => exact ensures_respond ⟨m, rfl, h⟩
  | pckPfx c => exact alike_whenAccepted h fun _ => alike_pckAbsorb h _
  | pckGrp g => exact alike_whenAccepted h fun _ => alike_pckAbsorb h g
  | pckRdsym k => exact alike_whenAccepted h fun _ => alike_respond _ h
  | pckVerify => exact alike_execPckVerify h

end Commands

/-- Settles O22, by the agreement of each command's two runs. -/
theorem staleCellsAreUnobservable : Obligations.StaleCellsAreUnobservable := by
  intro i s s' t hs ht
  obtain ⟨m, rfl, h⟩ := (sameButStaleCells_iff s s').1 hs
  obtain ⟨m', ht', h'⟩ := alike_exec h i t ht
  exact ⟨_, ht', (sameButStaleCells_iff t _).2 ⟨m', rfl, h'⟩⟩

end Sys2Proof.Machine
end

section
/-! The alphabet's two tables (10_state.md R41, R42). -/

namespace Sys2Proof.Machine

/-- The codes of the alphabet as numbers, in the order of their digits. -/
def alphaCodes : List Nat := b58Alpha.map BitVec.toNat

/-- A greater digit has a greater code. -/
theorem alphaCodes_rising : alphaCodes.Pairwise (· < ·) := List.isChain_iff_pairwise.1 (by decide)

theorem b58Alpha_nodup : b58Alpha.Nodup :=
  List.Nodup.of_map BitVec.toNat (alphaCodes_rising.imp Nat.ne_of_lt)

theorem mem_alphaCodes (c : Byte) : c.toNat ∈ alphaCodes ↔ c ∈ b58Alpha :=
  List.mem_map_of_injective fun _ _ h => BitVec.eq_of_toNat_eq h

theorem b58Char_eq_some_iff (d : Nat) (c : Byte) : b58Char d = some c ↔ ∃ h : d < b58Alpha.length, b58Alpha[d] = c :=
  List.getElem?_eq_some_iff

/-- `B58INV` inverts `B58ALPHA`, since no character stands in the alphabet twice. -/
theorem b58Inv_eq_some_iff (c : Byte) (d : Nat) : b58Inv c = some d ↔ b58Char d = some c := by
  rw [b58Char_eq_some_iff, b58Inv, List.findIdx?_eq_some_iff_getElem]
  refine exists_congr fun hd => ?_
  simp only [beq_iff_eq]
  refine ⟨fun h => h.1, fun hc => ⟨hc, fun j hj hjc => ?_⟩⟩
  exact Nat.ne_of_lt hj (b58Alpha_nodup.getElem_inj_iff.1 (hjc.trans hc.symm))

/-- The codes without a digit are those outside the alphabet. -/
theorem b58Inv_eq_none_iff (c : Byte) : b58Inv c = none ↔ c.toNat ∉ alphaCodes := by
  simp only [mem_alphaCodes, b58Inv, List.findIdx?_eq_none_iff, beq_eq_false_iff_ne]
  exact ⟨fun h hc => h c hc rfl, fun h x hx hxc => h (hxc ▸ hx)⟩

/-- The ranges of codes that R42 lists hold no character of the alphabet. -/
theorem alphaCodes_range : ∀ k ∈ alphaCodes,
    ¬(k < 0x31 ∨ 0x3A ≤ k ∧ k ≤ 0x40 ∨ 0x5B ≤ k ∧ k ≤ 0x60 ∨ 0x7B ≤ k) := by
  decide

/-- A list without repetitions is the members of a part of it and the rest. -/
theorem length_filter_not_mem {l part : List Nat} (hl : l.Nodup) (hp : part.Nodup) (hsub : part ⊆ l) :
    (l.filter fun k => !decide (k ∈ part)).length + part.length = l.length := by
  have hperm : (l.filter fun k => decide (k ∈ part)).Perm part := by
    refine (List.perm_ext_iff_of_nodup (hl.filter _) hp).2 fun k => ?_
    simpa using @hsub k
  rw [Nat.add_comm, ← hperm.length_eq]
  exact (List.length_eq_length_filter_add _).symm

/-- Of the 256 codes all but the 58 of the alphabet have no digit. -/
theorem length_codes_without_digit :
    ((List.range 256).filter fun k => (b58Inv (BitVec.ofNat 8 k)).isNone).length = 198 := by
  have hcodes : ∀ k ∈ List.range 256, (b58Inv (BitVec.ofNat 8 k)).isNone = !decide (k ∈ alphaCodes) := fun k hk => by
    have hk8 : (BitVec.ofNat 8 k).toNat = k := Nat.mod_eq_of_lt (List.mem_range.1 hk)
    rw [Bool.eq_iff_iff, Option.isNone_iff_eq_none, b58Inv_eq_none_iff, hk8]
    simp
  have hlt : ∀ k ∈ alphaCodes, k < 256 := by decide
  have hcount := length_filter_not_mem List.nodup_range (alphaCodes_rising.imp Nat.ne_of_lt)
    fun k hk => List.mem_range.2 (hlt k hk)
  have h58 : alphaCodes.length = 58 := rfl
  rw [List.length_range, h58] at hcount
  rw [List.filter_congr hcodes]
  exact Nat.add_right_cancel hcount

/-- Settles O29, by the codes of the alphabet rising with the digits. -/
theorem inverseTableInvertsTheAlphabet : Obligations.InverseTableInvertsTheAlphabet :=
  ⟨b58Inv_eq_some_iff, length_codes_without_digit, by decide, by decide, by decide, by decide,
    fun c hc => (b58Inv_eq_none_iff c).2 fun hmem => alphaCodes_range _ hmem hc, by decide, by decide⟩

end Sys2Proof.Machine
end

section
/-! The eleven status registers (10_state.md R29 to R40), field by field. -/

namespace Sys2Proof.Machine

/-- The register numbers that exist (R29). -/
theorem statusReg_exists (s : State) (n : Byte) (h : n.toNat ≤ 10) : ∃ v, statusReg s n = some v := by
  unfold statusReg
  generalize n.toNat = k at h
  interval_cases k <;> exact ⟨_, rfl⟩

section Fields

open BitVec

variable {hiWidth loWidth start len : Nat} {hi : BitVec hiWidth} {lo : BitVec loWidth}

/-- A field above the lowest one is a field of what stands above. -/
theorem field_above {x : BitVec len} (h : hi.extractLsb' start len = x) :
    (hi ++ lo).extractLsb' (start + loWidth) len = x := by
  rw [extractLsb'_append_eq_of_le (Nat.le_add_left ..), Nat.add_sub_cancel, h]

/-- A field of one bit is that bit. -/
theorem getLsbD_of_field {v : StatusWord} {x : BitVec 1} (h : v.extractLsb' start 1 = x) :
    v.getLsbD start = x.getLsbD 0 := by
  rw [← h, getLsbD_extractLsb']
  rfl

theorem getLsbD_flagBit (b : Bool) : (flagBit b).getLsbD 0 = b := by cases b <;> rfl

theorem getLsbD_modeBit (m : Mode) : (modeBit m).getLsbD 0 = true ↔ m = .dec := by cases m <;> decide

theorem getLsbD_dirBit (d : Dir) : (dirBit d).getLsbD 0 = true ↔ d = .fiveToEight := by cases d <;> decide

theorem srCfg_fields (c : Config) :
    (srCfg c).extractLsb' 0 8 = BitVec.ofNat 8 c.cap ∧ (srCfg c).getLsbD 8 = c.rejectExcess ∧
      (srCfg c).extractLsb' 9 7 = 0 :=
  ⟨extractLsb'_append_eq_right,
    (getLsbD_of_field (field_above extractLsb'_append_eq_right)).trans (getLsbD_flagBit _),
    field_above extractLsb'_append_eq_left⟩

theorem srB58st_phase (b : B58Rec) : (srB58st b).extractLsb' 0 2 = phaseCode b.phase := extractLsb'_append_eq_right

theorem srB58st_mode (b : B58Rec) : (srB58st b).getLsbD 2 = true ↔ b.mode = .dec :=
  getLsbD_of_field (v := srB58st b) (field_above extractLsb'_append_eq_right) ▸ getLsbD_modeBit b.mode

theorem srB58st_flags (b : B58Rec) : (srB58st b).getLsbD 3 = b.leading ∧ (srB58st b).getLsbD 4 = b.ovf :=
  ⟨(getLsbD_of_field (field_above (field_above extractLsb'_append_eq_right))).trans (getLsbD_flagBit _),
    (getLsbD_of_field (field_above (field_above (field_above extractLsb'_append_eq_right)))).trans
      (getLsbD_flagBit _)⟩

theorem srB58st_upper (b : B58Rec) :
    (srB58st b).extractLsb' 5 3 = 0 ∧ (srB58st b).extractLsb' 8 4 = b.err ∧ (srB58st b).extractLsb' 12 4 = 0 :=
  ⟨field_above (field_above (field_above (field_above extractLsb'_append_eq_right))),
    field_above (field_above (field_above (field_above (field_above extractLsb'_append_eq_right)))),
    field_above (field_above (field_above (field_above (field_above extractLsb'_append_eq_left))))⟩

theorem srRgpst_phase (r : RgpRec) : (srRgpst r).extractLsb' 0 2 = phaseCode r.phase := extractLsb'_append_eq_right

theorem srRgpst_dir (r : RgpRec) : (srRgpst r).getLsbD 2 = true ↔ r.dir = .fiveToEight :=
  getLsbD_of_field (v := srRgpst r) (field_above extractLsb'_append_eq_right) ▸ getLsbD_dirBit r.dir

theorem srRgpst_upper (r : RgpRec) :
    (srRgpst r).extractLsb' 3 3 = r.nbits ∧ (srRgpst r).extractLsb' 6 2 = 0 ∧
      (srRgpst r).extractLsb' 8 4 = r.err ∧ (srRgpst r).extractLsb' 12 4 = 0 :=
  ⟨field_above (field_above extractLsb'_append_eq_right),
    field_above (field_above (field_above extractLsb'_append_eq_right)),
    field_above (field_above (field_above (field_above extractLsb'_append_eq_right))),
    field_above (field_above (field_above (field_above extractLsb'_append_eq_left)))⟩

theorem srPckst_phase (p : PckRec) : (srPckst p).extractLsb' 0 2 = phaseCode p.phase := extractLsb'_append_eq_right

theorem srPckst_upper (p : PckRec) :
    (srPckst p).extractLsb' 2 6 = 0 ∧ (srPckst p).extractLsb' 8 4 = p.err ∧ (srPckst p).extractLsb' 12 4 = 0 :=
  ⟨field_above extractLsb'_append_eq_right, field_above (field_above extractLsb'_append_eq_right),
    field_above (field_above extractLsb'_append_eq_left)⟩

/-- `B58_CAP` of a legal build fits into its field (R31). -/
theorem srCfg_cap (c : Config) (h : c.legal) : ((srCfg c).extractLsb' 0 8).toNat = c.cap := by
  have hcap := h.2
  rw [(srCfg_fields c).1]
  exact Nat.mod_eq_of_lt (by omega)

/-- The phase field of a status register, for each of the four phases (R46). -/
theorem phaseField_iff {x : BitVec 2} {p : Phase} (h : x = phaseCode p) :
    (x = 0 ↔ p = .idle) ∧ (x = 1 ↔ p = .active) ∧ (x = 2 ↔ p = .drain) ∧ (x = 3 ↔ p = .error) := by
  subst h
  cases p <;> decide

/-- Settles O27, by the fields of each register's concatenation. -/
theorem statusRegistersShowTheState : Obligations.StatusRegistersShowTheState := by
  intro s
  obtain ⟨-, hreject, hcfg⟩ := srCfg_fields s.cfg
  obtain ⟨b0, b1, b2, b3⟩ := phaseField_iff (srB58st_phase s.b58)
  obtain ⟨r0, r1, r2, r3⟩ := phaseField_iff (srRgpst_phase s.rgp)
  obtain ⟨p0, p1, p2, p3⟩ := phaseField_iff (srPckst_phase s.pck)
  obtain ⟨hleading, hovf⟩ := srB58st_flags s.b58
  exact ⟨rfl, ⟨srCfg s.cfg, rfl, srCfg_cap s.cfg, hreject, hcfg⟩,
    ⟨srB58st s.b58, rfl, b0, b1, b2, b3, srB58st_mode s.b58, hleading, hovf, srB58st_upper s.b58⟩,
    ⟨srB58len s.b58, rfl, extractLsb'_append_eq_right, extractLsb'_append_eq_left⟩,
    ⟨srB58rp s.b58, rfl, extractLsb'_append_eq_right, extractLsb'_append_eq_left⟩,
    ⟨srRgpst s.rgp, rfl, r0, r1, r2, r3, srRgpst_dir s.rgp, srRgpst_upper s.rgp⟩,
    ⟨srRgpacc s.rgp, rfl, extractLsb'_append_eq_right, extractLsb'_append_eq_left⟩,
    ⟨srPckst s.pck, rfl, p0, p1, p2, p3, srPckst_upper s.pck⟩,
    rfl, rfl, ⟨srPckhi s.pck, rfl, extractLsb'_append_eq_right, extractLsb'_append_eq_left⟩⟩

end Fields

end Sys2Proof.Machine
end

section
/-! The reset state (10_state.md R45, 70_reset_and_hazards.md R176): what its status registers show and which commands
it takes. -/

namespace Sys2Proof.Machine

/-- A legal command that its block does not accept is refused with `E_SEQ` (60_exceptions.md R155). -/
theorem exec_of_not_accepts (i : Instr) (s : State) (h : accepts s i = false) : exec i s = refuseSeq s := by
  cases i with
  | nop | rdsr | srst | b58Init | rgpInit | pckInit => cases h
  | _ => exact whenAccepted_of_not_accepts _ s _ h

/-- The status registers above `SR[1]` show zeros in reset. -/
theorem statusReg_reset (n : Byte) (h2 : 2 ≤ n.toNat) (h10 : n.toNat ≤ 10) :
    statusReg State.reset n = some 0x0000 := by
  unfold statusReg
  generalize n.toNat = k at h2 h10
  interval_cases k <;> rfl

/-- The command has no condition on the phase of a block (60_exceptions.md R155). -/
def Unconditional (i : Instr) : Prop :=
  i = .nop ∨ (∃ n, i = .rdsr n) ∨ i = .srst ∨ (∃ m, i = .b58Init m) ∨ (∃ d, i = .rgpInit d) ∨ i = .pckInit

theorem unconditional_answers (i : Instr) (s : State) (hwf : i.wf = true) (h : Unconditional i) :
    acceptedBy i s ∧ ∃ (t : State) (r : RespWord), exec i s = .next t ∧ t.resps = s.resps ++ [r] ∧ respErr r = 0 := by
  obtain rfl | ⟨n, rfl⟩ | rfl | ⟨m, rfl⟩ | ⟨d, rfl⟩ | rfl := h
  case inr.inl =>
    obtain ⟨v, hv⟩ := statusReg_exists s n (of_decide_eq_true hwf)
    exact ⟨trivial, _, _, by simp only [exec, execRdsr, hv]; rfl, rfl, respErr_respWord 0 _⟩
  all_goals exact ⟨trivial, _, _, rfl, rfl, respErr_respWord 0 []⟩

/-- In reset every other command is refused, since no block is in ACTIVE or DRAIN. -/
theorem unconditional_of_accepts_reset (i : Instr) (h : accepts State.reset i = true) : Unconditional i := by
  cases i with
  | nop => exact .inl rfl
  | rdsr n => exact .inr (.inl ⟨n, rfl⟩)
  | srst => exact .inr (.inr (.inl rfl))
  | b58Init m => exact .inr (.inr (.inr (.inl ⟨m, rfl⟩)))
  | rgpInit d => exact .inr (.inr (.inr (.inr (.inl ⟨d, rfl⟩))))
  | pckInit => exact .inr (.inr (.inr (.inr (.inr rfl))))
  | _ => cases h

/-- Settles O11: the registers by evaluation, the answers by the acceptance table. -/
theorem resetStateHoldsTheSpecValues : Obligations.ResetStateHoldsTheSpecValues := by
  refine ⟨rfl, fun _ => rfl, rfl, rfl, rfl, rfl, statusReg_reset,
    fun i hwf h => unconditional_answers i State.reset hwf h, fun i hnop hrdsr hsrst hb58 hrgp hpck => ?_⟩
  have hnot : ¬ Unconditional i := by
    rintro (rfl | ⟨n, rfl⟩ | rfl | ⟨m, rfl⟩ | ⟨d, rfl⟩ | rfl)
    exacts [hnop rfl, hrdsr n rfl, hsrst rfl, hb58 m rfl, hrgp d rfl, hpck rfl]
  have hrefused : accepts State.reset i = false :=
    Bool.eq_false_iff.2 fun ha => hnot (unconditional_of_accepts_reset i ha)
  rw [exec_of_not_accepts i _ hrefused]
  rfl

end Sys2Proof.Machine
end

section
/-! The encoded word of a legal instruction decodes to it (30_encoding.md R70, R71, R74). -/

namespace Sys2Proof

/-! ### The fields of a command word (30_encoding.md R70) -/

section Fields

open BitVec

variable (unit func : BitVec 4) (imm : Byte)

@[simp] theorem immField_commandWord : immField (commandWord unit func imm) = imm := extractLsb'_append_eq_right

@[simp] theorem funcField_commandWord : funcField (commandWord unit func imm) = func :=
  (extractLsb'_append_eq_of_le (by decide)).trans extractLsb'_append_eq_right

@[simp] theorem unitField_commandWord : unitField (commandWord unit func imm) = unit :=
  (extractLsb'_append_eq_of_le (by decide)).trans extractLsb'_append_eq_left

end Fields

/-! ### The operand forms (30_encoding.md R71) -/

theorem formN_of_wf {n : Byte} (h : (Instr.rdsr n).wf = true) : formN n .rdsr = .ok (.rdsr n) :=
  if_pos (of_decide_eq_true h)

theorem formD5_setWidth (g : Group) (i : Group → Instr) : formD5 (g.setWidth 8) i = .ok (i g) := by
  have hhigh : (g.setWidth 8).extractLsb' 5 3 = 0 := by revert g; decide
  have hlow : (g.setWidth 8).extractLsb' 0 5 = g := by revert g; decide
  rw [formD5, if_pos hhigh, hlow]

theorem formK_setWidth (k : BitVec 3) (i : BitVec 3 → Instr) : formK (k.setWidth 8) i = .ok (i k) := by
  have hhigh : (k.setWidth 8).extractLsb' 3 5 = 0 := by revert k; decide
  have hlow : (k.setWidth 8).extractLsb' 0 3 = k := by revert k; decide
  rw [formK, if_pos hhigh, hlow]

/-! ### The blocks -/

/-- The command's row of 30_encoding.md R74, found by the `UNIT` field. -/
theorem decode_commandWord (unit func : BitVec 4) (imm : Byte) :
    decode (commandWord unit func imm) =
      if unit = 0 then decodeSys func imm
      else if unit = 1 then decodeB58 func imm
      else if unit = 2 then decodeRgp func imm
      else if unit = 3 then decodePck func imm
      else .error .noSuchUnit := by
  simp only [decode, unitField_commandWord, funcField_commandWord, immField_commandWord]

theorem decode_encode {i : Instr} (h : i.wf = true) : decode (encode i) = .ok i := by
  cases i with
  | rdsr n => exact (decode_commandWord 0 1 n).trans (formN_of_wf h)
  | b58Init m => cases m <;> rfl
  | b58Push v => exact decode_commandWord 1 1 v
  | rgpInit d => cases d <;> rfl
  | rgpPush8 v => exact decode_commandWord 2 1 v
  | rgpPush5 g => exact (decode_commandWord 2 2 _).trans (formD5_setWidth g .rgpPush5)
  | rgpFlush p => cases p <;> rfl
  | pckPfx c => exact decode_commandWord 3 1 c
  | pckGrp g => exact (decode_commandWord 3 2 _).trans (formD5_setWidth g .pckGrp)
  | pckRdsym k => exact (decode_commandWord 3 3 _).trans (formK_setWidth k .pckRdsym)
  | nop | srst | b58Fin | b58Pop | pckInit | pckVerify => rfl

end Sys2Proof
end

section
/-! What a command reads and writes (20_memory.md R65): its own block, in the build it is in, and nothing else. -/

namespace Sys2Proof.Machine

/-- The block as `s` has it (for the system commands, the whole tuple), in the build of `s`, among the other blocks and
the ports of `z`. -/
def State.among (s : State) (b : Block) (z : State) : State :=
  match b with
  | .sys => { s with inputs := z.inputs, resps := z.resps }
  | .b58 => { z with cfg := s.cfg, b58 := s.b58, buf := s.buf }
  | .rgp => { z with cfg := s.cfg, rgp := s.rgp }
  | .pck => { z with cfg := s.cfg, pck := s.pck }

/-- To agree with `s` on a block and on the build is to have them as `s` has them. -/
theorem eq_among_iff (b : Block) (s z : State) : z = s.among b z ↔ s.cfg = z.cfg ∧ sameBlock b s z := by
  obtain ⟨_, _, _, _, _, _, _⟩ := z
  cases b <;> simp [State.among, sameBlock, eq_comm]

@[simp] theorem among_cfg (s : State) (b : Block) (z : State) : (s.among b z).cfg = s.cfg := by cases b <;> rfl
@[simp] theorem among_inputs (s : State) (b : Block) (z : State) : (s.among b z).inputs = z.inputs := by cases b <;> rfl
@[simp] theorem among_resps (s : State) (b : Block) (z : State) : (s.among b z).resps = z.resps := by cases b <;> rfl
@[simp] theorem among_b58_b58 (s z : State) : (s.among .b58 z).b58 = s.b58 := rfl
@[simp] theorem among_b58_buf (s z : State) : (s.among .b58 z).buf = s.buf := rfl
@[simp] theorem among_rgp_rgp (s z : State) : (s.among .rgp z).rgp = s.rgp := rfl
@[simp] theorem among_pck_pck (s z : State) : (s.among .pck z).pck = s.pck := rfl

theorem among_self (s : State) (b : Block) : s.among b s = s := by cases b <;> rfl

theorem among_say (u : State) (b : Block) (z : State) (r : RespWord) : u.among b (z.say r) = (u.among b z).say r := by
  cases b <;> rfl

theorem sameBlock_refl (b : Block) (s : State) : sameBlock b s s := ((eq_among_iff b s s).1 (among_self s b).symm).2

theorem sameBlock_symm {b : Block} {s t : State} (h : sameBlock b s t) : sameBlock b t s := by
  cases b with
  | sys =>
    obtain ⟨hb, hm, hr, hp⟩ := h
    exact ⟨hb.symm, hm.symm, hr.symm, hp.symm⟩
  | b58 =>
    obtain ⟨hb, hm⟩ := h
    exact ⟨hb.symm, hm.symm⟩
  | rgp | pck => exact Eq.symm h

theorem sameBlock_say (b : Block) (s t : State) (r : RespWord) : sameBlock b s (t.say r) ↔ sameBlock b s t := by
  cases b <;> rfl

/-- The new content of the block is the same wherever it is put. -/
theorem sameBlock_among (b : Block) (u s s' : State) (r : RespWord) :
    sameBlock b ((u.among b s).say r) ((u.among b s').say r) := by
  cases b with
  | sys => exact ⟨rfl, rfl, rfl, rfl⟩
  | b58 => exact ⟨rfl, rfl⟩
  | rgp | pck => rfl

/-- A new content of one of the three blocks leaves the other two. -/
theorem sameBlock_among_of_ne {b c : Block} (s u : State) (hb : b ≠ .sys) (hc : c ≠ .sys) (h : b ≠ c) :
    sameBlock c s (u.among b s) := by
  cases c with
  | sys => contradiction
  | b58 =>
    cases b with
    | sys | b58 => contradiction
    | rgp | pck => exact ⟨rfl, rfl⟩
  | rgp =>
    cases b with
    | sys | rgp => contradiction
    | b58 | pck => rfl
  | pck =>
    cases b with
    | sys | pck => contradiction
    | b58 | rgp => rfl

/-- New contents of two different blocks can be put in place in either order. -/
theorem among_comm {b c : Block} {x y : State} (s : State) (hb : b ≠ .sys) (hc : c ≠ .sys) (h : b ≠ c)
    (hcfg : x.cfg = y.cfg) : x.among b (y.among c s) = y.among c (x.among b s) := by
  cases c with
  | sys => contradiction
  | b58 =>
    cases b with
    | sys | b58 => contradiction
    | rgp | pck => simp only [State.among, hcfg]
  | rgp =>
    cases b with
    | sys | rgp => contradiction
    | b58 | pck => simp only [State.among, hcfg]
  | pck =>
    cases b with
    | sys | pck => contradiction
    | b58 | rgp => simp only [State.among, hcfg]

/-- No command is accepted or refused by what another block holds (60_exceptions.md R155). -/
theorem accepts_among (i : Instr) (s z : State) : accepts (s.among i.block z) i = accepts s i := by cases i <;> rfl

theorem latchError_among (k : Kind) (s z : State) :
    latchError k (s.among (kindBlock k) z) = (latchError k s).among (kindBlock k) z := by cases k <;> rfl

/-! ### One rule per shared operation -/

/-- The outcome `res` in `s` and the outcome `res'` in a state that has its other blocks and its ports from `z` are the
same on the block and leave the rest alone: one response and one new content `u` of the block, or one fault. -/
def LocalTo (b : Block) (s z : State) (res res' : Result) : Prop :=
  (∃ (u : State) (r : RespWord), u.cfg = s.cfg ∧ res = .next ((u.among b s).say r) ∧
    res' = .next ((u.among b z).say r)) ∨
  ∃ f, res = .fault f ∧ res' = .fault f

section Rules

variable {b : Block} {s z : State}

/-- An answer in `u`, an update of `s` confined to the block, and in `u'`, the same update of the other state. -/
theorem local_next {u u' : State} {r : RespWord} (hc : u.cfg = s.cfg) (hu : u = u.among b s) (hu' : u' = u.among b z) :
    LocalTo b s z (.next (u.say r)) (.next (u'.say r)) :=
  .inl ⟨u, r, hc, by rw [← hu], by rw [← hu']⟩

theorem local_respond {data : List Byte} {u u' : State} (hc : u.cfg = s.cfg := by rfl) (hu : u = u.among b s := by rfl)
    (hu' : u' = u.among b z := by rfl) : LocalTo b s z (respond data u) (respond data u') := local_next hc hu hu'

theorem local_fault (f : Fault) : LocalTo b s z (.fault f) (.fault f) := .inr ⟨f, rfl, rfl⟩

theorem local_refuseSeq : LocalTo b s z (refuseSeq s) (refuseSeq (s.among b z)) :=
  local_next rfl (among_self s b).symm rfl

theorem local_refuseIllegal : LocalTo b s z (refuseIllegal s) (refuseIllegal (s.among b z)) :=
  local_next rfl (among_self s b).symm rfl

theorem local_raise (k : Kind) : LocalTo (kindBlock k) s z (raise k s) (raise k (s.among (kindBlock k) z)) :=
  local_next (latchError_cfg k s) (by rw [← latchError_among, among_self]) (latchError_among k s z)

theorem local_whenAccepted {i : Instr} {body body' : Result} (h : LocalTo i.block s z body body') :
    LocalTo i.block s z (whenAccepted i s body) (whenAccepted i (s.among i.block z) body') := by
  unfold whenAccepted
  rw [accepts_among]
  split
  · exact h
  · exact local_refuseSeq

end Rules

/-! ### The commands -/

section Commands

variable (s z : State)

theorem local_b58Overflow : LocalTo .b58 s z (b58Overflow s) (b58Overflow (s.among .b58 z)) := by
  cases hm : s.b58.mode with
  | enc =>
    rw [b58Overflow_enc s hm, b58Overflow_enc (s.among .b58 z) hm]
    exact local_raise .eCapacity
  | dec =>
    rw [b58Overflow_dec s hm, b58Overflow_dec (s.among .b58 z) hm]
    exact local_respond

theorem local_b58Commit (r : Absorbed) : LocalTo .b58 s z (b58Commit r s) (b58Commit r (s.among .b58 z)) := by
  simp only [b58Commit, among_cfg, among_b58_b58, among_b58_buf]
  cases writeCells s.cfg.cap s.buf 0 (r.cells.map (BitVec.ofNat 8)) with
  | error f => exact local_fault f
  | ok m => exact local_respond

theorem local_b58PushUnit (u : Nat) : LocalTo .b58 s z (b58PushUnit u s) (b58PushUnit u (s.among .b58 z)) := by
  simp only [b58PushUnit, among_cfg, among_b58_b58, among_b58_buf]
  split
  · exact local_respond
  · cases readCells s.cfg.cap s.buf 0 s.b58.blen.toNat with
    | error f => exact local_fault f
    | ok cells =>
      dsimp only
      cases b58Absorb s.cfg.cap s.b58 (cells.map BitVec.toNat) u with
      | none => exact local_b58Overflow s z
      | some r => exact local_b58Commit s z r

theorem local_execB58Push (v : Byte) : LocalTo .b58 s z (execB58Push v s) (execB58Push v (s.among .b58 z)) := by
  refine local_whenAccepted (i := .b58Push v) ?_
  rw [among_b58_b58]
  cases b58Unit s.b58.mode v with
  | none => exact local_raise .invalidCharacter
  | some u => exact local_b58PushUnit s z u

theorem local_execB58Fin : LocalTo .b58 s z (execB58Fin s) (execB58Fin (s.among .b58 z)) := by
  refine local_whenAccepted (i := .b58Fin) ?_
  rw [among_b58_b58]
  split
  · exact local_raise .invalidLength
  · exact local_respond

theorem local_execB58Pop : LocalTo .b58 s z (execB58Pop s) (execB58Pop (s.among .b58 z)) := by
  have hdigit : b58PopDigit (s.among .b58 z) = b58PopDigit s := rfl
  refine local_whenAccepted (i := .b58Pop) ?_
  rw [among_b58_b58, hdigit]
  split
  · exact local_respond
  · cases b58PopDigit s with
    | error f => exact local_fault f
    | ok d =>
      dsimp only
      cases b58OutUnit s.b58.mode d with
      | none => exact local_fault .alphaRange
      | some c => exact local_respond

theorem local_execRgpFlush (p : Bool) : LocalTo .rgp s z (execRgpFlush p s) (execRgpFlush p (s.among .rgp z)) := by
  refine local_whenAccepted (i := .rgpFlush p) ?_
  rw [among_rgp_rgp, among_cfg]
  split
  · exact local_respond
  · split
    · exact local_raise .invalidPadding
    · exact local_respond

theorem local_execPckVerify : LocalTo .pck s z (execPckVerify s) (execPckVerify (s.among .pck z)) := by
  refine local_whenAccepted (i := .pckVerify) ?_
  rw [among_pck_pck, among_cfg]
  split
  · exact local_raise .checksumMismatch
  · exact local_respond

theorem local_execRdsr (n : Byte) : LocalTo .sys s z (execRdsr n s) (execRdsr n (s.among .sys z)) := by
  have hreg : statusReg (s.among .sys z) n = statusReg s n := rfl
  simp only [execRdsr, hreg]
  cases statusReg s n with
  | none => exact local_refuseIllegal
  | some v => exact local_respond

/-- Every command reads and writes its own block and the build only (20_memory.md R65). -/
theorem local_exec (i : Instr) : LocalTo i.block s z (exec i s) (exec i (s.among i.block z)) := by
  cases i with
  | nop => exact local_respond
  | rdsr n => exact local_execRdsr s z n
  | srst => exact local_respond
  | b58Init m => exact local_respond
  | b58Push v => exact local_execB58Push s z v
  | b58Fin => exact local_execB58Fin s z
  | b58Pop => exact local_execB58Pop s z
  | rgpInit d => exact local_respond
  | rgpPush8 v => exact local_whenAccepted (i := .rgpPush8 v) local_respond
  | rgpPush5 g => exact local_whenAccepted (i := .rgpPush5 g) local_respond
  | rgpFlush p => exact local_execRgpFlush s z p
  | pckInit => exact local_respond
  | pckPfx c => exact local_whenAccepted (i := .pckPfx c) local_respond
  | pckGrp g => exact local_whenAccepted (i := .pckGrp g) local_respond
  | pckRdsym k => exact local_whenAccepted (i := .pckRdsym k) local_respond
  | pckVerify => exact local_execPckVerify s z

end Commands

/-! ### Answered commands -/

/-- An answered command has put a content `u` in its block, and does so in every state that agrees on the block. -/
theorem exec_next_local {i : Instr} {s s' t : State} (hc : s.cfg = s'.cfg) (hb : sameBlock i.block s s')
    (ht : exec i s = .next t) :
    ∃ (u : State) (r : RespWord), u.cfg = s.cfg ∧ t = (u.among i.block s).say r ∧
      exec i s' = .next ((u.among i.block s').say r) := by
  have hlocal := local_exec s s' i
  rw [← (eq_among_iff i.block s s').2 ⟨hc, hb⟩] at hlocal
  rcases hlocal with ⟨u, r, hu, hres, hres'⟩ | ⟨f, hf, -⟩
  · exact ⟨u, r, hu, Host.Outcome.next.inj (ht.symm.trans hres), hres'⟩
  · cases ht.symm.trans hf

/-- `NOP` and `RDSR` only answer (44_system.md R140, R141). -/
theorem exec_sys_next {i : Instr} (s : State) (hb : i.block = .sys) (hi : i ≠ .srst) :
    Ensures (exec i s) fun t => ∃ r, t = s.say r := by
  cases i with
  | nop => exact ensures_respond ⟨_, rfl⟩
  | rdsr n => exact ensures_execRdsr fun r => ⟨r, rfl⟩
  | srst => exact absurd rfl hi
  | _ => cases hb

/-- The frame of a command: the other blocks, `SRST` apart (20_memory.md R65). -/
theorem exec_keeps_other_block {i : Instr} {s t : State} {c : Block} (hc : c ≠ .sys) (hne : i.block ≠ c)
    (hi : i ≠ .srst) (ht : exec i s = .next t) : sameBlock c s t := by
  by_cases hsys : i.block = .sys
  · obtain ⟨r, rfl⟩ := exec_sys_next s hsys hi t ht
    exact (sameBlock_say c s s r).2 (sameBlock_refl c s)
  · obtain ⟨u, r, -, rfl, -⟩ := exec_next_local rfl (sameBlock_refl i.block s) ht
    exact (sameBlock_say c s _ r).2 (sameBlock_among_of_ne s u hsys hc hne)

/-- Settles O19, by the frame of every command. -/
theorem commandsWriteOnlyTheirOwnBlock : Obligations.CommandsWriteOnlyTheirOwnBlock := by
  intro i s t ht
  have hother {c : Block} (hc : c ≠ .sys) (hne : i.block ≠ c) (hi : i ≠ .srst) : sameBlock c s t :=
    exec_keeps_other_block hc hne hi ht
  obtain ⟨u, r, hu, rfl, -⟩ := exec_next_local rfl (sameBlock_refl i.block s) ht
  exact ⟨by simpa using hu, by simp, hother (by decide), hother (by decide), hother (by decide)⟩

/-- Settles O20: the command puts the same content in the block of both states. -/
theorem commandsReadOnlyTheirOwnBlock : Obligations.CommandsReadOnlyTheirOwnBlock := by
  intro i s s' t _ hc hb ht
  obtain ⟨u, r, -, rfl, ht'⟩ := exec_next_local hc hb ht
  exact ⟨_, r, ht', sameBlock_among i.block u s s' r, by simp, by simp⟩

/-! ### Two commands of different blocks -/

theorem execAll_cons_next (i : Instr) (is : List Instr) (s t : State) :
    execAll (i :: is) s = .next t ↔ ∃ t₁, exec i s = .next t₁ ∧ execAll is t₁ = .next t := by
  simp only [execAll]
  cases exec i s <;> simp

theorem execAll_singleton (i : Instr) (s : State) : execAll [i] s = exec i s := by
  simp only [execAll]
  cases exec i s <;> rfl

/-- After a command of one block, a command of another finds the build and its own block as they were. -/
theorem exec_keeps_next_block {i j : Instr} {s t : State} (hi : i.block ≠ .sys) (hj : j.block ≠ .sys)
    (hij : i.block ≠ j.block) (ht : exec i s = .next t) : s.cfg = t.cfg ∧ sameBlock j.block s t := by
  obtain ⟨hcfg, -⟩ := commandsWriteOnlyTheirOwnBlock i s t ht
  refine ⟨hcfg.symm, exec_keeps_other_block hj hij ?_ ht⟩
  rintro rfl
  exact hi rfl

/-- Settles O21: each command finds its block as it would if it came first, and the contents they put in different blocks
go together in either order. -/
theorem commandsOfDifferentBlocksCommute : Obligations.CommandsOfDifferentBlocksCommute := by
  intro i j s t hi hj hij hrun
  obtain ⟨t₁, ht₁, ht⟩ := (execAll_cons_next i [j] s t).1 hrun
  rw [execAll_singleton] at ht
  obtain ⟨hcfg₁, hblock₁⟩ := exec_keeps_next_block hi hj hij ht₁
  obtain ⟨v, rj, hv, rfl, hu₁⟩ := exec_next_local hcfg₁.symm (sameBlock_symm hblock₁) ht
  obtain ⟨hcfg₂, hblock₂⟩ := exec_keeps_next_block hj hi hij.symm hu₁
  obtain ⟨w, ri, hw, rfl, hu⟩ := exec_next_local hcfg₂ hblock₂ ht₁
  refine ⟨_, ri, rj, (execAll_cons_next j [i] s _).2 ⟨_, hu₁, (execAll_singleton i _).trans hu⟩, ?_⟩
  have hcfg : w.cfg = v.cfg := hw.trans (by simpa [hw] using hv.symm)
  rw [among_say, among_say, among_comm s hi hj hij hcfg]
  exact ⟨⟨rfl, rfl, rfl, rfl⟩, rfl, rfl, by simp, by simp⟩

end Sys2Proof.Machine
end

section
/-! The words of legal commands, run (00_scope.md R13, 20_memory.md R63). -/

namespace Sys2Proof.Machine

theorem among_present (u : State) (b : Block) (s : State) (ws : List CmdWord) :
    u.among b (s.present ws) = (u.among b s).present ws := by cases b <;> rfl

theorem present_among_present (s : State) (b : Block) (ws ws' : List CmdWord) :
    (s.present ws).among b (s.present ws') = s.present ws' := by cases b <;> rfl

/-- What the host has still to present is out of a command's reach (10_state.md R47). -/
theorem exec_present (i : Instr) (s : State) (ws : List CmdWord) :
    (∃ t : State, exec i (s.present []) = .next (t.present []) ∧ exec i (s.present ws) = .next (t.present ws)) ∨
      ∃ f, exec i (s.present []) = .fault f ∧ exec i (s.present ws) = .fault f := by
  have hlocal := local_exec (s.present []) (s.present ws) i
  rw [present_among_present] at hlocal
  rcases hlocal with ⟨u, r, -, hnil, hws⟩ | hfault
  · rw [among_present] at hnil hws
    exact .inl ⟨(u.among i.block s).say r, hnil, hws⟩
  · exact .inr hfault

theorem step_present {i : Instr} (hi : i.wf = true) (s : State) (ws : List CmdWord) :
    step (s.present (encode i :: ws)) = exec i (s.present ws) := by
  simp only [step, fetch, State.present, List.map_cons, decode_encode hi]

theorem core_run_of_next (k : Nat) {s t : State} (h : step s = .next t) : core.run (k + 1) s = core.run k t := by
  have hstep : core.step s = .next t := h
  simp only [Host.Core.run, hstep]

theorem core_run_of_fault (k : Nat) {s : State} {f : Fault} (h : step s = .fault f) :
    core.run (k + 1) s = .fault f := by
  have hstep : core.step s = .fault f := h
  simp only [Host.Core.run, hstep]

/-- Settles O10, by induction on the commands: a step takes the first word, and its command leaves the others. -/
theorem runOfWordsIsTheirCommandsInOrder : Obligations.RunOfWordsIsTheirCommandsInOrder := by
  intro is
  induction is with
  | nil => exact fun _ _ => rfl
  | cons i is ih =>
    intro s hwf
    obtain ⟨hi, his⟩ := List.forall_mem_cons.1 hwf
    have hstep := step_present hi s (is.map encode)
    rcases exec_present i s (is.map encode) with ⟨t, hnil, hws⟩ | ⟨f, hnil, hws⟩
    · simp only [execAll, hnil]
      exact (core_run_of_next is.length (hstep.trans hws)).trans (ih t his)
    · simp only [execAll, hnil]
      exact core_run_of_fault is.length (hstep.trans hws)

end Sys2Proof.Machine
end

section
/-! The decoder reads back exactly the words the encoder writes (30_encoding.md R70, R71, R74, R75). -/

namespace Sys2Proof

/-! ### The operand forms, read backwards (30_encoding.md R71) -/

theorem eq_setWidth_of_upper_zero {n k m : Nat} {x : BitVec n} (hn : n ≤ k + m) (h : x.extractLsb' k m = 0) :
    x = (x.extractLsb' 0 k).setWidth n := by
  ext j hj
  by_cases hk : j < k
  · simp [hk, BitVec.getLsbD_eq_getElem hj]
  · have hbit := congrArg (BitVec.getLsbD · (j - k)) h
    have hm : j - k < m := by omega
    have hsum : k + (j - k) = j := by omega
    simpa [hk, hm, hsum, BitVec.getLsbD_eq_getElem hj] using hbit

theorem extractLsb'_one_eq_ofBool_iff {n : Nat} (w : BitVec n) (b : Bool) :
    w.extractLsb' 0 1 = BitVec.ofBool b ↔ w.getLsbD 0 = b := by
  simp [BitVec.eq_of_getElem_eq_iff]

theorem bitOfPad_eq_setWidth (p : Bool) : bitOfPad p = (BitVec.ofBool p).setWidth 8 := by cases p <;> rfl

theorem bitOfMode_modeOfBit (b : Bool) : bitOfMode (modeOfBit b) = bitOfPad b := by cases b <;> rfl

theorem bitOfDir_dirOfBit (b : Bool) : bitOfDir (dirOfBit b) = bitOfPad b := by cases b <;> rfl

section Forms

variable {imm : Byte} {j : Instr}

theorem formZ_ok {i : Instr} (h : formZ imm i = .ok j) : imm = 0 ∧ i = j := by
  unfold formZ at h
  split at h
  · next hz => exact ⟨hz, Except.ok.inj h⟩
  · cases h

theorem formF_ok {i : Bool → Instr} (h : formF imm i = .ok j) : ∃ b, imm = bitOfPad b ∧ i b = j := by
  unfold formF at h
  split at h
  · next hz =>
    refine ⟨imm.getLsbD 0, ?_, Except.ok.inj h⟩
    rw [bitOfPad_eq_setWidth, ← (extractLsb'_one_eq_ofBool_iff imm _).2 rfl]
    exact eq_setWidth_of_upper_zero (by decide) hz
  · cases h

theorem formD5_ok {i : Group → Instr} (h : formD5 imm i = .ok j) : ∃ g : Group, imm = g.setWidth 8 ∧ i g = j := by
  unfold formD5 at h
  split at h
  · next hz => exact ⟨_, eq_setWidth_of_upper_zero (by decide) hz, Except.ok.inj h⟩
  · cases h

theorem formK_ok {i : BitVec 3 → Instr} (h : formK imm i = .ok j) : ∃ k : BitVec 3, imm = k.setWidth 8 ∧ i k = j := by
  unfold formK at h
  split at h
  · next hz => exact ⟨_, eq_setWidth_of_upper_zero (by decide) hz, Except.ok.inj h⟩
  · cases h

theorem formN_ok (h : formN imm .rdsr = .ok j) : (Instr.rdsr imm).wf = true ∧ .rdsr imm = j := by
  unfold formN at h
  split at h
  · next hn => exact ⟨decide_eq_true hn, Except.ok.inj h⟩
  · cases h

end Forms

/-! ### The blocks, read backwards (30_encoding.md R74) -/

theorem commandWord_fields (w : CmdWord) : commandWord (unitField w) (funcField w) (immField w) = w := by
  have hupper : unitField w ++ funcField w = w.extractLsb' 8 8 := BitVec.extractLsb'_append_extractLsb'_eq_extractLsb' rfl
  rw [commandWord, hupper]
  exact (BitVec.extractLsb'_append_extractLsb'_eq_extractLsb' rfl).trans BitVec.extractLsb'_eq_self

/-- `i` is a legal command, and its word has the given fields (30_encoding.md R70, R71). -/
def Spells (unit func : BitVec 4) (imm : Byte) (i : Instr) : Prop := i.wf = true ∧ encode i = commandWord unit func imm

section Blocks

variable {func : BitVec 4} {imm : Byte} {i : Instr}

theorem spells_of_decodeSys (h : decodeSys func imm = .ok i) : Spells 0 func imm i := by
  unfold decodeSys at h
  split at h
  next hf => subst hf; obtain ⟨rfl, rfl⟩ := formZ_ok h; exact ⟨rfl, rfl⟩
  split at h
  next hf => subst hf; obtain ⟨hwf, rfl⟩ := formN_ok h; exact ⟨hwf, rfl⟩
  split at h
  next hf => subst hf; obtain ⟨rfl, rfl⟩ := formZ_ok h; exact ⟨rfl, rfl⟩
  cases h

theorem spells_of_decodeB58 (h : decodeB58 func imm = .ok i) : Spells 1 func imm i := by
  unfold decodeB58 at h
  split at h
  next hf =>
    subst hf; obtain ⟨b, rfl, rfl⟩ := formF_ok h
    exact ⟨rfl, congrArg (commandWord 1 0) (bitOfMode_modeOfBit b)⟩
  split at h
  next hf => subst hf; cases h; exact ⟨rfl, rfl⟩
  split at h
  next hf => subst hf; obtain ⟨rfl, rfl⟩ := formZ_ok h; exact ⟨rfl, rfl⟩
  split at h
  next hf => subst hf; obtain ⟨rfl, rfl⟩ := formZ_ok h; exact ⟨rfl, rfl⟩
  cases h

theorem spells_of_decodeRgp (h : decodeRgp func imm = .ok i) : Spells 2 func imm i := by
  unfold decodeRgp at h
  split at h
  next hf =>
    subst hf; obtain ⟨b, rfl, rfl⟩ := formF_ok h
    exact ⟨rfl, congrArg (commandWord 2 0) (bitOfDir_dirOfBit b)⟩
  split at h
  next hf => subst hf; cases h; exact ⟨rfl, rfl⟩
  split at h
  next hf => subst hf; obtain ⟨g, rfl, rfl⟩ := formD5_ok h; exact ⟨rfl, rfl⟩
  split at h
  next hf => subst hf; obtain ⟨p, rfl, rfl⟩ := formF_ok h; exact ⟨rfl, rfl⟩
  cases h

theorem spells_of_decodePck (h : decodePck func imm = .ok i) : Spells 3 func imm i := by
  unfold decodePck at h
  split at h
  next hf => subst hf; obtain ⟨rfl, rfl⟩ := formZ_ok h; exact ⟨rfl, rfl⟩
  split at h
  next hf => subst hf; cases h; exact ⟨rfl, rfl⟩
  split at h
  next hf => subst hf; obtain ⟨g, rfl, rfl⟩ := formD5_ok h; exact ⟨rfl, rfl⟩
  split at h
  next hf => subst hf; obtain ⟨k, rfl, rfl⟩ := formK_ok h; exact ⟨rfl, rfl⟩
  split at h
  next hf => subst hf; obtain ⟨rfl, rfl⟩ := formZ_ok h; exact ⟨rfl, rfl⟩
  cases h

end Blocks

theorem spells_of_decode {w : CmdWord} {i : Instr} (h : decode w = .ok i) :
    Spells (unitField w) (funcField w) (immField w) i := by
  unfold decode at h
  split at h
  next hu => rw [hu]; exact spells_of_decodeSys h
  split at h
  next hu => rw [hu]; exact spells_of_decodeB58 h
  split at h
  next hu => rw [hu]; exact spells_of_decodeRgp h
  split at h
  next hu => rw [hu]; exact spells_of_decodePck h
  cases h

theorem encode_of_decode {w : CmdWord} {i : Instr} (h : decode w = .ok i) : i.wf = true ∧ encode i = w := by
  obtain ⟨hwf, hword⟩ := spells_of_decode h
  exact ⟨hwf, hword.trans (commandWord_fields w)⟩

/-- The legal words are the words of the legal instructions, each of one of them. -/
theorem decode_eq_ok_iff (w : CmdWord) (i : Instr) : decode w = .ok i ↔ i.wf = true ∧ encode i = w := by
  refine ⟨encode_of_decode, ?_⟩
  rintro ⟨hwf, rfl⟩
  exact decode_encode hwf

/-- Settles O1, by the word of each command. -/
theorem decodeOfEncodeIsTheInstruction : Obligations.DecodeOfEncodeIsTheInstruction := fun _ hwf => decode_encode hwf

/-- Settles O2, by the row each block's decoder finds. -/
theorem encodeOfDecodeIsTheWord : Obligations.EncodeOfDecodeIsTheWord := fun _ _ h => encode_of_decode h

end Sys2Proof
end

section
/-! The opcode map by match and mask (30_encoding.md R74): a word is a row's command when its fixed bits are the row's and
its operand bits are the operand's. -/

namespace Sys2Proof

/-! ### The fixed bits and the operand bits of a word -/

/-- The mask of a row whose operand is the `k` low bits. -/
def fixedMask (k : Nat) : CmdWord := BitVec.allOnes 16 <<< k

theorem getElem_fixedMask {k j : Nat} (hj : j < 16) : (fixedMask k)[j] = !decide (j < k) := by
  rw [fixedMask, BitVec.getElem_shiftLeft, BitVec.getElem_allOnes, Bool.and_true]

theorem eq_iff_fixed_and_operand (k : Nat) (v w : CmdWord) :
    v = w ↔ w &&& fixedMask k = v &&& fixedMask k ∧ w.extractLsb' 0 k = v.extractLsb' 0 k := by
  refine ⟨fun h => by simp [h], fun ⟨hfixed, hoperand⟩ => ?_⟩
  ext j hj
  by_cases hk : j < k
  · have hbit := congrArg (BitVec.getLsbD · j) hoperand
    simpa [hk, BitVec.getLsbD_eq_getElem hj, eq_comm] using hbit
  · have hbit := congrArg (BitVec.getLsbD · j) hfixed
    simpa [getElem_fixedMask hj, hk, BitVec.getLsbD_eq_getElem hj, eq_comm] using hbit

theorem encode_row (i : Instr) : Laws.EncodeRow.Statement i := by
  cases i with
  | nop => exact Laws.EncodeRow.nop
  | rdsr n => exact Laws.EncodeRow.rdsr n
  | srst => exact Laws.EncodeRow.srst
  | b58Init m => exact Laws.EncodeRow.b58Init m
  | b58Push v => exact Laws.EncodeRow.b58Push v
  | b58Fin => exact Laws.EncodeRow.b58Fin
  | b58Pop => exact Laws.EncodeRow.b58Pop
  | rgpInit d => exact Laws.EncodeRow.rgpInit d
  | rgpPush8 v => exact Laws.EncodeRow.rgpPush8 v
  | rgpPush5 g => exact Laws.EncodeRow.rgpPush5 g
  | rgpFlush p => exact Laws.EncodeRow.rgpFlush p
  | pckInit => exact Laws.EncodeRow.pckInit
  | pckPfx c => exact Laws.EncodeRow.pckPfx c
  | pckGrp g => exact Laws.EncodeRow.pckGrp g
  | pckRdsym k => exact Laws.EncodeRow.pckRdsym k
  | pckVerify => exact Laws.EncodeRow.pckVerify

/-! ### The rows, by the width of the operand -/

section Rows

variable {w : CmdWord} {i : Instr}

/-- A row whose operand is the `k` low bits, with the value `x` in them. -/
theorem decode_eq_ok_iff_row {k : Nat} {x : BitVec k} (hmask : (Laws.rowOf i).2 = fixedMask k)
    (hx : (encode i).extractLsb' 0 k = x) (hwf : i.wf = true) :
    decode w = .ok i ↔ w &&& (Laws.rowOf i).2 = (Laws.rowOf i).1 ∧ w.extractLsb' 0 k = x := by
  rw [decode_eq_ok_iff, eq_iff_fixed_and_operand k, ← hmask, encode_row i hwf, hx]
  simp [hwf]

/-- A row of form `Z`: the mask covers the whole word. -/
theorem decode_eq_ok_iff_rowZ (hmask : (Laws.rowOf i).2 = 0xFFFF) (hwf : i.wf = true) :
    decode w = .ok i ↔ w &&& (Laws.rowOf i).2 = (Laws.rowOf i).1 := by
  rw [decode_eq_ok_iff_row (k := 0) hmask (BitVec.of_length_zero) hwf]
  simp [BitVec.of_length_zero]

/-- A row of form `F` with the flag `b`. -/
theorem decode_eq_ok_iff_rowF {b : Bool} (hmask : (Laws.rowOf i).2 = fixedMask 1) (hb : (encode i).getLsbD 0 = b)
    (hwf : i.wf = true) :
    decode w = .ok i ↔ w &&& (Laws.rowOf i).2 = (Laws.rowOf i).1 ∧ w.getLsbD 0 = b := by
  rw [decode_eq_ok_iff_row hmask ((extractLsb'_one_eq_ofBool_iff _ b).2 hb) hwf, extractLsb'_one_eq_ofBool_iff]

end Rows

theorem operandBits_commandWord {k : Nat} (unit func : BitVec 4) (x : BitVec k) (hk : k ≤ 8) :
    (commandWord unit func (x.setWidth 8)).extractLsb' 0 k = x := by
  rw [commandWord, BitVec.extractLsb'_append_eq_of_add_le (by omega), ← BitVec.setWidth_eq_extractLsb' hk,
    BitVec.setWidth_setWidth_of_le _ hk, BitVec.setWidth_eq]

theorem decode_eq_ok_rdsr_iff (w : CmdWord) (n : Byte) :
    decode w = .ok (.rdsr n) ↔ w &&& 0xFF00 = 0x0100 ∧ w.extractLsb' 0 8 = n ∧ n.toNat ≤ 10 := by
  by_cases hn : n.toNat ≤ 10
  · rw [decode_eq_ok_iff_row (i := .rdsr n) rfl (immField_commandWord 0 1 n) (decide_eq_true hn)]
    simp [Laws.rowOf, hn]
  · simp [decode_eq_ok_iff, Instr.wf, lastStatusReg, hn]

/-- Settles O3, row by row. -/
theorem decodeFollowsTheMatchAndMaskTable : Obligations.DecodeFollowsTheMatchAndMaskTable := fun w =>
  ⟨decode_eq_ok_iff_rowZ rfl rfl,
    decode_eq_ok_rdsr_iff w,
    decode_eq_ok_iff_rowZ rfl rfl,
    decode_eq_ok_iff_rowF rfl rfl rfl,
    decode_eq_ok_iff_rowF rfl rfl rfl,
    fun v => decode_eq_ok_iff_row rfl (immField_commandWord 1 1 v) rfl,
    decode_eq_ok_iff_rowZ rfl rfl,
    decode_eq_ok_iff_rowZ rfl rfl,
    decode_eq_ok_iff_rowF rfl rfl rfl,
    decode_eq_ok_iff_rowF rfl rfl rfl,
    fun v => decode_eq_ok_iff_row rfl (immField_commandWord 2 1 v) rfl,
    fun g => decode_eq_ok_iff_row rfl (operandBits_commandWord 2 2 g (by decide)) rfl,
    fun p => decode_eq_ok_iff_rowF rfl (by cases p <;> rfl) rfl,
    decode_eq_ok_iff_rowZ rfl rfl,
    fun c => decode_eq_ok_iff_row rfl (immField_commandWord 3 1 c) rfl,
    fun g => decode_eq_ok_iff_row rfl (operandBits_commandWord 3 2 g (by decide)) rfl,
    fun k => decode_eq_ok_iff_row rfl (operandBits_commandWord 3 3 k (by decide)) rfl,
    decode_eq_ok_iff_rowZ rfl rfl⟩

/-- Settles O4: the legal words are those of the commands they spell; of the others the decoder names the cause. -/
theorem decodeReadsWordsOfTheSpec : Obligations.DecodeReadsWordsOfTheSpec :=
  ⟨decode_encode (i := .rdsr 10) rfl, decode_encode (i := .b58Push 0x31) rfl,
    decode_encode (i := .rgpInit .fiveToEight) rfl, decode_encode (i := .rgpPush5 28) rfl,
    decode_encode (i := .pckRdsym 7) rfl, rfl, rfl, rfl, rfl⟩

end Sys2Proof
end

section
/-! The response word (30_encoding.md R72) and the step of a legal command word (R79). -/

namespace Sys2Proof.Machine

theorem respData_respWord (e : ErrCode) (data : List Byte) (h : data.length ≤ 2) : respData (respWord e data) = data := by
  rw [respData, toNat_respCount_respWord e data h, respD0_respWord, respD1_respWord]
  match data, h with
  | [], _ => rfl
  | [_], _ => rfl
  | [_, _], _ => rfl

/-- Settles O6, field by field. -/
theorem responseWordHoldsErrCountAndData : Obligations.ResponseWordHoldsErrCountAndData := fun e data h =>
  ⟨respErr_respWord e data, respWord_reserved e data, toNat_respCount_respWord e data h, respD0_respWord e data,
    respD1_respWord e data, respData_respWord e data h⟩

theorem step_of_decode {s : State} {w : CmdWord} {rest : List HostInput} {i : Instr} (hi : s.inputs = .command w :: rest)
    (hd : decode w = .ok i) : step s = exec i { s with inputs := rest } := by
  simp only [step, fetch, hi, hd]

theorem withFetchWord_toNat (s : State) (w : CmdWord) : s.withFetchWord 16 w.toNat = presentNext w s := by
  rw [State.withFetchWord, Nat.mod_eq_of_lt w.isLt, BitVec.ofNat_toNat, BitVec.setWidth_eq]

/-- Settles O7: taking the presented word leaves the state it was presented in. -/
theorem stepRunsTheDecodedCommand : Obligations.StepRunsTheDecodedCommand := by
  refine ⟨fun s w rest i hi hd => step_of_decode hi hd, fun s w i hd => ?_⟩
  rw [withFetchWord_toNat]
  exact step_of_decode (presentNext_inputs w s) hd

end Sys2Proof.Machine
end

section
/-! The assembler emits only legal commands (30_encoding.md R77, R78). -/

namespace Sys2Proof.Machine

/-- Every command that `f` makes of an operand it takes is legal. -/
def EmitsLegal (f : AsmOperand → Option (List Instr)) : Prop :=
  ∀ (o : AsmOperand) (is : List Instr), f o = some is → ∀ i ∈ is, i.wf = true

theorem emitsLegal_asmPseudo {is : List Instr} (h : ∀ i ∈ is, i.wf = true) : EmitsLegal (asmPseudo is) := by
  intro o js hjs
  cases o with
  | none => exact Option.some.inj hjs ▸ h
  | num _ | chr _ | str _ => cases hjs

theorem emitsLegal_asmZ {i : Instr} (h : i.wf = true) : EmitsLegal (asmZ i) := by
  intro o js hjs
  cases o with
  | none => exact Option.some.inj hjs ▸ List.forall_mem_singleton.2 h
  | num _ | chr _ | str _ => cases hjs

theorem emitsLegal_asmNum {limit : Nat} {i : Nat → Instr} (h : ∀ n ≤ limit, (i n).wf = true) :
    EmitsLegal (asmNum limit i) := by
  intro o js hjs
  cases o with
  | num n =>
    obtain ⟨hn, hi⟩ := Option.ite_none_right_eq_some.1 hjs
    exact Option.some.inj hi ▸ List.forall_mem_singleton.2 (h n hn)
  | none | chr _ | str _ => cases hjs

theorem emitsLegal_asmD8 {i : Byte → Instr} (h : ∀ v, (i v).wf = true) : EmitsLegal (asmD8 i) := by
  intro o js hjs
  cases o with
  | num n =>
    obtain ⟨-, hi⟩ := Option.ite_none_right_eq_some.1 hjs
    exact Option.some.inj hi ▸ List.forall_mem_singleton.2 (h _)
  | chr c => exact Option.some.inj hjs ▸ List.forall_mem_singleton.2 (h _)
  | none | str _ => cases hjs

theorem emitsLegal_asmStr {i : Byte → Instr} (h : ∀ v, (i v).wf = true) : EmitsLegal (asmStr i) := by
  intro o js hjs
  cases o with
  | str cs => exact Option.some.inj hjs ▸ List.forall_mem_map.2 fun c _ => h _
  | none | num _ | chr _ => cases hjs

/-- The one bound that the type of the operand does not hold: the number of a status register (R71). -/
theorem wf_rdsr_ofNat (n : Nat) (h : n ≤ 10) : (Instr.rdsr (BitVec.ofNat 8 n)).wf = true :=
  decide_eq_true ((BitVec.toNat_ofNat n 8).trans_le ((Nat.mod_le n _).trans h))

theorem emitsLegal_asmTable : ∀ row ∈ asmTable, EmitsLegal row.2 := by
  simp only [asmTable, List.forall_mem_cons]
  exact ⟨emitsLegal_asmZ rfl,
    emitsLegal_asmNum wf_rdsr_ofNat,
    emitsLegal_asmZ rfl,
    emitsLegal_asmNum fun _ _ => rfl,
    emitsLegal_asmD8 fun _ => rfl,
    emitsLegal_asmZ rfl,
    emitsLegal_asmZ rfl,
    emitsLegal_asmNum fun _ _ => rfl,
    emitsLegal_asmD8 fun _ => rfl,
    emitsLegal_asmNum fun _ _ => rfl,
    emitsLegal_asmNum fun _ _ => rfl,
    emitsLegal_asmZ rfl,
    emitsLegal_asmD8 fun _ => rfl,
    emitsLegal_asmNum fun _ _ => rfl,
    emitsLegal_asmNum fun _ _ => rfl,
    emitsLegal_asmZ rfl,
    emitsLegal_asmPseudo (by decide),
    emitsLegal_asmPseudo (by decide),
    emitsLegal_asmStr fun _ => rfl,
    emitsLegal_asmStr fun _ => rfl,
    List.forall_mem_nil _⟩

/-- All that an accepted line can stand for: nothing, or what a row of the table makes of its operand. -/
theorem assembleLine_cases {line : List Char} {is : List Instr} (h : assembleLine line = .ok is) :
    is = [] ∨ ∃ row ∈ asmTable, ∃ o, row.2 o = some is := by
  dsimp only [assembleLine] at h
  split at h
  next => exact .inl (Except.ok.inj h).symm
  split at h
  next => cases h
  next row hrow =>
  split at h
  next => cases h
  next o _ =>
  split at h
  next => cases h
  next js hjs => exact .inr ⟨row, List.mem_of_find?_eq_some hrow, o, Except.ok.inj h ▸ hjs⟩

/-- Settles O5, by the form of each row of the assembler's table. -/
theorem assemblerEmitsOnlyLegalInstructions : Obligations.AssemblerEmitsOnlyLegalInstructions := by
  intro line is h
  rcases assembleLine_cases h with rfl | ⟨row, hrow, o, ho⟩
  · exact List.forall_mem_nil _
  · exact emitsLegal_asmTable row hrow o is ho

end Sys2Proof.Machine
end

section
/-! The B58 block, command by command (41_base58.md R95 to R98): `INIT`, `PUSH`, `FIN` and `POP`. -/

namespace Sys2Proof.Machine

/-! ### `B58.INIT` and `B58.FIN` -/

/-- Settles O30: `INIT` has no condition. -/
theorem b58InitOpensATransaction : Obligations.B58InitOpensATransaction := ⟨rfl, rfl, fun _ _ => rfl⟩

/-- Settles O35, by the acceptance check and then the length check of R97. -/
theorem b58FinClosesTheInput : Obligations.B58FinClosesTheInput := by
  refine ⟨rfl, fun s => ⟨fun hna => ?_, fun ha hm hbad => ?_, fun ha hgood => ?_⟩⟩
  · exact execB58Fin_of_not_active s hna
  · exact (execB58Fin_of_active s ha).trans (if_pos ⟨hm, hbad⟩)
  · have hpass : ¬(s.b58.mode = .dec ∧ (s.b58.ovf = true ∨ b58OutLen s.b58 ≠ b58DecLen)) := by
      rintro ⟨hm, hbad⟩
      rcases hgood with henc | ⟨hovf, hlen⟩
      · exact absurd (henc.symm.trans hm) (by decide)
      · exact hbad.elim (fun ho => absurd (ho.symm.trans hovf) (by decide)) fun hne => hne hlen
    exact (execB58Fin_of_active s ha).trans (if_neg hpass)

/-! ### `B58.POP` -/

/-- A pop with an output unit left whose digit can be read answers that digit's unit (41_base58.md R98). -/
theorem exec_b58Pop_of_digit {s : State} {d c : Byte} (hd : s.b58.phase = .drain)
    (hl : s.b58.rptr.toNat < b58OutLen s.b58) (hdigit : b58PopDigit s = .ok d)
    (hunit : b58OutUnit s.b58.mode d = some c) :
    exec .b58Pop s = respond [c] { s with b58 := { s.b58 with rptr := s.b58.rptr + 1 } } := by
  refine (execB58Pop_of_drain s hd).trans ?_
  rw [if_neg (Nat.not_le_of_lt hl)]
  simp only [hdigit, hunit]

/-- The output unit of the leading run: `'1'` or a zero byte. -/
theorem b58OutUnit_zero (m : Mode) : b58OutUnit m 0 = some (if m = .enc then 0x31 else 0x00) := by
  cases m <;> rfl

/-- Settles O36: past the leading run the invariants give the cell a value with an output unit. -/
theorem b58PopDeliversTheNextUnit : Obligations.B58PopDeliversTheNextUnit := by
  refine ⟨rfl, fun s => ⟨fun hnd => ?_, fun hd hdone => ?_, fun hd hrun => ?_, fun h hd hcell hl => ?_⟩⟩
  · exact execB58Pop_of_not_drain s hnd
  · exact (execB58Pop_of_drain s hd).trans (if_pos hdone)
  · have hdigit : b58PopDigit s = .ok 0 := (b58PopDigit_ok s 0).2 (.inl ⟨hrun, rfl⟩)
    exact exec_b58Pop_of_digit hd (Nat.lt_add_right _ hrun) hdigit (b58OutUnit_zero _)
  · obtain ⟨d, c, hdigit, hunit⟩ := b58PopDigit_of_inv s h hd hl
    obtain ⟨-, -, hget⟩ := ((b58PopDigit_ok s d).1 hdigit).resolve_left fun hrun => Nat.not_lt_of_le hcell hrun.1
    refine ⟨d, c, hget, fun hm => ?_, fun hm => ?_, exec_b58Pop_of_digit hd hl hdigit hunit⟩
    · rwa [hm] at hunit
    · rw [hm] at hunit
      exact (Option.some.inj hunit).symm

/-! ### `B58.PUSH` -/

/-! The two modes: the unit, the number it makes, and its digit count, which is the new `BLEN` (R91, R92, R93). -/

theorem pushedLen_eq_digitCount (s : State) (u : Nat) :
    pushedLen s u = digitCount (toRadix s.b58.mode) (pushedValue s u) :=
  (digitCount_eq_length _ (two_le_toRadix s.b58.mode) _).symm

section Enc

variable {s : State} (hm : s.b58.mode = .enc)
include hm

theorem b58Unit_enc (v : Byte) : b58Unit s.b58.mode v = some v.toNat := by rw [hm]; rfl

theorem pushedValue_enc (u : Nat) : pushedValue s u = b58Value s * 256 + u := by rw [pushedValue, hm]; rfl

theorem pushedLen_enc (u : Nat) : pushedLen s u = digitCount 58 (b58Value s * 256 + u) := by
  rw [pushedLen_eq_digitCount, pushedValue_enc hm, hm]; rfl

/-- In ENC the flag `OVF` is 0 (10_state.md R28 item 4). -/
theorem ovf_eq_false_of_enc (h : Inv s) : s.b58.ovf = false :=
  Bool.eq_false_iff.2 fun ho => absurd (hm.symm.trans ((inv_b58Good h).ovf ho)) (by decide)

end Enc

section Dec

variable {s : State} (hm : s.b58.mode = .dec)
include hm

theorem b58Unit_dec {v : Byte} {d : Nat} (hc : b58Char d = some v) : b58Unit s.b58.mode v = some d := by
  rw [hm]
  exact (b58Inv_eq_some_iff v d).2 hc

/-- A code outside the alphabet stands for no unit. -/
theorem b58Unit_dec_none {v : Byte} (hc : ∀ d, b58Char d ≠ some v) : b58Unit s.b58.mode v = none := by
  rw [hm]
  exact Option.eq_none_iff_forall_ne_some.2 fun d hd => hc d ((b58Inv_eq_some_iff v d).1 hd)

theorem pushedValue_dec (u : Nat) : pushedValue s u = b58Value s * 58 + u := by rw [pushedValue, hm]; rfl

theorem pushedLen_dec (u : Nat) : pushedLen s u = digitCount 256 (b58Value s * 58 + u) := by
  rw [pushedLen_eq_digitCount, pushedValue_dec hm, hm]; rfl

end Dec

/-- The leading run stays open under a byte exactly if it is a zero byte. -/
theorem unitLead_toNat (s : State) (v : Byte) : unitLead s v.toNat = (s.b58.leading && v == 0) := by
  have hzero : (v.toNat == 0) = (v == 0) := by
    rw [Bool.eq_iff_iff, beq_iff_eq, beq_iff_eq, ← BitVec.toNat_inj]
    rfl
  rw [unitLead, hzero]

theorem pushedLz_toNat (s : State) (v : Byte) :
    pushedLz s v.toNat = s.b58.lz.toNat + (if (s.b58.leading && v == 0) = true then 1 else 0) := by
  rw [pushedLz, unitLead_toNat]

/-! What an accepted push does (41_base58.md R93, R96). -/

/-- A buffer that holds the digits of `value` holds the number `value` (10_state.md R24). -/
theorem b58Value_of_cells {t : State} {value : Nat}
    (hlen : t.b58.blen.toNat = (Nat.digits (toRadix t.b58.mode) value).length)
    (hcells : ∀ i, i < t.b58.blen.toNat →
      ((Memory.get i t.buf).getD 0).toNat = value / toRadix t.b58.mode ^ i % toRadix t.b58.mode) :
    b58Value t = value := by
  have hdigits : b58Cells t = Nat.digits (toRadix t.b58.mode) value := by
    refine List.ext_getElem (by simp [b58Cells, hlen]) fun i hi hi' => ?_
    rw [← List.getD_eq_getElem _ 0 hi', Nat.getD_digits _ _ (two_le_toRadix _), ← hcells i (hlen ▸ hi')]
    simp [b58Cells]
  rw [b58Value, hdigits, Nat.ofDigits_digits]

section Push

variable {s : State} {v : Byte} {u : Nat}

theorem exec_b58Push_of_unit (ha : s.b58.phase = .active) (hu : b58Unit s.b58.mode v = some u) :
    exec (.b58Push v) s = b58PushUnit u s := by
  refine (execB58Push_of_active v s ha).trans ?_
  simp only [hu]

/-- An accepted push that has no room is the overflow of R96. -/
theorem exec_b58Push_of_full (h : Inv s) (ha : s.b58.phase = .active) (ho : s.b58.ovf = false)
    (hu : b58Unit s.b58.mode v = some u) (hfull : s.cfg.cap < pushedLz s u + pushedLen s u) :
    exec (.b58Push v) s = b58Overflow s :=
  (exec_b58Push_of_unit ha hu).trans ((b58PushUnit_of_inv s u h ha ho).1 hfull)

/-- An accepted push that has room stores the number `VAL * FROM + u`, digit by digit, and leaves the cells above it
(41_base58.md R93, R96). -/
theorem exec_b58Push_of_room (h : Inv s) (ha : s.b58.phase = .active) (ho : s.b58.ovf = false)
    (hu : b58Unit s.b58.mode v = some u) (hroom : pushedLz s u + pushedLen s u ≤ s.cfg.cap) :
    ∃ t, exec (.b58Push v) s = .next t ∧
      t = { s with b58 := pushedRec s u, buf := t.buf, resps := s.resps ++ [0x00000000] } ∧
      b58Value t = pushedValue s u ∧
      (∀ i, i < pushedLen s u → Memory.get i t.buf = some (pushedCell s u i)) ∧
      ∀ a, pushedLen s u ≤ a → Memory.get a t.buf = Memory.get a s.buf := by
  obtain ⟨m, hm, hcells, hrest, -⟩ := (b58PushUnit_of_inv s u h ha ho).2 hroom
  have hcap : s.cfg.cap ≤ 255 := h.1.2
  have hblen : (BitVec.ofNat 8 (pushedLen s u)).toNat = pushedLen s u := Nat.mod_eq_of_lt (by omega)
  refine ⟨_, (exec_b58Push_of_unit ha hu).trans hm, rfl, b58Value_of_cells hblen fun i hi => ?_, hcells, hrest⟩
  have hget : Memory.get i m = some (pushedCell s u i) := hcells i (hi.trans_eq hblen)
  exact (congrArg (fun c => (c.getD 0).toNat) hget).trans (toNat_pushedCell s u i)

end Push

/-- Settles O31: the unit is the byte, and `FROM`, `TO` are 256, 58. -/
theorem b58PushFoldsAByteIntoTheNumber : Obligations.B58PushFoldsAByteIntoTheNumber := by
  intro s v h ha hm value n lead lz hroom
  have hvalue : pushedValue s v.toNat = value := pushedValue_enc hm _
  have hlen : pushedLen s v.toNat = n := pushedLen_enc hm _
  have hlz : pushedLz s v.toNat = lz := pushedLz_toNat s v
  obtain ⟨t, hexec, hstate, hnumber, hcells, hrest⟩ :=
    exec_b58Push_of_room h ha (ovf_eq_false_of_enc hm h) (b58Unit_enc hm v) (by rwa [hlz, hlen])
  rw [pushedRec, unitLead_toNat, hlz, hlen] at hstate
  simp only [pushedCell, hvalue, hlen, hm] at hnumber hcells hrest
  exact ⟨t, hexec, hstate, hnumber, hcells, hrest⟩

/-- Settles O32: the unit is the character's digit, and `FROM`, `TO` are 58, 256. -/
theorem b58PushFoldsACharacterIntoTheNumber : Obligations.B58PushFoldsACharacterIntoTheNumber := by
  intro s v d h ha hm ho hchar value n lead lz hroom
  have hvalue : pushedValue s d = value := pushedValue_dec hm d
  have hlen : pushedLen s d = n := pushedLen_dec hm d
  obtain ⟨t, hexec, hstate, hnumber, hcells, hrest⟩ :=
    exec_b58Push_of_room h ha ho (b58Unit_dec hm hchar) (by rwa [hlen])
  rw [pushedRec, hlen] at hstate
  simp only [pushedCell, hvalue, hlen, hm] at hnumber hcells hrest
  exact ⟨t, hexec, hstate, hnumber, hcells, hrest⟩

/-- The word of `B58.PUSH v` (30_encoding.md R74). -/
theorem encode_b58Push (v : Byte) : encode (.b58Push v) = 0x1100 ||| v.setWidth 16 := rfl

/-- Settles O33: the phase first, then the unit, then the room. -/
theorem b58PushRefusalAndDataErrors : Obligations.B58PushRefusalAndDataErrors := by
  refine ⟨fun v => ?_, fun s v hna => ?_, fun s v ha => ⟨fun hm hforeign => ?_, fun h hm hfull => ?_⟩⟩
  · rw [← encode_b58Push]
    exact decode_encode (i := .b58Push v) rfl
  · exact execB58Push_of_not_active v s hna
  · refine (execB58Push_of_active v s ha).trans ?_
    simp only [b58Unit_dec_none hm hforeign]
    rfl
  · rw [← pushedLz_toNat, ← pushedLen_enc hm] at hfull
    exact (exec_b58Push_of_full h ha (ovf_eq_false_of_enc hm h) (b58Unit_enc hm v) hfull).trans (b58Overflow_enc s hm)

/-- Settles O34: the overflow of R96 in DEC, and the flag's freezing of the number. -/
theorem b58PushDecodeOverflowIsSticky : Obligations.B58PushDecodeOverflowIsSticky := by
  intro s v d h ha hm hchar
  have hu := b58Unit_dec hm hchar
  refine ⟨fun ho hfull => ?_, fun ho => ?_⟩
  · rw [← pushedLen_dec hm] at hfull
    exact (exec_b58Push_of_full h ha ho hu hfull).trans (b58Overflow_dec s hm)
  · exact (exec_b58Push_of_unit ha hu).trans (if_pos ho)

end Sys2Proof.Machine
end

section
/-! How a stream of bits stands cut into groups (42_regrouper.md R110), and what `Regroup` makes of it. -/

namespace Sys2Proof.Machine

/-- The stream `bits` is the `w`-bit groups `out` followed by `n` left-over bits of value `a`, fewer than a group. -/
structure CutInto (w : Nat) (bits : List Bool) (out : List Nat) (n a : Nat) : Prop where
  stream : bits = streamBits w out ++ groupBits n a
  groups : ∀ g ∈ out, g < 2 ^ w
  short : n < w
  value : a < 2 ^ n

theorem cutInto_nil {w : Nat} (hw : 0 < w) : CutInto w [] [] 0 0 := ⟨rfl, nofun, hw, Nat.one_pos⟩

/-- More bits are cut together with the bits left over. -/
theorem CutInto.append {w n a n' a' : Nat} {bits more : List Bool} {out out' : List Nat} (h : CutInto w bits out n a)
    (h' : CutInto w (groupBits n a ++ more) out' n' a') : CutInto w (bits ++ more) (out ++ out') n' a' where
  stream := by rw [h.stream, List.append_assoc, h'.stream, streamBits_append, List.append_assoc]
  groups := fun g hg => (List.mem_append.1 hg).elim (h.groups g) (h'.groups g)
  short := h'.short
  value := h'.value

/-- Every stream can be cut, as the loop of 42_regrouper.md R112 does it. -/
theorem exists_cutInto {w : Nat} (hw : 0 < w) (bits : List Bool) : ∃ out n a, CutInto w bits out n a := by
  obtain ⟨hstream, hn, hvalue, -, hgroups⟩ :=
    cutGroups_spec w hw bits.length (bitsValue bits) bits.length (Nat.le_refl _) (bitsValue_lt bits)
  exact ⟨_, _, _, (groupBits_bitsValue bits).symm.trans hstream, hgroups, hn ▸ Nat.mod_lt _ hw, hvalue⟩

theorem CutInto.wholeGroups {w n a : Nat} {bits : List Bool} {out : List Nat} (h : CutInto w bits out n a) :
    wholeGroups w bits = out := by
  rw [h.stream]
  exact (wholeGroups_stream w (Nat.zero_lt_of_lt h.short) out _ h.groups (by simpa using h.short)).1

theorem CutInto.tailBits {w n a : Nat} {bits : List Bool} {out : List Nat} (h : CutInto w bits out n a) :
    tailBits w bits = groupBits n a := by
  rw [h.stream]
  exact (wholeGroups_stream w (Nat.zero_lt_of_lt h.short) out _ h.groups (by simpa using h.short)).2

/-- `Regroup` (42_regrouper.md R110) on an input whose stream stands cut into groups. -/
theorem CutInto.regroup {win wout n a : Nat} {gs out : List Nat} (h : CutInto wout (streamBits win gs) out n a)
    (reject pad : Bool) :
    regroup reject gs win wout pad =
      if n = 0 then .ok out
      else if pad then .ok (out ++ [a * 2 ^ (wout - n)])
      else if a ≠ 0 then .error .invalidPadding
      else if reject = true ∧ win ≤ n then .error .invalidPadding
      else .ok out := by
  simp only [Machine.regroup, h.wholeGroups, h.tailBits, groupBits_length, bitsValue_groupBits n a h.value]

/-! ### The round trip -/

/-- The left-over bits padded on the right with zeros fit one group. -/
theorem paddedTail_lt {w n a : Nat} (hn : n ≤ w) (ha : a < 2 ^ n) : a * 2 ^ (w - n) < 2 ^ w := by
  calc a * 2 ^ (w - n) < 2 ^ n * 2 ^ (w - n) := Nat.mul_lt_mul_of_pos_right ha (Nat.two_pow_pos _)
    _ = 2 ^ w := by rw [← pow_add, Nat.add_sub_cancel' hn]

/-- With padding `Regroup` appends fewer zero bits than a group to the stream, and loses nothing. -/
theorem regroup_pad_stream (reject : Bool) (gs : List Nat) (win : Nat) {wout : Nat} (hw : 0 < wout) :
    ∃ out k, regroup reject gs win wout true = .ok out ∧ (∀ g ∈ out, g < 2 ^ wout) ∧ k < wout ∧
      streamBits wout out = streamBits win gs ++ groupBits k 0 := by
  obtain ⟨out, n, a, h⟩ := exists_cutInto hw (streamBits win gs)
  have hregroup := h.regroup reject true
  by_cases hn : n = 0
  · refine ⟨out, 0, hregroup.trans (if_pos hn), h.groups, hw, ?_⟩
    rw [h.stream, hn]
    exact ((List.append_nil _).trans (List.append_nil _)).symm
  · refine ⟨out ++ [a * 2 ^ (wout - n)], wout - n, hregroup.trans (if_neg hn), fun g hg => ?_, by omega, ?_⟩
    · rcases List.mem_append.1 hg with hout | hlast
      · exact h.groups g hout
      · rw [List.mem_singleton.1 hlast]
        exact paddedTail_lt h.short.le h.value
    · have hjoin : groupBits n a ++ groupBits (wout - n) 0 = groupBits wout (a * 2 ^ (wout - n)) := by
        rw [groupBits_append n (wout - n) a 0 (Nat.two_pow_pos _), Nat.add_sub_cancel' h.short.le, Nat.add_zero]
      rw [streamBits_append, streamBits_cons, streamBits_nil, List.append_nil, h.stream, List.append_assoc, hjoin]

/-- Without padding `Regroup` drops a zero tail that holds no whole input group, in every build (42_regrouper.md R118). -/
theorem regroup_drops_zero_tail {win wout k : Nat} {gs out : List Nat} (reject : Bool) (hk : k < wout) (hwin : k < win)
    (hout : ∀ g ∈ out, g < 2 ^ wout) (hstream : streamBits win gs = streamBits wout out ++ groupBits k 0) :
    regroup reject gs win wout false = .ok out := by
  have hcut : CutInto wout (streamBits win gs) out k 0 := ⟨hstream, hout, hk, Nat.two_pow_pos k⟩
  simp [hcut.regroup, Nat.not_le_of_lt hwin]

/-- Settles O48: the first pass appends fewer than 5 zero bits, and the second finds just those left over. -/
theorem regroupRoundTripGivesTheBytesBack : Obligations.RegroupRoundTripGivesTheBytesBack := by
  intro reject reject' bs
  obtain ⟨gs, k, hgs, hlt, hk, hstream⟩ := regroup_pad_stream reject (bs.map BitVec.toNat) 8 (wout := 5) (by decide)
  have hbytes : ∀ b ∈ bs.map BitVec.toNat, b < 2 ^ 8 := List.forall_mem_map.2 fun b _ => b.isLt
  exact ⟨gs, hgs, hlt, regroup_drops_zero_tail reject' (by omega) hk hbytes hstream⟩

end Sys2Proof.Machine
end

section
/-! The RGP block, command by command (42_regrouper.md R111 to R115): `INIT`, the two pushes and `FLUSH`. -/

namespace Sys2Proof.Machine

/-! ### `RGP.INIT` -/

/-- Settles O42: `INIT` has no condition. -/
theorem rgpInitOpensATransaction : Obligations.RgpInitOpensATransaction := ⟨rfl, rfl, fun _ _ => rfl⟩

/-! ### The widths of a direction -/

theorem fromWidth_pos (d : Dir) : 0 < fromWidth d := by cases d <;> decide

theorem toWidth_pos (d : Dir) : 0 < toWidth d := by cases d <;> decide

theorem toWidth_le (d : Dir) : toWidth d ≤ 8 := by cases d <;> decide

theorem fromWidth_eq_ite (d : Dir) : fromWidth d = if d = .eightToFive then 8 else 5 := by cases d <;> rfl

theorem toWidth_eq_ite (d : Dir) : toWidth d = if d = .eightToFive then 5 else 8 := by cases d <;> rfl

/-- Fewer bits than an output group are left over (10_state.md R28 item 6). -/
theorem nbits_lt_toWidth {s : State} (h : InvTail s) : s.rgp.nbits.toNat < toWidth s.rgp.dir := by
  have h7 := s.rgp.nbits.isLt
  have h4 := h.2
  cases hd : s.rgp.dir with
  | eightToFive => exact Nat.lt_succ_of_le (h4 hd)
  | fiveToEight => exact h7

/-! ### The pushes -/

/-- The record after a push in direction `d` (42_regrouper.md R112). -/
def rgpPushed (d : Dir) (r : RgpRec) (v : Nat) : RgpRec :=
  { r with
    acc := BitVec.ofNat 7 (rgpAbsorb r v (fromWidth d) (toWidth d)).acc
    nbits := BitVec.ofNat 3 (rgpAbsorb r v (fromWidth d) (toWidth d)).nbits }

/-- The groups a push in direction `d` completes (42_regrouper.md R112). -/
def rgpPushedOut (d : Dir) (r : RgpRec) (v : Nat) : List Nat := (rgpAbsorb r v (fromWidth d) (toWidth d)).out

theorem rgpPush_eq (d : Dir) (v : Nat) (s : State) :
    rgpPush v (fromWidth d) (toWidth d) s =
      respond ((rgpPushedOut d s.rgp v).map (BitVec.ofNat 8)) { s with rgp := rgpPushed d s.rgp v } := rfl

section Push

variable {d : Dir} {r : RgpRec} {v : Nat} (ha : r.acc.toNat < 2 ^ r.nbits.toNat) (hv : v < 2 ^ fromWidth d)

include ha hv

theorem rgpPushed_nbits :
    (rgpPushed d r v).nbits = BitVec.ofNat 3 ((r.nbits.toNat + fromWidth d) % toWidth d) := by
  obtain ⟨-, hn, -⟩ := rgpAbsorb_spec r v (fromWidth d) (toWidth d) (toWidth_pos d) hv ha
  rw [rgpPushed, hn]

theorem toNat_rgpPushed_nbits :
    (rgpPushed d r v).nbits.toNat = (r.nbits.toNat + fromWidth d) % toWidth d := by
  rw [rgpPushed_nbits ha hv]
  exact Nat.mod_eq_of_lt ((Nat.mod_lt _ (toWidth_pos d)).trans_le (toWidth_le d))

theorem rgpPushedOut_length : (rgpPushedOut d r v).length = (r.nbits.toNat + fromWidth d) / toWidth d := by
  obtain ⟨-, -, -, hlen, -⟩ := rgpAbsorb_spec r v (fromWidth d) (toWidth d) (toWidth_pos d) hv ha
  exact hlen

/-- A push completes at most two groups (42_regrouper.md R112). -/
theorem rgpPushedOut_length_le (hn : r.nbits.toNat < toWidth d) : (rgpPushedOut d r v).length ≤ 2 := by
  rw [rgpPushedOut_length ha hv]
  have hbits : r.nbits.toNat + fromWidth d < 3 * toWidth d := by
    cases d with
    | eightToFive => exact (Nat.add_lt_add_right hn 8).trans (by decide)
    | fiveToEight => exact (Nat.add_lt_add_right hn 5).trans (by decide)
  exact Nat.le_of_lt_succ ((Nat.div_lt_iff_lt_mul (toWidth_pos d)).2 hbits)

/-- A push cuts the left-over bits followed by the bits of the group it takes in (42_regrouper.md R112). -/
theorem rgpPushed_cutInto :
    CutInto (toWidth d) (groupBits r.nbits.toNat r.acc.toNat ++ groupBits (fromWidth d) v) (rgpPushedOut d r v)
      (rgpPushed d r v).nbits.toNat (rgpPushed d r v).acc.toNat := by
  obtain ⟨hstream, hn, hacc, -, hgroups⟩ := rgpAbsorb_spec r v (fromWidth d) (toWidth d) (toWidth_pos d) hv ha
  have hshort := Nat.mod_lt (r.nbits.toNat + fromWidth d) (toWidth_pos d)
  have hn7 : (rgpAbsorb r v (fromWidth d) (toWidth d)).nbits ≤ 7 := by
    have := toWidth_le d
    omega
  have htoNat : (rgpPushed d r v).acc.toNat = (rgpAbsorb r v (fromWidth d) (toWidth d)).acc :=
    Nat.mod_eq_of_lt (hacc.trans_le (Nat.pow_le_pow_right (by decide) hn7))
  rw [toNat_rgpPushed_nbits ha hv, htoNat, ← hn]
  exact ⟨hstream, hgroups, hn ▸ hshort, hacc⟩

end Push

/-- All that an accepted push does (42_regrouper.md R113, R114), in either direction. -/
theorem rgpPush_cuts_stream (d : Dir) (s : State) (v : Nat) (h : InvTail s) (hv : v < 2 ^ fromWidth d) :
    ∃ (out : List Nat) (t : State), rgpPush v (fromWidth d) (toWidth d) s = .next t ∧
      t = { s with
        rgp := { s.rgp with
          acc := t.rgp.acc, nbits := BitVec.ofNat 3 ((s.rgp.nbits.toNat + fromWidth d) % toWidth d) }
        resps := s.resps ++ [respWord 0 (out.map (BitVec.ofNat 8))] } ∧
      out.length = (s.rgp.nbits.toNat + fromWidth d) / toWidth d ∧ (∀ g ∈ out, g < 2 ^ toWidth d) ∧
      t.rgp.acc.toNat < 2 ^ ((s.rgp.nbits.toNat + fromWidth d) % toWidth d) ∧
      groupBits s.rgp.nbits.toNat s.rgp.acc.toNat ++ groupBits (fromWidth d) v =
        streamBits (toWidth d) out ++
          groupBits ((s.rgp.nbits.toNat + fromWidth d) % toWidth d) t.rgp.acc.toNat := by
  have hcut := rgpPushed_cutInto h.1 hv
  rw [toNat_rgpPushed_nbits h.1 hv] at hcut
  refine ⟨rgpPushedOut d s.rgp v, _, rgpPush_eq d v s, ?_, rgpPushedOut_length h.1 hv, hcut.groups, hcut.value,
    hcut.stream⟩
  rw [← rgpPushed_nbits h.1 hv]
  rfl

/-- The word of `RGP.PUSH8 v` (30_encoding.md R74). -/
theorem encode_rgpPush8 (v : Byte) : encode (.rgpPush8 v) = 0x2100 ||| v.setWidth 16 := rfl

/-- The word of `RGP.PUSH5 g` (30_encoding.md R74). -/
theorem encode_rgpPush5 (g : Group) : encode (.rgpPush5 g) = 0x2200 ||| g.setWidth 16 := by revert g; decide

/-- Settles O43, by the rule of an accepted push in direction 8 to 5. -/
theorem rgpPush8CutsTheBitStream : Obligations.RgpPush8CutsTheBitStream := by
  refine ⟨fun v => ?_, fun s v hna => ?_, fun s v h ha hd => ?_⟩
  · rw [← encode_rgpPush8]
    exact decode_encode (i := .rgpPush8 v) rfl
  · exact execRgpPush8_of_not v s hna
  · obtain ⟨out, t, hpush, hrest⟩ := rgpPush_cuts_stream .eightToFive s v.toNat h v.isLt
    exact ⟨out, t, (execRgpPush8_of v s ha hd).trans hpush, hrest⟩

/-- Settles O44, by the rule of an accepted push in direction 5 to 8. -/
theorem rgpPush5CutsTheBitStream : Obligations.RgpPush5CutsTheBitStream := by
  refine ⟨fun g => ?_, fun s g hna => ?_, fun s g h ha hd => ?_⟩
  · rw [← encode_rgpPush5]
    exact decode_encode (i := .rgpPush5 g) rfl
  · exact execRgpPush5_of_not g s hna
  · obtain ⟨out, t, hpush, hrest⟩ := rgpPush_cuts_stream .fiveToEight s g.toNat h g.isLt
    exact ⟨out, t, (execRgpPush5_of g s ha hd).trans hpush, hrest⟩

/-! ### `RGP.FLUSH` -/

theorem rgpPadded_of_nbits_zero {r : RgpRec} (h : r.nbits.toNat = 0) : rgpPadded r = [] := by simp [rgpPadded, h]

/-- The mask of 42_regrouper.md R115 takes nothing away from the padded tail. -/
theorem rgpPadded_of_nbits_pos {r : RgpRec} (h : r.nbits.toNat ≠ 0) (hn : r.nbits.toNat ≤ toWidth r.dir)
    (ha : r.acc.toNat < 2 ^ r.nbits.toNat) :
    rgpPadded r = [BitVec.ofNat 8 (r.acc.toNat * 2 ^ (toWidth r.dir - r.nbits.toNat))] := by
  simp only [rgpPadded, if_pos (Nat.pos_of_ne_zero h), Nat.and_two_pow_sub_one_eq_mod, Nat.shiftLeft_eq,
    Nat.mod_eq_of_lt (paddedTail_lt hn ha)]

theorem rgpBadTail_iff (c : Config) (r : RgpRec) :
    rgpBadTail c r = true ↔ r.acc ≠ 0 ∨ c.rejectExcess = true ∧ fromWidth r.dir ≤ r.nbits.toNat := by
  simp [rgpBadTail]

section Flush

variable {s : State} (ha : s.rgp.phase = .active)

include ha

theorem exec_rgpFlush_pad : exec (.rgpFlush true) s = rgpClose (rgpPadded s.rgp) s := execRgpFlush_of_active true s ha

theorem exec_rgpFlush_drop (hgood : ¬ rgpBadTail s.cfg s.rgp = true) : exec (.rgpFlush false) s = rgpClose [] s :=
  (execRgpFlush_of_active false s ha).trans (if_neg hgood)

theorem exec_rgpFlush_bad (hbad : rgpBadTail s.cfg s.rgp = true) :
    exec (.rgpFlush false) s = raise .invalidPadding s :=
  (execRgpFlush_of_active false s ha).trans (if_pos hbad)

end Flush

/-- Settles O45, branch by branch of R115. -/
theorem rgpFlushPadsDropsOrFails : Obligations.RgpFlushPadsDropsOrFails := by
  refine ⟨rfl, rfl, fun s h => ?_⟩
  intro win wout bad
  refine ⟨fun hna p => execRgpFlush_of_not_active p s hna, fun ha => ?_⟩
  have hwout : toWidth s.rgp.dir = wout := toWidth_eq_ite s.rgp.dir
  have hbad : rgpBadTail s.cfg s.rgp = true ↔ bad := by rw [rgpBadTail_iff, fromWidth_eq_ite]
  refine ⟨fun hn => ?_, fun hn => ?_, fun hgood => ?_, fun hfail => ?_⟩
  · rw [exec_rgpFlush_pad ha, rgpPadded_of_nbits_zero (congrArg BitVec.toNat hn)]
    rfl
  · have hn0 : s.rgp.nbits.toNat ≠ 0 := fun h0 => hn (BitVec.eq_of_toNat_eq h0)
    rw [exec_rgpFlush_pad ha, rgpPadded_of_nbits_pos hn0 (nbits_lt_toWidth h).le h.1, hwout]
    rfl
  · exact exec_rgpFlush_drop ha (mt hbad.1 hgood)
  · exact exec_rgpFlush_bad ha (hbad.2 hfail)

end Sys2Proof.Machine
end

section
/-! An RGP transaction computes `Regroup` (42_regrouper.md R116): the invariant of its pushes, and what `FLUSH` makes of
the bits left over. Both directions are one argument. -/

namespace Sys2Proof.Machine

/-- The push of direction `d`. -/
def rgpPushOf : (d : Dir) → BitVec (fromWidth d) → Instr
  | .eightToFive, v => .rgpPush8 v
  | .fiveToEight, g => .rgpPush5 g

/-- The transaction of direction `d`: `INIT d`, the pushes, `FLUSH p` (70_reset_and_hazards.md R180). -/
def rgpTransaction (d : Dir) (vs : List (BitVec (fromWidth d))) (p : Bool) : List Instr :=
  .rgpInit d :: vs.map (rgpPushOf d) ++ [.rgpFlush p]

theorem rgpTransaction_eightToFive (bs : List Byte) (p : Bool) : rgpTransaction .eightToFive bs p = rgp8Transaction bs p :=
  rfl

theorem rgpTransaction_fiveToEight (gs : List Group) (p : Bool) :
    rgpTransaction .fiveToEight gs p = rgp5Transaction gs p := rfl

theorem exec_rgpPushOf {d : Dir} {s : State} (v : BitVec (fromWidth d)) (ha : s.rgp.phase = .active)
    (hd : s.rgp.dir = d) : exec (rgpPushOf d v) s = rgpPush v.toNat (fromWidth d) (toWidth d) s := by
  cases d with
  | eightToFive => exact execRgpPush8_of v s ha hd
  | fiveToEight => exact execRgpPush5_of v s ha hd

theorem execAll_append_next (is js : List Instr) (s t : State) :
    execAll (is ++ js) s = .next t ↔ ∃ t₁, execAll is s = .next t₁ ∧ execAll js t₁ = .next t := by
  induction is generalizing s with
  | nil => simp [execAll]
  | cons i is ih =>
    simp only [List.cons_append, execAll_cons_next, ih]
    exact ⟨fun ⟨t₁, h₁, t₂, h₂, h⟩ => ⟨t₂, ⟨t₁, h₁, h₂⟩, h⟩, fun ⟨t₂, ⟨t₁, h₁, h₂⟩, h⟩ => ⟨t₁, h₁, t₂, h₂, h⟩⟩

/-! ### The data of the responses -/

/-- The data items of the responses, in command order and `D0` before `D1`. -/
def answeredData (rs : List RespWord) : List Nat := (rs.flatMap respData).map BitVec.toNat

theorem answeredData_append (rs rs' : List RespWord) :
    answeredData (rs ++ rs') = answeredData rs ++ answeredData rs' := by
  rw [answeredData, List.flatMap_append, List.map_append, answeredData, answeredData]

theorem answeredData_singleton {data : List Byte} (e : ErrCode) (h : data.length ≤ 2) :
    answeredData [respWord e data] = data.map BitVec.toNat := by
  rw [answeredData, List.flatMap_singleton, respData_respWord e data h]

/-- Groups of at most 8 bits come back from the response as they were. -/
theorem answeredData_groups {out : List Nat} {w : Nat} (hw : w ≤ 8) (hout : ∀ g ∈ out, g < 2 ^ w) (hl : out.length ≤ 2) :
    answeredData [respWord 0 (out.map (BitVec.ofNat 8))] = out := by
  rw [answeredData_singleton 0 (by simpa using hl), List.map_map]
  have hback : ∀ g ∈ out, (BitVec.toNat ∘ BitVec.ofNat 8) g = id g := fun g hg =>
    Nat.mod_eq_of_lt ((hout g hg).trans_le (Nat.pow_le_pow_right (by decide) hw))
  rw [List.map_congr_left hback, List.map_id]

/-! ### The invariant of the pushes -/

/-- The invariant of 42_regrouper.md R116: from `s`, the transaction of direction `d` has taken in the stream `bits` and
answered `rs` without error; the data of `rs` are the complete groups, and `ACC` holds the left-over bits. -/
structure Streamed (s : State) (d : Dir) (bits : List Bool) (rs : List RespWord) (t : State) : Prop where
  cfg : t.cfg = s.cfg
  phase : t.rgp.phase = .active
  dir : t.rgp.dir = d
  resps : t.resps = s.resps ++ rs
  noError : ∀ x ∈ rs, respErr x = 0
  cut : CutInto (toWidth d) bits (answeredData rs) t.rgp.nbits.toNat t.rgp.acc.toNat

theorem streamed_init (s : State) (d : Dir) : ∃ t, exec (.rgpInit d) s = .next t ∧ Streamed s d [] [respWord 0 []] t :=
  ⟨_, rfl, rfl, rfl, rfl, rfl, by simp, cutInto_nil (toWidth_pos d)⟩

/-- One push takes in one more group. -/
theorem streamed_push {s t : State} {d : Dir} {bits : List Bool} {rs : List RespWord} (h : Streamed s d bits rs t)
    (v : BitVec (fromWidth d)) :
    ∃ r t', exec (rgpPushOf d v) t = .next t' ∧ Streamed s d (bits ++ groupBits (fromWidth d) v.toNat) (rs ++ [r]) t' := by
  have hnew := rgpPushed_cutInto h.cut.value v.isLt
  have hdata := answeredData_groups (toWidth_le d) hnew.groups (rgpPushedOut_length_le h.cut.value v.isLt h.cut.short)
  have hexec := (exec_rgpPushOf v h.phase h.dir).trans (rgpPush_eq d v.toNat t)
  refine ⟨respWord 0 ((rgpPushedOut d t.rgp v.toNat).map (BitVec.ofNat 8)), _, hexec, ?_⟩
  constructor
  case cfg => exact h.cfg
  case phase => exact h.phase
  case dir => exact h.dir
  case resps => simp [h.resps]
  case noError => exact List.forall_mem_append.2 ⟨h.noError, by simp⟩
  case cut =>
    rw [answeredData_append, hdata]
    exact h.cut.append hnew

/-- The pushes of `vs` take in the stream of `vs`. -/
theorem streamed_pushes {s t : State} {d : Dir} {bits : List Bool} {rs : List RespWord} (h : Streamed s d bits rs t)
    (vs : List (BitVec (fromWidth d))) :
    ∃ rs' t', execAll (vs.map (rgpPushOf d)) t = .next t' ∧
      Streamed s d (bits ++ streamBits (fromWidth d) (vs.map BitVec.toNat)) rs' t' := by
  induction vs generalizing bits rs t with
  | nil => exact ⟨rs, t, rfl, by rwa [List.map_nil, streamBits_nil, List.append_nil]⟩
  | cons v vs ih =>
    obtain ⟨r, t₁, hpush, h₁⟩ := streamed_push h v
    obtain ⟨rs', t', hpushes, h'⟩ := ih h₁
    refine ⟨rs', t', (execAll_cons_next _ _ t t').2 ⟨t₁, hpush, hpushes⟩, ?_⟩
    rwa [List.map_cons, streamBits_cons, ← List.append_assoc]

/-! ### The flush -/

theorem toNat_rgpPadded {r : RgpRec} (hn : r.nbits.toNat < toWidth r.dir) (ha : r.acc.toNat < 2 ^ r.nbits.toNat) :
    (rgpPadded r).map BitVec.toNat =
      if r.nbits.toNat = 0 then [] else [r.acc.toNat * 2 ^ (toWidth r.dir - r.nbits.toNat)] := by
  by_cases h0 : r.nbits.toNat = 0
  · rw [rgpPadded_of_nbits_zero h0, if_pos h0, List.map_nil]
  · have hbyte := (paddedTail_lt hn.le ha).trans_le (Nat.pow_le_pow_right (by decide) (toWidth_le r.dir))
    rw [rgpPadded_of_nbits_pos h0 hn.le ha, if_neg h0, List.map_singleton, BitVec.toNat_ofNat, Nat.mod_eq_of_lt hbyte]

/-- Where no bit is left over, `FLUSH` cannot fail (42_regrouper.md R115). -/
theorem not_rgpBadTail_of_nbits_zero {r : RgpRec} (c : Config) (hn : r.nbits.toNat = 0)
    (ha : r.acc.toNat < 2 ^ r.nbits.toNat) : ¬ rgpBadTail c r = true := by
  rw [hn, Nat.pow_zero, Nat.lt_one_iff] at ha
  rw [rgpBadTail_iff, hn]
  rintro (hacc | ⟨-, hwide⟩)
  · exact hacc (BitVec.eq_of_toNat_eq ha)
  · exact Nat.not_le_of_lt (fromWidth_pos r.dir) hwide

/-- `Regroup` branches on the stream's tail as `RGP.FLUSH` does on the record (42_regrouper.md R110, R115). -/
theorem regroup_of_record {gs out : List Nat} {r : RgpRec} (c : Config) (p : Bool)
    (h : CutInto (toWidth r.dir) (streamBits (fromWidth r.dir) gs) out r.nbits.toNat r.acc.toNat) :
    regroup c.rejectExcess gs (fromWidth r.dir) (toWidth r.dir) p =
      if p then .ok (out ++ (rgpPadded r).map BitVec.toNat)
      else if rgpBadTail c r then .error .invalidPadding
      else .ok out := by
  have hacc : r.acc ≠ 0 ↔ r.acc.toNat ≠ 0 := BitVec.toNat_ne_iff_ne.symm
  rw [h.regroup, toNat_rgpPadded h.short h.value]
  by_cases hn : r.nbits.toNat = 0
  · simp [hn, not_rgpBadTail_of_nbits_zero c hn h.value]
  · simp only [if_neg hn, rgpBadTail_iff, hacc, ite_or]

/-- What 42_regrouper.md R116 says of the last response `r` and the responses `rs` before it. -/
def AnswersRegroup (reject : Bool) (gs : List Nat) (win wout : Nat) (p : Bool) (rs : List RespWord) (r : RespWord) :
    Prop :=
  match regroup reject gs win wout p with
  | .ok out => respErr r = 0 ∧ answeredData (rs ++ [r]) = out
  | .error _ => r = 0x40000000 ∧ answeredData rs = wholeGroups wout (streamBits win gs)

/-- A successful flush adds its data to those of the responses before it. -/
theorem answeredData_close {data : List Byte} (rs : List RespWord) (hl : data.length ≤ 1) :
    respErr (respWord 0 data) = 0 ∧
      answeredData (rs ++ [respWord 0 data]) = answeredData rs ++ data.map BitVec.toNat := by
  rw [answeredData_append, answeredData_singleton 0 (hl.trans (by decide))]
  exact ⟨respErr_respWord 0 data, rfl⟩

/-- `FLUSH` ends the transaction as `Regroup` ends on the whole stream. -/
theorem streamed_flush {s t : State} {d : Dir} {gs : List Nat} {rs : List RespWord}
    (h : Streamed s d (streamBits (fromWidth d) gs) rs t) (p : Bool) :
    ∃ r t', exec (.rgpFlush p) t = .next t' ∧ t'.resps = s.resps ++ rs ++ [r] ∧
      AnswersRegroup s.cfg.rejectExcess gs (fromWidth d) (toWidth d) p rs r := by
  obtain rfl := h.dir
  rw [← h.resps, ← h.cfg]
  have hregroup := regroup_of_record t.cfg p h.cut
  cases p with
  | true =>
    refine ⟨respWord 0 (rgpPadded t.rgp), _, exec_rgpFlush_pad h.phase, rfl, ?_⟩
    rw [AnswersRegroup, hregroup]
    exact answeredData_close rs (rgpPadded_length_le t.rgp)
  | false =>
    by_cases hbad : rgpBadTail t.cfg t.rgp = true
    · refine ⟨0x40000000, _, exec_rgpFlush_bad h.phase hbad, rfl, ?_⟩
      rw [AnswersRegroup, hregroup, if_neg Bool.false_ne_true, if_pos hbad]
      exact ⟨rfl, h.cut.wholeGroups.symm⟩
    · refine ⟨respWord 0 [], _, exec_rgpFlush_drop h.phase hbad, rfl, ?_⟩
      rw [AnswersRegroup, hregroup, if_neg Bool.false_ne_true, if_neg hbad]
      simpa using answeredData_close rs (data := []) (by decide)

/-! ### The transaction -/

/-- 42_regrouper.md R116, in either direction. -/
theorem rgpTransaction_answersRegroup (d : Dir) (s : State) (vs : List (BitVec (fromWidth d))) (p : Bool) :
    ∃ t rs r, execAll (rgpTransaction d vs p) s = .next t ∧ t.resps = s.resps ++ rs ++ [r] ∧
      (∀ x ∈ rs, respErr x = 0) ∧
      AnswersRegroup s.cfg.rejectExcess (vs.map BitVec.toNat) (fromWidth d) (toWidth d) p rs r := by
  obtain ⟨t₀, hinit, h₀⟩ := streamed_init s d
  obtain ⟨rs, t₁, hpushes, h₁⟩ := streamed_pushes h₀ vs
  obtain ⟨r, t, hflush, hresps, hanswers⟩ := streamed_flush h₁ p
  refine ⟨t, rs, r, (execAll_append_next _ _ s t).2 ⟨t₁, ?_, ?_⟩, hresps, h₁.noError, hanswers⟩
  · exact (execAll_cons_next _ _ s t₁).2 ⟨t₀, hinit, hpushes⟩
  · rw [execAll_singleton, hflush]

/-- Settles O46: direction 8 to 5. -/
theorem eightToFiveTransactionComputesRegroup : Obligations.EightToFiveTransactionComputesRegroup := by
  intro s bs p
  rw [← rgpTransaction_eightToFive]
  exact rgpTransaction_answersRegroup .eightToFive s bs p

/-- Settles O47: direction 5 to 8. -/
theorem fiveToEightTransactionComputesRegroup : Obligations.FiveToEightTransactionComputesRegroup := by
  intro s gs p
  rw [← rgpTransaction_fiveToEight]
  exact rgpTransaction_answersRegroup .fiveToEight s gs p

end Sys2Proof.Machine
end

section
/-! The PCK block, command by command (43_checksum.md R128 to R133). -/

namespace Sys2Proof.Machine

/-! ### `PCK.INIT` -/

/-- Settles O49: `INIT` has no condition. -/
theorem pckInitOpensAFrame : Obligations.PckInitOpensAFrame := ⟨rfl, fun _ => rfl⟩

/-! ### The low five bits of a value -/

/-- The mask `0x1F` of 43_checksum.md R130 and R132 keeps the value modulo 32. -/
theorem toNat_and_lowFive {n : Nat} (hn : 5 ≤ n) (x : BitVec n) : (x &&& 0x1F).toNat = x.toNat % 2 ^ 5 := by
  have hmask : (0x1F : BitVec n).toNat = 2 ^ 5 - 1 :=
    Nat.mod_eq_of_lt (Nat.lt_of_lt_of_le (by decide) (Nat.pow_le_pow_right Nat.two_pos hn))
  rw [BitVec.toNat_and, hmask, Nat.and_two_pow_sub_one_eq_mod]

theorem pfxGroup_eq_extractLsb' (c : Byte) : pfxGroup c = c.extractLsb' 0 5 := by
  apply BitVec.eq_of_toNat_eq
  rw [pfxGroup, BitVec.toNat_setWidth, toNat_and_lowFive (by decide), Nat.mod_mod, BitVec.extractLsb'_toNat,
    Nat.shiftRight_zero]

/-- Symbol `k` is the bits `[39 - 5k : 35 - 5k]` (20_memory.md R56). -/
theorem symbolAt_eq_extractLsb' (x : Csum) (k : Nat) : symbolAt x k = (x.extractLsb' (35 - 5 * k) 5).setWidth 8 := by
  have hshift : 5 * (7 - k) = 35 - 5 * k := Nat.mul_sub 5 7 k
  apply BitVec.eq_of_toNat_eq
  rw [symbolAt, hshift, BitVec.toNat_setWidth, toNat_and_lowFive (by decide), BitVec.toNat_ushiftRight,
    BitVec.toNat_setWidth, BitVec.extractLsb'_toNat]

/-! ### The absorbs -/

/-- The word of `PCK.PFX c` (30_encoding.md R74). -/
theorem encode_pckPfx (c : Byte) : encode (.pckPfx c) = 0x3100 ||| c.setWidth 16 := rfl

/-- The word of `PCK.GRP g` (30_encoding.md R74). -/
theorem encode_pckGrp (g : Group) : encode (.pckGrp g) = 0x3200 ||| g.setWidth 16 := by revert g; decide

/-- Settles O51: the phase decides, and `PFX` takes in the low five bits of its character. -/
theorem pckPfxAndGrpAbsorb : Obligations.PckPfxAndGrpAbsorb := by
  refine ⟨fun c => ?_, fun g => ?_, fun s => ⟨fun hna => ⟨fun c => ?_, fun g => ?_⟩,
    fun ha => ⟨fun c => ?_, fun g => ?_⟩⟩⟩
  · rw [← encode_pckPfx]
    exact decode_encode (i := .pckPfx c) rfl
  · rw [← encode_pckGrp]
    exact decode_encode (i := .pckGrp g) rfl
  · exact execPckPfx_of_not_active c s hna
  · exact execPckGrp_of_not_active g s hna
  · rw [← pfxGroup_eq_extractLsb']
    exact execPckPfx_of_active c s ha
  · exact execPckGrp_of_active g s ha

/-! ### `PCK.RDSYM` -/

/-- The word of `PCK.RDSYM k` (30_encoding.md R74). -/
theorem encode_pckRdsym (k : BitVec 3) : encode (.pckRdsym k) = 0x3300 ||| k.setWidth 16 := by revert k; decide

/-- Settles O52: the mask and shift of the model select the symbol's five bits. -/
theorem pckRdsymReadsASymbolOfTheResult : Obligations.PckRdsymReadsASymbolOfTheResult := by
  refine ⟨fun k => ?_, fun s k => ⟨fun hna => ?_, fun ha => ?_⟩⟩
  · rw [← encode_pckRdsym]
    exact decode_encode (i := .pckRdsym k) rfl
  · exact execPckRdsym_of_not_active k s hna
  · rw [← symbolAt_eq_extractLsb']
    exact execPckRdsym_of_active k s ha

/-! ### `PCK.VERIFY` -/

/-- The result is zero just when the register holds `PCK_FINAL_XOR` (43_checksum.md R134). -/
theorem pckResult_eq_zero_iff (c : Config) (p : PckRec) : pckResult c p = 0 ↔ p.csum = c.finalXor :=
  BitVec.xor_eq_zero_iff

/-- Settles O53: the phase first, then the result. -/
theorem pckVerifyTestsTheResult : Obligations.PckVerifyTestsTheResult := by
  refine ⟨rfl, fun s => ⟨fun hna => ?_, fun ha hmatch => ?_, fun ha hmismatch => ?_⟩⟩
  · exact execPckVerify_of_not_active s hna
  · have hzero : pckResult s.cfg s.pck = 0 := (pckResult_eq_zero_iff s.cfg s.pck).2 hmatch
    exact (execPckVerify_of_active s ha).trans (if_neg (not_not_intro hzero))
  · have hnonzero : pckResult s.cfg s.pck ≠ 0 := mt (pckResult_eq_zero_iff s.cfg s.pck).1 hmismatch
    exact (execPckVerify_of_active s ha).trans (if_pos hnonzero)

end Sys2Proof.Machine
end

section
/-! The system commands (44_system.md R140 to R142): no condition on any block's phase. -/

namespace Sys2Proof.Machine

/-! ### `RDSR` -/

/-- The word of `RDSR n` (30_encoding.md R74). -/
theorem encode_rdsr (n : Byte) : encode (.rdsr n) = 0x0100 ||| n.setWidth 16 := rfl

/-- A number above 10 is no operand of `RDSR` (10_state.md R29, 30_encoding.md R75). -/
theorem decode_encode_rdsr_of_gt {n : Byte} (h : 10 < n.toNat) :
    decode (encode (.rdsr n)) = .error .noSuchStatusReg :=
  (decode_commandWord 0 1 n).trans (if_neg (Nat.not_le.2 h))

theorem statusBytes_append (v : StatusWord) : v.extractLsb' 8 8 ++ v.extractLsb' 0 8 = v :=
  (BitVec.extractLsb'_append_extractLsb'_eq_extractLsb' (start₁ := 0) rfl).trans BitVec.extractLsb'_eq_self

/-- The upper half of an answer with two data bytes is `ERR` 0 and `COUNT` 2, the lower half the data (R72). -/
theorem respWord_two (lo hi : Byte) : respWord 0 [lo, hi] = (2 : BitVec 16) ++ (hi ++ lo) :=
  BitVec.append_assoc (x₁ := (0 : ErrCode) ++ (0 : BitVec 10) ++ (2 : BitVec 2))

/-- The two data bytes of `RDSR` are the register's value, in the lower half of the word. -/
theorem respWord_statusBytes (v : StatusWord) :
    respWord 0 [v.extractLsb' 0 8, v.extractLsb' 8 8] = 0x00020000 + v.setWidth 32 := by
  have hupper : (0x00020000 : RespWord) = (2 : BitVec 16) ++ (0 : BitVec 16) := rfl
  have hlower : v.setWidth 32 = (0 : BitVec 16) ++ v := BitVec.setWidth_eq_append (by decide)
  rw [respWord_two, statusBytes_append, hupper, hlower]
  exact BitVec.append_zero_add_zero_append.symm

theorem execRdsr_of_statusReg {s : State} {n : Byte} {v : StatusWord} (h : statusReg s n = some v) :
    execRdsr n s = .next (s.say (0x00020000 + v.setWidth 32)) := by
  rw [execRdsr, h, ← respWord_statusBytes]
  rfl

/-- Settles O26: the registers that exist are those `RDSR` may name, and its data are the two halves of one of them. -/
theorem rdsrAnswersTheRegister : Obligations.RdsrAnswersTheRegister := by
  intro n
  rw [← encode_rdsr]
  refine ⟨fun hn => ⟨decode_encode (decide_eq_true hn), fun s => ?_⟩, fun hn i hi => ?_⟩
  · obtain ⟨v, hv⟩ := statusReg_exists s n hn
    exact ⟨v, hv, execRdsr_of_statusReg hv⟩
  · rw [decode_encode_rdsr_of_gt hn] at hi
    cases hi

/-! ### `NOP` and `SRST` -/

/-- Settles O25: `NOP` is `respond` without data. -/
theorem nopOnlyAnswers : Obligations.NopOnlyAnswers := ⟨decode_encode (i := .nop) rfl, fun s => respond_eq [] s⟩

/-- Settles O28: `SRST` is the reset of the unit's tuple, answered without data. -/
theorem srstGivesTheResetState : Obligations.SrstGivesTheResetState :=
  ⟨decode_encode (i := .srst) rfl, fun s => respond_eq [] (resetUnit s)⟩

end Sys2Proof.Machine
end

section
/-! How a command is answered (60_exceptions.md R151 to R156): success, one of the two refusals, or a data error, each data
error with its cause. -/

namespace Sys2Proof.Machine

/-! ### Illegal words -/

/-- Settles O8, by the refusal of a word that decodes to nothing. -/
theorem stepRefusesIllegalWords : Obligations.StepRefusesIllegalWords := by
  intro s w rest hi hillegal
  rcases step_command s w rest hi with ⟨i, hw, -⟩ | ⟨-, hstep⟩
  · exact absurd hw (hillegal i)
  · exact hstep

/-! ### The causes of the data errors -/

/-- A value that stands for no unit is a code outside the alphabet, in DEC (41_base58.md R96). -/
theorem b58Unit_eq_none_iff (m : Mode) (v : Byte) : b58Unit m v = none ↔ m = .dec ∧ ∀ d, b58Char d ≠ some v := by
  cases m with
  | enc => simp [b58Unit]
  | dec => simp [b58Unit, Option.eq_none_iff_forall_ne_some, b58Inv_eq_some_iff]

/-- When a command fails with a data error (60_exceptions.md R152, R157). -/
def ErrorCause (k : Kind) (i : Instr) (s : State) : Prop :=
  match k with
  | .invalidCharacter => ∃ v, i = .b58Push v ∧ s.b58.phase = .active ∧ b58Unit s.b58.mode v = none
  | .invalidLength => i = .b58Fin ∧ s.b58.phase = .active ∧ s.b58.mode = .dec ∧
      (s.b58.ovf = true ∨ b58OutLen s.b58 ≠ b58DecLen)
  | .checksumMismatch => i = .pckVerify ∧ s.pck.phase = .active ∧ pckResult s.cfg s.pck ≠ 0
  | .invalidPadding => i = .rgpFlush false ∧ s.rgp.phase = .active ∧ rgpBadTail s.cfg s.rgp = true
  | .eCapacity => ∃ v, i = .b58Push v ∧ s.b58.phase = .active ∧ s.b58.mode = .enc ∧ s.b58.ovf = false ∧
      ∃ cells, readCells s.cfg.cap s.buf 0 s.b58.blen.toNat = .ok cells ∧
        b58Absorb s.cfg.cap s.b58 (cells.map BitVec.toNat) v.toNat = none

theorem block_of_errorCause {k : Kind} {i : Instr} {s : State} (h : ErrorCause k i s) : i.block = kindBlock k := by
  cases k with
  | invalidCharacter | eCapacity => obtain ⟨v, rfl, -⟩ := h; rfl
  | invalidLength | checksumMismatch | invalidPadding => obtain ⟨rfl, -⟩ := h; rfl

/-- A cause is sufficient. -/
theorem exec_of_errorCause {k : Kind} {i : Instr} {s : State} (h : ErrorCause k i s) : exec i s = raise k s := by
  cases k with
  | invalidCharacter =>
    obtain ⟨v, rfl, ha, hu⟩ := h
    refine (execB58Push_of_active v s ha).trans ?_
    simp only [hu]
  | invalidLength =>
    obtain ⟨rfl, ha, hbad⟩ := h
    exact (execB58Fin_of_active s ha).trans (if_pos hbad)
  | checksumMismatch =>
    obtain ⟨rfl, ha, hres⟩ := h
    exact (execPckVerify_of_active s ha).trans (if_pos hres)
  | invalidPadding =>
    obtain ⟨rfl, ha, hbad⟩ := h
    exact exec_rgpFlush_bad ha hbad
  | eCapacity =>
    obtain ⟨v, rfl, ha, hm, ho, cells, hcells, hfull⟩ := h
    refine (exec_b58Push_of_unit ha (b58Unit_enc hm v)).trans ?_
    simp only [b58PushUnit, ho, hcells, hfull]
    exact b58Overflow_enc s hm

/-! ### The codes of the data errors -/

/-- The codes that data-error entry latches (60_exceptions.md R151). -/
def dataErrorCodes : List ErrCode := [0x1, 0x2, 0x3, 0x4, 0xC]

theorem kindCode_mem_dataErrorCodes (k : Kind) : kindCode k ∈ dataErrorCodes := by cases k <;> decide

theorem kindCode_injective : Function.Injective kindCode := by
  intro k k'
  cases k <;> cases k' <;> decide

/-- The response of a data error is its code in `RESP[31:28]` and no data. -/
theorem respWord_kindCode (k : Kind) : respWord (kindCode k) [] = (kindCode k).setWidth 32 <<< 28 := by
  cases k <;> decide

/-! ### The answer to a command -/

/-- What the response `r` says of the command `i`, taken in `s` and leaving `t`. -/
inductive Answer (i : Instr) (s t : State) (r : RespWord) : Prop
  | success (herr : respErr r = 0)
  | outOfSequence (hrefused : accepts s i = false) (herr : respErr r = seqCode)
  | illegal (herr : respErr r = illegalCode)
  | failed (k : Kind) (hcause : ErrorCause k i s) (hword : r = respWord (kindCode k) [])
      (hnext : t = (latchError k s).say r)

/-- `t` has one response more than `s`, and that response answers `i`. -/
def Answered (i : Instr) (s t : State) : Prop := ∃ r, t.resps = s.resps ++ [r] ∧ Answer i s t r

section Rules

variable {i : Instr} {s : State}

theorem answered_success {t u : State} {data : List Byte} (ht : t = u.say (respWord 0 data))
    (hu : u.resps = s.resps := by rfl) : Answered i s t :=
  ⟨respWord 0 data, by rw [ht, State.say_resps, hu], .success (respErr_respWord 0 data)⟩

theorem answered_failed {t : State} {k : Kind} (hcause : ErrorCause k i s)
    (ht : t = (latchError k s).say (respWord (kindCode k) [])) : Answered i s t :=
  ⟨_, by rw [ht, State.say_resps, latchError_resps], .failed k hcause rfl ht⟩

theorem answered_respond {u : State} {data : List Byte} (hu : u.resps = s.resps := by rfl) :
    Ensures (respond data u) (Answered i s) := ensures_respond (answered_success rfl hu)

theorem answered_raise {k : Kind} (hcause : ErrorCause k i s) : Ensures (raise k s) (Answered i s) :=
  ensures_raise (answered_failed hcause rfl)

theorem answered_whenAccepted {body : Result} (h : accepts s i = true → Ensures body (Answered i s)) :
    Ensures (whenAccepted i s body) (Answered i s) := by
  rcases whenAccepted_cases i s body with ⟨ha, heq⟩ | ⟨hna, heq⟩
  · rw [heq]
    exact h ha
  · rw [heq]
    exact ensures_refuseSeq ⟨_, rfl, .outOfSequence hna (respErr_respWord seqCode [])⟩

end Rules

theorem answered_execRdsr (n : Byte) (s : State) : Ensures (execRdsr n s) (Answered (.rdsr n) s) := by
  unfold execRdsr
  split
  · exact answered_respond
  · exact ensures_refuseIllegal ⟨_, rfl, .illegal (respErr_respWord illegalCode [])⟩

/-- A push of a unit fails only for want of room, and only in ENC (41_base58.md R96). -/
theorem answered_b58PushUnit {v : Byte} {u : Nat} {s : State} (ha : s.b58.phase = .active)
    (hu : b58Unit s.b58.mode v = some u) : Ensures (b58PushUnit u s) (Answered (.b58Push v) s) := by
  intro t ht
  rcases b58PushUnit_cases u s t ht with ⟨-, hnext⟩ | ⟨ho, cells, hcells, hcases⟩
  · exact answered_success hnext
  · rcases hcases with ⟨hfull, hm, hnext⟩ | ⟨-, -, hnext⟩ | ⟨r, -, hcommit⟩
    · obtain rfl : v.toNat = u := Option.some.inj ((b58Unit_enc hm v).symm.trans hu)
      exact answered_failed (k := .eCapacity) ⟨v, rfl, ha, hm, ho, cells, hcells, hfull⟩ hnext
    · exact answered_success hnext
    · obtain ⟨m, -, hnext⟩ := b58Commit_cases r s t hcommit
      exact answered_success hnext

theorem answered_execB58Push (v : Byte) (s : State) : Ensures (execB58Push v s) (Answered (.b58Push v) s) := by
  refine answered_whenAccepted fun ha => ?_
  have hactive : s.b58.phase = .active := eq_of_beq ha
  cases hu : b58Unit s.b58.mode v with
  | none => exact answered_raise (k := .invalidCharacter) ⟨v, rfl, hactive, hu⟩
  | some u => exact answered_b58PushUnit hactive hu

theorem answered_execB58Fin (s : State) : Ensures (execB58Fin s) (Answered .b58Fin s) := by
  refine answered_whenAccepted fun ha => ?_
  split
  case isTrue hbad => exact answered_raise (k := .invalidLength) ⟨rfl, eq_of_beq ha, hbad⟩
  case isFalse => exact answered_respond

theorem answered_execB58Pop (s : State) : Ensures (execB58Pop s) (Answered .b58Pop s) := by
  refine answered_whenAccepted fun ha t ht => ?_
  have hd : s.b58.phase = .drain := eq_of_beq ha
  have hpop : execB58Pop s = .next t := (whenAccepted_of_accepts _ s _ ha).trans ht
  rcases execB58Pop_cases s t hd hpop with ⟨-, hnext⟩ | ⟨-, d, c, -, -, hnext⟩ <;> exact answered_success hnext

theorem answered_execRgpFlush (p : Bool) (s : State) : Ensures (execRgpFlush p s) (Answered (.rgpFlush p) s) := by
  refine answered_whenAccepted fun ha => ?_
  cases p with
  | true => exact answered_respond
  | false =>
    simp only [Bool.false_eq_true, if_false]
    split
    case isTrue hbad => exact answered_raise (k := .invalidPadding) ⟨rfl, eq_of_beq ha, hbad⟩
    case isFalse => exact answered_respond

theorem answered_execPckVerify (s : State) : Ensures (execPckVerify s) (Answered .pckVerify s) := by
  refine answered_whenAccepted fun ha => ?_
  split
  case isTrue hres => exact answered_raise (k := .checksumMismatch) ⟨rfl, eq_of_beq ha, hres⟩
  case isFalse => exact answered_respond

/-- A cause is necessary: what a command can answer, in every state and without the invariants. -/
theorem answered_exec (i : Instr) (s : State) : Ensures (exec i s) (Answered i s) := by
  cases i with
  | rdsr n => exact answered_execRdsr n s
  | b58Push v => exact answered_execB58Push v s
  | b58Fin => exact answered_execB58Fin s
  | b58Pop => exact answered_execB58Pop s
  | rgpFlush p => exact answered_execRgpFlush p s
  | pckVerify => exact answered_execPckVerify s
  | nop | srst | b58Init | rgpInit | pckInit => exact answered_respond
  | rgpPush8 | rgpPush5 | pckPfx | pckGrp | pckRdsym => exact answered_whenAccepted fun _ => answered_respond

section Answers

variable {i : Instr} {s t : State} {r : RespWord}

theorem answer_of_exec (ht : exec i s = .next t) (hr : t.resps = s.resps ++ [r]) : Answer i s t r := by
  obtain ⟨r', hr', h⟩ := answered_exec i s t ht
  obtain rfl : r' = r := List.singleton_inj.1 (List.append_cancel_left (hr'.symm.trans hr))
  exact h

/-- A response with the code of a data error is that of a data error, which had its cause. -/
theorem Answer.failed_of_mem (h : Answer i s t r) (hmem : respErr r ∈ dataErrorCodes) :
    ∃ k, ErrorCause k i s ∧ r = respWord (kindCode k) [] ∧ t = (latchError k s).say r := by
  cases h with
  | failed k hcause hword hnext => exact ⟨k, hcause, hword, hnext⟩
  | success herr | outOfSequence _ herr | illegal herr => exact absurd (herr ▸ hmem) (by decide)

/-- `E_SEQ` is the answer to commands that the block does not accept, and to no other. -/
theorem Answer.not_accepts_of_seq (h : Answer i s t r) (hseq : respErr r = seqCode) : accepts s i = false := by
  cases h with
  | outOfSequence hrefused _ => exact hrefused
  | success herr | illegal herr => exact absurd (herr.symm.trans hseq) (by decide)
  | failed k _ hword _ =>
    have hcode : kindCode k = seqCode := by rw [← hseq, hword, respErr_respWord]
    exact absurd (hcode ▸ kindCode_mem_dataErrorCodes k) (by decide)

/-- A command is answered by the code of a data error just when it has the cause of that error. -/
theorem respErr_eq_kindCode_iff (ht : exec i s = .next t) (hr : t.resps = s.resps ++ [r]) (k : Kind) :
    respErr r = kindCode k ↔ ErrorCause k i s := by
  refine ⟨fun hcode => ?_, fun hcause => ?_⟩
  · obtain ⟨k', hcause, rfl, -⟩ := (answer_of_exec ht hr).failed_of_mem (hcode ▸ kindCode_mem_dataErrorCodes k)
    obtain rfl : k' = k := kindCode_injective (by rw [← hcode, respErr_respWord])
    exact hcause
  · obtain rfl := Host.Outcome.next.inj ((exec_of_errorCause hcause).symm.trans ht)
    rw [State.say_resps, latchError_resps] at hr
    obtain rfl := List.singleton_inj.1 (List.append_cancel_left hr)
    exact respErr_respWord _ _

end Answers

/-! ### The acceptance table (60_exceptions.md R155) -/

theorem accepts_iff_acceptedBy (i : Instr) (s : State) : accepts s i = true ↔ acceptedBy i s := by
  cases i <;> simp [accepts, acceptedBy]

/-- Settles O16: the commands outside the table are refused, and no other answer has the code of `E_SEQ`. -/
theorem outOfSequenceExactlyOutsideTheTable : Obligations.OutOfSequenceExactlyOutsideTheTable := by
  intro i s _
  rw [← accepts_iff_acceptedBy]
  refine ⟨fun hna => exec_of_not_accepts i s (Bool.eq_false_iff.2 hna), fun ha t ht hr => ?_⟩
  have hrefused : accepts s i = false := (answer_of_exec ht hr).not_accepts_of_seq (by decide)
  exact absurd (ha.symm.trans hrefused) (by decide)

/-! ### Data-error entry -/

/-- Settles O17: such a response is that of a data error, which latches its code in the block it belongs to. -/
theorem dataErrorLatchesCodeAndPhaseOnly : Obligations.DataErrorLatchesCodeAndPhaseOnly := by
  intro i s t r ht hr hmem
  obtain ⟨k, hcause, hword, rfl⟩ := (answer_of_exec ht hr).failed_of_mem hmem
  have hblock : i.block = kindBlock k := block_of_errorCause hcause
  have hcode : respErr r = kindCode k := by rw [hword, respErr_respWord]
  rw [hcode, hblock]
  refine ⟨hword.trans (respWord_kindCode k), ?_⟩
  cases hk : kindBlock k with
  | sys => cases k <;> cases hk
  | b58 => exact .inl ⟨rfl, by rw [latchError_b58 k s hk]; rfl⟩
  | rgp => exact .inr (.inl ⟨rfl, by rw [latchError_rgp k s hk]; rfl⟩)
  | pck => exact .inr (.inr ⟨rfl, by rw [latchError_pck k s hk]; rfl⟩)

/-- Settles O18, by the causes of the four source kinds. -/
theorem sourceErrorsHaveExactlyTheirCauses : Obligations.SourceErrorsHaveExactlyTheirCauses := by
  intro i s t r ht hr
  have hiff (k : Kind) : respErr r = kindCode k ↔ ErrorCause k i s := respErr_eq_kindCode_iff ht hr k
  refine ⟨(hiff .invalidCharacter).trans ?_, hiff .invalidLength, hiff .checksumMismatch,
    (hiff .invalidPadding).trans ?_⟩
  · simp only [ErrorCause, b58Unit_eq_none_iff]
  · simp only [ErrorCause, rgpBadTail_iff, fromWidth_eq_ite]

end Sys2Proof.Machine
end

section
/-! How a block leaves ERROR (60_exceptions.md R161, R162): by its own `INIT`, by `SRST` or by the hardware reset. -/

namespace Sys2Proof.Machine

/-- `PHASE` and `ERR` of a block. The system commands have no record: they stand as a block that is always idle. -/
def blockStatus (b : Block) (s : State) : Phase × ErrCode :=
  match b with
  | .sys => (.idle, 0)
  | .b58 => (s.b58.phase, s.b58.err)
  | .rgp => (s.rgp.phase, s.rgp.err)
  | .pck => (s.pck.phase, s.pck.err)

/-- The words of the block's `INIT` (30_encoding.md R74). -/
def initWords : Block → List CmdWord
  | .sys => []
  | .b58 => [0x1000, 0x1001]
  | .rgp => [0x2000, 0x2001]
  | .pck => [0x3000]

/-- Both resets leave every block idle (70_reset_and_hazards.md R176). -/
theorem blockStatus_resetUnit (b : Block) (s : State) : blockStatus b (resetUnit s) = (.idle, 0) := by cases b <;> rfl

theorem blockStatus_say (b : Block) (s : State) (r : RespWord) : blockStatus b (s.say r) = blockStatus b s := by
  cases b <;> rfl

/-- In ERROR a block refuses every command of its own but `INIT`, which opens a transaction. -/
theorem exec_in_error {i : Instr} {s : State} (he : (blockStatus i.block s).1 = .error) :
    exec i s = refuseSeq s ∨
      encode i ∈ initWords i.block ∧ Ensures (exec i s) fun t => blockStatus i.block t = (.active, 0) := by
  cases i with
  | nop | rdsr | srst => cases he
  | b58Init m => exact .inr ⟨by cases m <;> decide, ensures_respond rfl⟩
  | rgpInit d => exact .inr ⟨by cases d <;> decide, ensures_respond rfl⟩
  | pckInit => exact .inr ⟨by decide, ensures_respond rfl⟩
  | _ =>
    refine .inl (exec_of_not_accepts _ s ?_)
    simp only [blockStatus, Instr.block] at he
    simp [accepts, he]

section Left

variable {b : Block} {s t : State}

/-- A command leaves the record of a block in ERROR as it is, unless it is the block's `INIT` or `SRST`. -/
theorem exec_of_block_in_error {i : Instr} (he : (blockStatus b s).1 = .error) (ht : exec i s = .next t) :
    sameBlock b s t ∨ encode i ∈ initWords b ∧ blockStatus b t = (.active, 0) ∨
      i = .srst ∧ blockStatus b t = (.idle, 0) := by
  by_cases hi : i = .srst
  · subst hi
    obtain rfl := Host.Outcome.next.inj ht
    exact .inr (.inr ⟨rfl, (blockStatus_say b _ _).trans (blockStatus_resetUnit b s)⟩)
  by_cases hb : i.block = b
  · subst hb
    rcases exec_in_error he with hrefuse | ⟨hword, hopen⟩
    · obtain rfl := Host.Outcome.next.inj (hrefuse.symm.trans ht)
      exact .inl ((sameBlock_say i.block s s _).2 (sameBlock_refl i.block s))
    · exact .inr (.inl ⟨hword, hopen t ht⟩)
  · refine .inl (exec_keeps_other_block ?_ hb hi ht)
    rintro rfl
    cases he

theorem step_reset {rest : List HostInput} (hi : s.inputs = .reset :: rest) :
    step s = .next (resetUnit { s with inputs := rest }) := by simp [step, fetch, hi]

/-- R161 and R162 for one block: a step leaves its record as it is, or took its `INIT`, or `SRST` or a hardware reset. -/
def KeptOrLeft (b : Block) (s t : State) (x : HostInput) : Prop :=
  sameBlock b t s ∨ (∃ w ∈ initWords b, x = .command w) ∧ blockStatus b t = (.active, 0) ∨
    (x = .command 0x0F00 ∨ x = .reset) ∧ blockStatus b t = (.idle, 0)

theorem keptOrLeft_step {x : HostInput} {rest : List HostInput} (hi : s.inputs = x :: rest)
    (he : (blockStatus b { s with inputs := rest }).1 = .error) (ht : step s = .next t) :
    KeptOrLeft b { s with inputs := rest } t x := by
  cases x with
  | reset =>
    obtain rfl := Host.Outcome.next.inj ((step_reset hi).symm.trans ht)
    exact .inr (.inr ⟨.inr rfl, blockStatus_resetUnit b _⟩)
  | command w =>
    rcases step_command s w rest hi with ⟨i, hw, hstep⟩ | ⟨-, hstep⟩
    · obtain ⟨-, rfl⟩ := encode_of_decode hw
      rcases exec_of_block_in_error he (hstep.symm.trans ht) with hsame | ⟨hword, hopen⟩ | ⟨rfl, hidle⟩
      · exact .inl (sameBlock_symm hsame)
      · exact .inr (.inl ⟨⟨_, hword, rfl⟩, hopen⟩)
      · exact .inr (.inr ⟨.inl rfl, hidle⟩)
    · obtain rfl := Host.Outcome.next.inj (hstep.symm.trans ht)
      exact .inl (sameBlock_symm ((sameBlock_say b _ _ _).2 (sameBlock_refl b _)))

end Left

/-- Settles O24, block by block. -/
theorem errorIsLeftOnlyByInitOrReset : Obligations.ErrorIsLeftOnlyByInitOrReset := by
  intro s t x rest hi ht
  have hstep {b : Block} (he : (blockStatus b { s with inputs := rest }).1 = .error) :
      KeptOrLeft b { s with inputs := rest } t x := keptOrLeft_step hi he ht
  refine ⟨fun he => ?_, fun he => ?_, fun he => ?_⟩
  · simpa [initWords, blockStatus] using Or.imp_left And.left (hstep (b := .b58) he)
  · simpa [KeptOrLeft, sameBlock, initWords, blockStatus] using hstep (b := .rgp) he
  · simpa [KeptOrLeft, sameBlock, initWords, blockStatus] using hstep (b := .pck) he

end Sys2Proof.Machine
end

section
/-! The hardware reset input (70_reset_and_hazards.md R175). -/

namespace Sys2Proof.Machine

/-- The values a reset writes are those of the reset state; the build parameters and the two lists of the run stay. -/
theorem resetUnit_eq_tuple_of_reset (s : State) :
    resetUnit s = { s with
      b58 := State.reset.b58, buf := State.reset.buf, rgp := State.reset.rgp, pck := State.reset.pck } := rfl

/-- Settles O9: the step takes the input and is `resetUnit`, which writes the tuple of the reset state. -/
theorem hardwareResetGivesTheResetState : Obligations.HardwareResetGivesTheResetState := by
  intro s rest hi
  rw [step_reset hi, resetUnit_eq_tuple_of_reset]

end Sys2Proof.Machine
end

section
/-! The alphabet is the source's string (10_state.md R41). -/

namespace Sys2Proof.Machine

/-- The source's alphabet (10_state.md R41). -/
def alphaString : String := "123456789ABCDEFGHJKLMNPQRSTUVWXYZabcdefghijkmnopqrstuvwxyz"

theorem b58Alpha_eq_map_toNat : b58Alpha = alphaString.toList.map fun c => BitVec.ofNat 8 c.toNat := by
  decide

/-- Settles O58, since looking up a code commutes with writing the characters as codes. -/
theorem alphabetIsTheSourcesString : Obligations.AlphabetIsTheSourcesString := by
  intro d
  rw [b58Char, b58Alpha_eq_map_toNat, List.getElem?_map]
  rfl

end Sys2Proof.Machine
end

section
/-! The bounds of the B58 step (41_base58.md R94). -/

namespace Sys2Proof.Machine

/-- A cell times `FROM` plus a carry stays below `TO * FROM`. -/
theorem mul_add_lt_mul {c k rin rout : Nat} (hc : c < rout) (hk : k < rin) : c * rin + k < rout * rin :=
  calc c * rin + k < (c + 1) * rin := by rw [Nat.succ_mul]; omega
    _ ≤ rout * rin := Nat.mul_le_mul_right rin hc

/-- The carry stays below `FROM` all along the pass. -/
theorem mulCarry_carry_lt {rin rout : Nat} {cells : List Nat} {u : Nat} (hcells : ∀ d ∈ cells, d < rout)
    (hu : u < rin) : (mulCarry rin rout cells u).2 < rin := by
  induction cells generalizing u with
  | nil => exact hu
  | cons c cs ih =>
    obtain ⟨hc, hcs⟩ := List.forall_mem_cons.1 hcells
    exact ih hcs (Nat.div_lt_of_lt_mul (mul_add_lt_mul hc hu))

/-- An absorb appends no more cells than the carry has digits. -/
theorem absorbCells_length_le {rin rout k : Nat} {cells : List Nat} {u : Nat} (hout : 2 ≤ rout)
    (hcells : ∀ d ∈ cells, d < rout) (hu : u < rin) (hk : rin ≤ rout ^ k) :
    (absorbCells rin rout cells u).length ≤ cells.length + k := by
  have hcarry := (mulCarry_carry_lt hcells hu).trans_le hk
  rw [absorbCells, List.length_append, mulCarry_length, growDigits_eq_digits rout hout _ _ (Nat.le_refl _)]
  exact Nat.add_le_add_left ((Nat.digits_length_le_iff hout _).2 hcarry) _

/-- Settles O37: both modes have `TO * FROM` = 14848, and a carry below `FROM` has at most two digits of ENC or one of
DEC. -/
theorem absorbStaysWithinItsBounds : Obligations.AbsorbStaysWithinItsBounds := by
  intro m cells u hcells hu
  have hproduct : toRadix m * fromRadix m = 14848 := by cases m <;> rfl
  have hdigits : fromRadix m ≤ toRadix m ^ (if m = .enc then 2 else 1) := by cases m <;> decide
  refine ⟨fun c k hc hk => ?_, mulCarry_carry_lt hcells hu,
    absorbCells_digit _ _ (two_le_toRadix m) cells u, absorbCells_length_le (two_le_toRadix m) hcells hu hdigits⟩
  have := mul_add_lt_mul hc hk
  omega

end Sys2Proof.Machine
end

section
/-! The value of a digit sequence (20_memory.md R52, R53). -/

namespace Sys2Proof.Machine

@[simp] theorem valueOf_nil (base : Nat) : valueOf base [] = 0 := rfl

theorem valueOf_snoc (base : Nat) (ds : List Nat) (d : Nat) :
    valueOf base (ds ++ [d]) = valueOf base ds * base + d := List.foldl_concat ..

/-- The library's digit sequences begin with the least significant digit. -/
theorem valueOf_eq_ofDigits (base : Nat) (ds : List Nat) : valueOf base ds = Nat.ofDigits base ds.reverse := by
  induction ds using List.reverseRecOn with
  | nil => rfl
  | append_singleton ds d ih =>
    rw [valueOf_snoc, ih, List.reverse_concat, Nat.ofDigits_cons, Nat.mul_comm, Nat.add_comm]

theorem valueOf_lt {base : Nat} (hb : 1 < base) {ds : List Nat} (hds : ∀ d ∈ ds, d < base) :
    valueOf base ds < base ^ ds.length := by
  rw [valueOf_eq_ofDigits, ← List.length_reverse]
  exact Nat.ofDigits_lt_base_pow_length hb fun d hd => hds d (List.mem_reverse.1 hd)

/-- Digit sequences of one length with the same value are the same. -/
theorem valueOf_inj {base : Nat} (hb : 1 < base) {ds es : List Nat} (hlen : ds.length = es.length)
    (hds : ∀ d ∈ ds, d < base) (hes : ∀ d ∈ es, d < base) (h : valueOf base ds = valueOf base es) : ds = es := by
  rw [valueOf_eq_ofDigits, valueOf_eq_ofDigits] at h
  refine List.reverse_injective (Nat.ofDigits_inj_of_len_eq hb (by simpa) ?_ ?_ h)
  · exact fun d hd => hds d (List.mem_reverse.1 hd)
  · exact fun d hd => hes d (List.mem_reverse.1 hd)

end Sys2Proof.Machine
end

section
/-! The polymod register over xor (43_checksum.md R129): the value of a step and its linearity, for any constants. -/

namespace Sys2Proof.Machine

theorem pickGen_xor (a b : Bool) (g : Csum) : pickGen (a ^^ b) g = pickGen a g ^^^ pickGen b g := by
  cases a <;> cases b <;> simp

/-- The low 35 bits moved up by five are the whole state shifted left by five. -/
theorem low35_append_eq_shiftLeft (c : Csum) : c.extractLsb' 0 35 ++ (0 : BitVec 5) = c <<< 5 := by
  apply BitVec.eq_of_toNat_eq
  have hzero : (0 : BitVec 5).toNat = 0 := rfl
  rw [BitVec.toNat_append, BitVec.extractLsb'_toNat, BitVec.toNat_shiftLeft, Nat.shiftRight_zero, hzero,
    Nat.or_zero, Nat.shiftLeft_eq, Nat.shiftLeft_eq]
  exact (Nat.mul_mod_mul_right (2 ^ 5) c.toNat (2 ^ 35)).symm

/-- The step with each constant xored in where its bit is set (R129). -/
theorem pckStep_eq_shiftLeft (gen : Vector Csum 5) (c : Csum) (d : Group) :
    pckStep gen c d =
      (c <<< 5) ^^^ d.setWidth 40 ^^^ pickGen (c.getLsbD 35) gen[0] ^^^ pickGen (c.getLsbD 36) gen[1] ^^^
        pickGen (c.getLsbD 37) gen[2] ^^^ pickGen (c.getLsbD 38) gen[3] ^^^ pickGen (c.getLsbD 39) gen[4] := by
  rw [pckStep_eq, low35_append_eq_shiftLeft]

/-- The step is linear: so are the shift, the widening, and each constant taken by its bit. -/
theorem pckStep_xor (gen : Vector Csum 5) (a b : Csum) (d e : Group) :
    pckStep gen (a ^^^ b) (d ^^^ e) = pckStep gen a d ^^^ pckStep gen b e := by
  simp only [pckStep_eq_shiftLeft, BitVec.shiftLeft_xor_distrib, BitVec.setWidth_xor, BitVec.getLsbD_xor, pickGen_xor]
  ac_rfl

/-- Settles O50: the model's value of the step, and each of its parts is linear. -/
theorem pckStepValueAndLinearity : Obligations.PckStepValueAndLinearity :=
  fun gen => ⟨pckStep_eq_shiftLeft gen, pckStep_xor gen⟩

end Sys2Proof.Machine
end

section
/-! The last eight groups of a frame (43_checksum.md R137, R138): just one choice of them makes it verify, the symbols
of `Compute`. -/

namespace Sys2Proof.Machine

/-! ### Eight groups and the 40-bit word they make -/

/-- What the register holds after the groups `gs` when it starts from zero. -/
def packGroups (gen : Vector Csum 5) (gs : List Group) : Csum := gs.foldl (pckStep gen) 0

/-- A step from a state with zero high bits takes in no constant: it appends the group. -/
theorem pckStep_of_lt (gen : Vector Csum 5) {c : Csum} (hc : c.toNat < 2 ^ 35) (d : Group) :
    pckStep gen c d = c.extractLsb' 0 35 ++ d := by
  have hhigh : c.extractLsb' 35 5 = 0 := by
    apply BitVec.eq_of_toNat_eq
    rw [BitVec.extractLsb'_toNat, Nat.shiftRight_eq_div_pow, Nat.div_eq_of_lt hc]
    rfl
  have hlow : d.setWidth 40 = (0 : BitVec 35) ++ d := BitVec.setWidth_eq_append (by decide)
  rw [pckStep, hhigh, hlow, xorGens_eq, BitVec.xor_append]
  simp

theorem toNat_pckStep_of_lt (gen : Vector Csum 5) {c : Csum} (hc : c.toNat < 2 ^ 35) (d : Group) :
    (pckStep gen c d).toNat = c.toNat * 32 + d.toNat := by
  rw [pckStep_of_lt gen hc, BitVec.toNat_append, BitVec.extractLsb'_toNat, Nat.shiftRight_zero, Nat.mod_eq_of_lt hc,
    ← Nat.shiftLeft_add_eq_or_of_lt d.isLt, Nat.shiftLeft_eq]

theorem toNat_lt_of_mem_groups (gs : List Group) : ∀ d ∈ gs.map BitVec.toNat, d < 32 :=
  List.forall_mem_map.2 fun g _ => g.isLt

/-- Up to eight groups stand in the word one beside the other. -/
theorem toNat_packGroups (gen : Vector Csum 5) (gs : List Group) (h : gs.length ≤ 8) :
    (packGroups gen gs).toNat = valueOf 32 (gs.map BitVec.toNat) := by
  induction gs using List.reverseRecOn with
  | nil => rfl
  | append_singleton gs g ih =>
    rw [List.length_append, List.length_singleton] at h
    have hpack := ih (by omega)
    have hlt : (packGroups gen gs).toNat < 2 ^ 35 := by
      calc (packGroups gen gs).toNat < 32 ^ (gs.map BitVec.toNat).length :=
            hpack.trans_lt (valueOf_lt (by decide) (toNat_lt_of_mem_groups gs))
        _ ≤ 32 ^ 7 := Nat.pow_le_pow_right (by decide) (by rw [List.length_map]; omega)
        _ = 2 ^ 35 := by decide
    have hstep : packGroups gen (gs ++ [g]) = pckStep gen (packGroups gen gs) g := List.foldl_concat ..
    rw [hstep, toNat_pckStep_of_lt gen hlt, hpack, List.map_append, List.map_singleton, valueOf_snoc]

theorem length_symbols (x : Csum) : (symbols x).length = 8 := rfl

/-- The symbols of a word are the word, cut into eight groups (R126). -/
theorem packGroups_symbols (gen : Vector Csum 5) (x : Csum) : packGroups gen (symbols x) = x := by
  apply BitVec.eq_of_toNat_eq
  have hx := x.isLt
  rw [toNat_packGroups gen _ (length_symbols x).le]
  simp only [symbols, List.map_cons, List.map_nil, valueOf, List.foldl_cons, List.foldl_nil, BitVec.extractLsb'_toNat,
    Nat.shiftRight_eq_div_pow]
  omega

theorem packGroups_injOn (gen : Vector Csum 5) {gs hs : List Group} (hgs : gs.length = 8) (hhs : hs.length = 8)
    (h : packGroups gen gs = packGroups gen hs) : gs = hs := by
  have hvalue := congrArg BitVec.toNat h
  rw [toNat_packGroups gen gs hgs.le, toNat_packGroups gen hs hhs.le] at hvalue
  refine List.map_injective_iff.2 (fun _ _ => BitVec.eq_of_toNat_eq) ?_
  exact valueOf_inj (by decide) (by simp [hgs, hhs]) (toNat_lt_of_mem_groups gs) (toNat_lt_of_mem_groups hs) hvalue

/-- Eight groups are the symbols of just one word. -/
theorem packGroups_eq_iff (gen : Vector Csum 5) {gs : List Group} (h : gs.length = 8) (x : Csum) :
    packGroups gen gs = x ↔ gs = symbols x := by
  rw [← packGroups_symbols gen x]
  refine ⟨fun heq => ?_, fun heq => ?_⟩
  · rw [packGroups_symbols gen x]
    exact packGroups_injOn gen h (length_symbols x) heq
  · rw [heq, packGroups_symbols]

/-! ### The groups that verify -/

/-- The register splits into what it held, with zeros taken in, and what the groups give from zero (R137). -/
theorem foldl_pckStep_xor (gen : Vector Csum 5) (gs : List Group) (a b : Csum) :
    gs.foldl (pckStep gen) (a ^^^ b) =
      (List.replicate gs.length 0).foldl (pckStep gen) a ^^^ gs.foldl (pckStep gen) b := by
  induction gs generalizing a b with
  | nil => rfl
  | cons g gs ih =>
    have hstep : pckStep gen (a ^^^ b) g = pckStep gen a 0 ^^^ pckStep gen b g := by
      rw [← pckStep_xor]
      exact congrArg _ BitVec.zero_xor.symm
    simp only [List.foldl_cons, List.length_cons, List.replicate_succ, hstep, ih]

theorem polymodRaw_append_eq_xor (c : Config) (gs hs : List Group) :
    polymodRaw c (gs ++ hs) = polymodRaw c (gs ++ List.replicate hs.length 0) ^^^ packGroups c.gen hs := by
  have hzero : polymodRaw c gs ^^^ 0 = polymodRaw c gs := BitVec.xor_zero
  rw [polymodRaw_append, polymodRaw_append, packGroups, ← foldl_pckStep_xor, hzero]

/-- A frame verifies just when its last eight groups are the computed symbols (R137, R138). -/
theorem verify_append_iff (c : Config) (pfx : List Byte) (pl : List Group) {ss : List Group} (h : ss.length = 8) :
    verify c pfx (pl ++ ss) = true ↔ ss = symbols (compute c pfx pl) := by
  have hframe : checksumBase pfx (pl ++ ss) = checksumBase pfx pl ++ ss := (List.append_assoc _ _ _).symm
  rw [← packGroups_eq_iff c.gen h, verify, beq_iff_eq, polymod, hframe, polymodRaw_append_eq_xor, h, compute, polymod,
    BitVec.xor_comm (polymodRaw c _) (packGroups c.gen ss), BitVec.xor_assoc]
  exact BitVec.xor_eq_zero_iff

/-- Settles O56: the computed symbols are those that verify. -/
theorem computedSymbolsVerify : Obligations.ComputedSymbolsVerify :=
  fun c pfx pl => (verify_append_iff c pfx pl (length_symbols _)).2 rfl

/-- Settles O57: only one choice of the last eight groups verifies, and the change makes another. -/
theorem oneChangedChecksumSymbolFails : Obligations.OneChangedChecksumSymbolFails := by
  intro c pfx pl cs k g hlen hk hg hverify
  have hlen' : (cs.set k g).length = 8 := List.length_set.trans hlen
  refine Bool.eq_false_iff.2 fun hverify' => hg ?_
  have hsame : cs.set k g = cs :=
    ((verify_append_iff c pfx pl hlen').1 hverify').trans ((verify_append_iff c pfx pl hlen).1 hverify).symm
  calc cs[k]? = (cs.set k g)[k]? := by rw [hsame]
    _ = some g := List.getElem?_set_self (hlen ▸ hk)

end Sys2Proof.Machine
end

section
/-! Lists of commands (20_memory.md R63, 70_reset_and_hazards.md R180): what a run of commands of one kind does. -/

namespace Sys2Proof.Machine

/-- The response of success without data. -/
theorem respWord_success_nil : respWord 0#4 [] = 0#32 := by decide

/-- From `s` the commands `is` run through, and the state they end in meets `P`. -/
def RunsTo (is : List Instr) (s : State) (P : State → Prop) : Prop := ∃ t, execAll is s = .next t ∧ P t

theorem RunsTo.imp {is : List Instr} {s : State} {P Q : State → Prop} (h : RunsTo is s P) (hPQ : ∀ t, P t → Q t) :
    RunsTo is s Q := by
  obtain ⟨t, ht, hP⟩ := h
  exact ⟨t, ht, hPQ t hP⟩

/-- Commands one after the other. -/
theorem RunsTo.append {is js : List Instr} {s : State} {P Q : State → Prop} (h : RunsTo is s P)
    (h' : ∀ t, P t → RunsTo js t Q) : RunsTo (is ++ js) s Q := by
  obtain ⟨t, ht, hP⟩ := h
  obtain ⟨u, hu, hQ⟩ := h' t hP
  exact ⟨u, (execAll_append_next is js s u).2 ⟨t, ht, hu⟩, hQ⟩

theorem runsTo_singleton {i : Instr} {s t : State} {P : State → Prop} (h : exec i s = .next t) (hP : P t) :
    RunsTo [i] s P := ⟨t, (execAll_singleton i s).trans h, hP⟩

theorem RunsTo.cons {i : Instr} {is : List Instr} {s t : State} {P : State → Prop} (h : exec i s = .next t)
    (h' : RunsTo is t P) : RunsTo (i :: is) s P :=
  (runsTo_singleton (P := (· = t)) h rfl).append fun _ ht => ht ▸ h'

end Sys2Proof.Machine
end

section
/-! The PCK transactions (43_checksum.md R135, R136): a frame's commands leave `PolymodRaw` of its groups in the
register, and `RDSYM` and `VERIFY` read it. -/

namespace Sys2Proof.Machine

/-! ### The frame -/

/-- From `s`, a frame has been opened and has taken in the groups `gs`, each command answered 0. -/
structure FrameTaken (s : State) (gs : List Group) (t : State) : Prop where
  cfg : t.cfg = s.cfg
  phase : t.pck.phase = .active
  csum : t.pck.csum = polymodRaw s.cfg gs
  resps : t.resps = s.resps ++ List.replicate (gs.length + 1) 0#32

theorem runsTo_pckInit (s : State) : RunsTo [.pckInit] s (FrameTaken s []) :=
  runsTo_singleton rfl ⟨rfl, rfl, rfl, by simp [respWord_success_nil]⟩

/-- The command `i` absorbs the group `g` in every open frame. -/
def Absorbs (i : Instr) (g : Group) : Prop := ∀ t : State, t.pck.phase = .active → exec i t = pckAbsorb g t

theorem absorbs_pckPfx (c : Byte) : Absorbs (.pckPfx c) (pfxGroup c) := execPckPfx_of_active c

theorem absorbs_pckGrp (g : Group) : Absorbs (.pckGrp g) g := execPckGrp_of_active g

theorem FrameTaken.absorb {s t : State} {gs : List Group} (h : FrameTaken s gs t) {i : Instr} {g : Group}
    (hi : Absorbs i g) : RunsTo [i] t (FrameTaken s (gs ++ [g])) := by
  refine runsTo_singleton (hi t h.phase) ⟨h.cfg, h.phase, ?_, ?_⟩
  · rw [polymodRaw_snoc, ← h.csum, ← h.cfg]
    rfl
  · simp [h.resps, respWord_success_nil, List.replicate_succ']

/-- One command for each group of a list. -/
theorem FrameTaken.absorbs {α : Type} {s t : State} {gs : List Group} (h : FrameTaken s gs t) {i : α → Instr}
    {g : α → Group} (hi : ∀ x, Absorbs (i x) (g x)) (xs : List α) :
    RunsTo (xs.map i) t (FrameTaken s (gs ++ xs.map g)) := by
  induction xs generalizing t gs with
  | nil => exact ⟨t, rfl, by simpa using h⟩
  | cons x xs ih => exact (h.absorb (hi x)).append fun t₁ h₁ => by simpa using ih h₁

theorem FrameTaken.grps {s t : State} {gs : List Group} (h : FrameTaken s gs t) (gs' : List Group) :
    RunsTo (gs'.map .pckGrp) t (FrameTaken s (gs ++ gs')) := by
  simpa using h.absorbs absorbs_pckGrp gs'

/-- The commands of a frame take in `ChecksumBase` (43_checksum.md R126). -/
theorem runsTo_pckFrame (s : State) (pfx : List Byte) (pl : List Group) :
    RunsTo (pckFrame pfx pl) s (FrameTaken s (checksumBase pfx pl)) := by
  have hprefix : RunsTo (.pckInit :: pfx.map .pckPfx) s (FrameTaken s (pfx.map pfxGroup)) :=
    (runsTo_pckInit s).append fun _ h => h.absorbs absorbs_pckPfx pfx
  have hseparator := hprefix.append fun _ h => h.grps [0]
  exact hseparator.append fun _ h => h.grps pl

theorem length_checksumBase (pfx : List Byte) (pl : List Group) :
    (checksumBase pfx pl).length = pfx.length + pl.length + 1 := by
  simp [checksumBase]
  omega

/-! ### The symbols -/

/-- Reading symbols changes nothing but the list of responses. -/
theorem execAll_pckRdsym {s : State} (ha : s.pck.phase = .active) (ks : List (BitVec 3)) :
    execAll (ks.map .pckRdsym) s = .next { s with
      resps := s.resps ++ ks.map fun k => respWord 0 [symbolAt (pckResult s.cfg s.pck) k.toNat] } := by
  induction ks generalizing s with
  | nil => simp [execAll]
  | cons k ks ih =>
    refine (execAll_cons_next _ _ _ _).2 ⟨_, execPckRdsym_of_active k s ha, ?_⟩
    refine (ih (s := s.say (respWord 0 [symbolAt (pckResult s.cfg s.pck) k.toNat])) ha).trans ?_
    simp [State.say]

/-- The eight indices of `RDSYM` give the symbols in their order (43_checksum.md R126, R132). -/
theorem map_symbolAt (x : Csum) :
    ([0, 1, 2, 3, 4, 5, 6, 7] : List (BitVec 3)).map (fun k => respWord 0 [symbolAt x k.toNat]) =
      (symbols x).map fun g => respWord 0 [g.setWidth 8] := by
  simp only [symbolAt_eq_extractLsb']
  rfl

/-- Settles O54: the frame and its placeholders are absorbed, and the register's result is `Compute`. -/
theorem computeTransactionGivesTheSymbols : Obligations.ComputeTransactionGivesTheSymbols := by
  intro s pfx pl
  obtain ⟨t, hframe, h⟩ := (runsTo_pckFrame s pfx pl).append fun _ h => h.grps (List.replicate 8 0)
  have hread := execAll_pckRdsym h.phase [0, 1, 2, 3, 4, 5, 6, 7]
  have hresult : pckResult t.cfg t.pck = compute s.cfg pfx pl := by
    rw [pckResult, h.csum, h.cfg, compute, polymod]
  have hresps := h.resps
  rw [List.length_append, length_checksumBase, List.length_replicate] at hresps
  rw [hresult, map_symbolAt, hresps] at hread
  exact ⟨_, (execAll_append_next _ _ _ _).2 ⟨t, hframe, hread⟩, h.csum, rfl⟩

/-! ### The verdict -/

/-- The frame verifies just when the register holds `PCK_FINAL_XOR` (43_checksum.md R127, R134). -/
theorem FrameTaken.verify_iff {s t : State} {pfx : List Byte} {plc : List Group}
    (h : FrameTaken s (checksumBase pfx plc) t) : verify s.cfg pfx plc = true ↔ t.pck.csum = t.cfg.finalXor := by
  rw [verify, beq_iff_eq, polymod, h.csum, h.cfg]
  exact BitVec.xor_eq_zero_iff

/-- Settles O55: the frame is absorbed, and `VERIFY` tests the register as `Verify` does. -/
theorem verifyTransactionDecidesVerify : Obligations.VerifyTransactionDecidesVerify := by
  intro s pfx plc
  refine (runsTo_pckFrame s pfx plc).append fun t h => ?_
  obtain ⟨-, hpass, hfail⟩ := pckVerifyTestsTheResult.2 t
  have hresps := h.resps
  rw [length_checksumBase, Nat.add_assoc] at hresps
  rw [← hresps]
  by_cases hverify : verify s.cfg pfx plc = true
  · rw [if_pos hverify]
    exact runsTo_singleton (hpass h.phase (h.verify_iff.1 hverify)) rfl
  · rw [if_neg hverify]
    exact runsTo_singleton (hfail h.phase (mt h.verify_iff.2 hverify)) rfl

end Sys2Proof.Machine
end

section
/-! Radix conversion that keeps the leading run of zeros: what both Base58 functions do (41_base58.md R91, R92), up to
how a digit is written. -/

namespace Sys2Proof.Machine

/-! ### The leading run (00_scope.md R15) -/

@[simp] theorem leadingRun_nil : leadingRun [] = 0 := rfl

@[simp] theorem leadingRun_zero_cons (ds : List Nat) : leadingRun (0 :: ds) = leadingRun ds + 1 := by simp [leadingRun]

@[simp] theorem leadingRun_cons_of_ne {d : Nat} (hd : d ≠ 0) (ds : List Nat) : leadingRun (d :: ds) = 0 := by
  simp [leadingRun, hd]

/-- A run of `z` zeros that no further zero follows has length `z`. -/
theorem leadingRun_replicate_append (z : Nat) {ds : List Nat} (h : ds.head? ≠ some 0) :
    leadingRun (List.replicate z 0 ++ ds) = z := by
  induction z with
  | zero =>
    cases ds with
    | nil => rfl
    | cons d ds => exact leadingRun_cons_of_ne (fun hd => h (congrArg some hd)) ds
  | succ z ih => rw [List.replicate_succ, List.cons_append, leadingRun_zero_cons, ih]

/-- A digit sequence is its leading run and the digits after it. -/
theorem exists_eq_leadingRun_append (ds : List Nat) :
    ∃ es, ds = List.replicate (leadingRun ds) 0 ++ es ∧ es.head? ≠ some 0 := by
  induction ds with
  | nil => exact ⟨[], rfl, by simp⟩
  | cons d ds ih =>
    by_cases hd : d = 0
    · obtain ⟨es, hes, hhead⟩ := ih
      rw [hd, leadingRun_zero_cons]
      exact ⟨es, congrArg (0 :: ·) hes, hhead⟩
    · exact ⟨d :: ds, by simp [hd], by simpa using hd⟩

/-- The leading run grows while it is open. -/
theorem leadingRun_snoc (ds : List Nat) (d : Nat) :
    leadingRun (ds ++ [d]) = leadingRun ds + if (ds.all (· == 0) && d == 0) = true then 1 else 0 := by
  induction ds with
  | nil => by_cases hd : d = 0 <;> simp [hd]
  | cons e ds ih =>
    by_cases he : e = 0
    · simp [he, ih, Nat.add_right_comm]
    · simp [he]

theorem valueOf_replicate_append (base z : Nat) (ds : List Nat) :
    valueOf base (List.replicate z 0 ++ ds) = valueOf base ds := by
  rw [valueOf_eq_ofDigits, List.reverse_append, List.reverse_replicate, Nat.ofDigits_append_replicate_zero,
    ← valueOf_eq_ofDigits]

theorem valueOf_eq_zero_of_all {base : Nat} {ds : List Nat} (h : ds.all (· == 0) = true) : valueOf base ds = 0 := by
  have hzeros : ds = List.replicate ds.length 0 ++ [] := by
    rw [List.append_nil]
    exact List.eq_replicate_of_mem fun d hd => eq_of_beq (List.all_eq_true.1 h d hd)
  rw [hzeros, valueOf_replicate_append, valueOf_nil]

/-! ### The digits of a number -/

theorem valueOf_digitsOf {base : Nat} (hb : 2 ≤ base) (v : Nat) : valueOf base (digitsOf base v) = v := by
  rw [digitsOf_eq_reverse base hb, valueOf_eq_ofDigits, List.reverse_reverse, Nat.ofDigits_digits]

theorem digitsOf_head?_ne_zero {base : Nat} (hb : 2 ≤ base) (v : Nat) : (digitsOf base v).head? ≠ some 0 := by
  rw [digitsOf_eq_reverse base hb, List.head?_reverse]
  intro h
  obtain ⟨hne, hlast⟩ := List.mem_getLast?_eq_getLast h
  exact Nat.getLast_digit_ne_zero base (Nat.digits_ne_nil_iff_ne_zero.1 hne) hlast.symm

theorem digitsOf_lt {base : Nat} (hb : 2 ≤ base) (v : Nat) : ∀ d ∈ digitsOf base v, d < base := by
  rw [digitsOf_eq_reverse base hb]
  exact fun d hd => Nat.digits_lt_base hb (List.mem_reverse.1 hd)

/-- The digits of a sequence without leading zero are the sequence. -/
theorem digitsOf_valueOf {base : Nat} (hb : 2 ≤ base) {ds : List Nat} (hds : ∀ d ∈ ds, d < base)
    (hhead : ds.head? ≠ some 0) : digitsOf base (valueOf base ds) = ds := by
  rw [digitsOf_eq_reverse base hb, valueOf_eq_ofDigits, Nat.digits_ofDigits base hb, List.reverse_reverse]
  · exact fun d hd => hds d (List.mem_reverse.1 hd)
  · intro hne hlast
    rw [← List.getLast?_reverse, List.getLast?_eq_some_getLast hne, hlast] at hhead
    exact hhead rfl

/-! ### The conversion -/

/-- The leading run of `ds`, and then the radix-`rout` digits of the value of `ds` in radix `rin`. -/
def convertRadix (rin rout : Nat) (ds : List Nat) : List Nat :=
  List.replicate (leadingRun ds) 0 ++ digitsOf rout (valueOf rin ds)

theorem length_convertRadix {rin rout : Nat} (hout : 2 ≤ rout) (ds : List Nat) :
    (convertRadix rin rout ds).length = leadingRun ds + (Nat.digits rout (valueOf rin ds)).length := by
  rw [convertRadix, List.length_append, List.length_replicate, digitsOf_eq_reverse rout hout, List.length_reverse]

theorem convertRadix_lt {rin rout : Nat} (hout : 2 ≤ rout) (ds : List Nat) :
    ∀ d ∈ convertRadix rin rout ds, d < rout := by
  intro d hd
  rcases List.mem_append.1 hd with hzero | hdigit
  · rw [List.eq_of_mem_replicate hzero]
    omega
  · exact digitsOf_lt hout _ d hdigit

/-- Converting back gives the sequence again: neither the run nor the digits after it change (R103). -/
theorem convertRadix_convertRadix {rin rout : Nat} (hin : 2 ≤ rin) (hout : 2 ≤ rout) {ds : List Nat}
    (hds : ∀ d ∈ ds, d < rin) : convertRadix rout rin (convertRadix rin rout ds) = ds := by
  obtain ⟨es, hsplit, hhead⟩ := exists_eq_leadingRun_append ds
  have hes : ∀ d ∈ es, d < rin := fun d hd => hds d (hsplit ▸ List.mem_append_right _ hd)
  have hvalue : valueOf rin ds = valueOf rin es := by
    conv_lhs => rw [hsplit]
    exact valueOf_replicate_append rin _ es
  have hrun : leadingRun (convertRadix rin rout ds) = leadingRun ds :=
    leadingRun_replicate_append _ (digitsOf_head?_ne_zero hout _)
  have hback : valueOf rout (convertRadix rin rout ds) = valueOf rin ds :=
    (valueOf_replicate_append rout _ _).trans (valueOf_digitsOf hout _)
  rw [convertRadix, hrun, hback, hvalue, digitsOf_valueOf hin hes hhead, ← hsplit]

/-- A longer input has no shorter conversion (R99, R101). -/
theorem length_convertRadix_le_append {rin rout : Nat} (hin : 0 < rin) (hout : 2 ≤ rout) (ds es : List Nat) :
    (convertRadix rin rout ds).length ≤ (convertRadix rin rout (ds ++ es)).length := by
  induction es using List.reverseRecOn with
  | nil => simp
  | append_singleton es e ih =>
    refine ih.trans ?_
    have hvalue : valueOf rin (ds ++ es) ≤ valueOf rin (ds ++ es ++ [e]) := by
      rw [valueOf_snoc]
      exact Nat.le_add_right_of_le (Nat.le_mul_of_pos_right _ hin)
    rw [← List.append_assoc, length_convertRadix hout, length_convertRadix hout, leadingRun_snoc]
    exact Nat.add_le_add (Nat.le_add_right _ _) (Nat.le_length_digits_le _ _ _ hvalue)

/-- A conversion to a smaller radix has room for every input of `n` digits where it has room for the greatest of
them. -/
theorem length_convertRadix_le {rin rout n k : Nat} (hout : 2 ≤ rout) (hle : rout ≤ rin) (hpow : rin ^ n ≤ rout ^ k)
    {ds : List Nat} (hds : ∀ d ∈ ds, d < rin) (hlen : ds.length ≤ n) : (convertRadix rin rout ds).length ≤ k := by
  obtain ⟨es, hsplit, -⟩ := exists_eq_leadingRun_append ds
  have hes : ∀ d ∈ es, d < rin := fun d hd => hds d (hsplit ▸ List.mem_append_right _ hd)
  have hsum : ds.length = leadingRun ds + es.length := by
    conv_lhs => rw [hsplit, List.length_append, List.length_replicate]
  have hnk : n ≤ k := (Nat.pow_le_pow_iff_right hout).1 ((Nat.pow_le_pow_left hle n).trans hpow)
  have hvalue : valueOf rin ds < rout ^ (k - leadingRun ds) := by
    refine Nat.lt_of_mul_lt_mul_left (a := rout ^ leadingRun ds) ?_
    calc rout ^ leadingRun ds * valueOf rin ds
        = rout ^ leadingRun ds * valueOf rin es := by
          conv_lhs => rw [hsplit, valueOf_replicate_append, ← hsplit]
      _ < rout ^ leadingRun ds * rin ^ es.length :=
          Nat.mul_lt_mul_of_pos_left (valueOf_lt (hout.trans hle) hes) (Nat.pow_pos (by omega))
      _ ≤ rin ^ leadingRun ds * rin ^ es.length := Nat.mul_le_mul_right _ (Nat.pow_le_pow_left hle _)
      _ = rin ^ ds.length := by rw [← pow_add, ← hsum]
      _ ≤ rin ^ n := Nat.pow_le_pow_right (by omega) hlen
      _ ≤ rout ^ k := hpow
      _ = rout ^ leadingRun ds * rout ^ (k - leadingRun ds) := by rw [← pow_add, Nat.add_sub_cancel' (by omega)]
  rw [length_convertRadix hout]
  have := (Nat.digits_length_le_iff hout _).2 hvalue
  omega

end Sys2Proof.Machine
end

section
/-! The two Base58 functions (41_base58.md R91, R92) are the radix conversions of the two modes, written in output
units; so they are inverse (R103), and their lengths are those of the conversions (R102). -/

namespace Sys2Proof.Machine

/-! ### The units of the two modes -/

/-- The mode that takes in the output units of `m`. -/
def otherMode : Mode → Mode
  | .enc => .dec
  | .dec => .enc

theorem fromRadix_otherMode (m : Mode) : fromRadix (otherMode m) = toRadix m := by cases m <;> rfl

theorem toRadix_otherMode (m : Mode) : toRadix (otherMode m) = fromRadix m := by cases m <;> rfl

theorem two_le_fromRadix (m : Mode) : 2 ≤ fromRadix m := by cases m <;> decide

/-- The output unit a digit is written as (41_base58.md R98). -/
def outUnit (m : Mode) (d : Nat) : Byte := (b58OutUnit m (BitVec.ofNat 8 d)).getD 0

theorem toNat_ofNat_of_lt_toRadix {m : Mode} {d : Nat} (hd : d < toRadix m) : (BitVec.ofNat 8 d).toNat = d :=
  Nat.mod_eq_of_lt (hd.trans_le (toRadix_le m))

theorem b58OutUnit_eq_outUnit {m : Mode} {d : Nat} (hd : d < toRadix m) :
    b58OutUnit m (BitVec.ofNat 8 d) = some (outUnit m d) := by
  have hback := toNat_ofNat_of_lt_toRadix hd
  cases m with
  | dec => rfl
  | enc =>
    have hchar : b58OutUnit .enc (BitVec.ofNat 8 d) = some b58Alpha[d] := by
      rw [b58OutUnit, hback]
      exact List.getElem?_eq_getElem hd
    rw [outUnit, hchar, Option.getD_some]

theorem b58Char_eq_outUnit {d : Nat} (hd : d < 58) : b58Char d = some (outUnit .enc d) := by
  have h := b58OutUnit_eq_outUnit (m := .enc) hd
  rwa [b58OutUnit, toNat_ofNat_of_lt_toRadix (m := .enc) hd] at h

/-- The output unit of a digit stands for it in the other mode. -/
theorem b58Unit_otherMode_outUnit {m : Mode} {d : Nat} (hd : d < toRadix m) :
    b58Unit (otherMode m) (outUnit m d) = some d := by
  cases m with
  | enc => exact (b58Inv_eq_some_iff _ _).2 (b58Char_eq_outUnit hd)
  | dec => exact congrArg some (toNat_ofNat_of_lt_toRadix hd)

/-- A pushed value is the output unit, in the other mode, of the digit it stands for. -/
theorem lt_and_outUnit_of_b58Unit {m : Mode} {v : Byte} {u : Nat} (h : b58Unit m v = some u) :
    u < fromRadix m ∧ outUnit (otherMode m) u = v := by
  cases m with
  | enc =>
    rw [← Option.some.inj h]
    exact ⟨v.isLt, BitVec.eq_of_toNat_eq (toNat_ofNat_of_lt_toRadix (m := .dec) v.isLt)⟩
  | dec =>
    have hchar := (b58Inv_eq_some_iff v u).1 h
    obtain ⟨hu, -⟩ := (b58Char_eq_some_iff u v).1 hchar
    exact ⟨hu, Option.some.inj ((b58Char_eq_outUnit hu).symm.trans hchar)⟩

/-- The pushed values `vs` stand for the units `us` (41_base58.md R96). -/
def UnitsOf (m : Mode) (vs : List Byte) (us : List Nat) : Prop := List.Forall₂ (fun v u => b58Unit m v = some u) vs us

theorem unitsOf_enc (bs : List Byte) : UnitsOf .enc bs (bs.map BitVec.toNat) :=
  List.forall₂_map_right_iff.2 (List.forall₂_same.2 fun _ _ => rfl)

theorem unitsOf_dec {cs : List Byte} (h : allBase58 cs = true) : UnitsOf .dec cs (base58Digits cs) :=
  List.forall₂_map_right_iff.2 <| List.forall₂_same.2 fun c hc =>
    (Option.some_get (List.all_eq_true.1 h c hc)).symm.trans (congrArg some (Option.get_eq_getD _))

theorem allBase58_of_unitsOf {cs : List Byte} {ds : List Nat} (h : UnitsOf .dec cs ds) :
    allBase58 cs = true ∧ base58Digits cs = ds := by
  induction h with
  | nil => exact ⟨rfl, rfl⟩
  | cons hc _ ih =>
    have hinv : b58Inv _ = some _ := hc
    simpa [allBase58, base58Digits, hinv] using ih

theorem UnitsOf.lt {m : Mode} {vs : List Byte} {us : List Nat} (h : UnitsOf m vs us) : ∀ u ∈ us, u < fromRadix m := by
  induction h with
  | nil => simp
  | cons hv _ ih => exact List.forall_mem_cons.2 ⟨(lt_and_outUnit_of_b58Unit hv).1, ih⟩

theorem UnitsOf.map_outUnit {m : Mode} {vs : List Byte} {us : List Nat} (h : UnitsOf m vs us) :
    us.map (outUnit (otherMode m)) = vs := by
  induction h with
  | nil => rfl
  | cons hv _ ih => rw [List.map_cons, ih, (lt_and_outUnit_of_b58Unit hv).2]

/-! ### What a transaction of a mode puts out -/

/-- The digits of the output for the units `us`. -/
def outDigits (m : Mode) (us : List Nat) : List Nat := convertRadix (fromRadix m) (toRadix m) us

/-- The output for the units `us`. -/
def outputOf (m : Mode) (us : List Nat) : List Byte := (outDigits m us).map (outUnit m)

theorem length_outputOf (m : Mode) (us : List Nat) : (outputOf m us).length = (outDigits m us).length :=
  List.length_map _

theorem outDigits_lt (m : Mode) (us : List Nat) : ∀ d ∈ outDigits m us, d < toRadix m :=
  convertRadix_lt (two_le_toRadix m) us

theorem base58Encode_eq_outputOf (bs : List Byte) : base58Encode bs = outputOf .enc (bs.map BitVec.toNat) := by
  have hdigits : ∀ d ∈ digitsOf b58Radix (valueOf byteRadix (bs.map BitVec.toNat)),
      (b58Char d).getD 0 = outUnit .enc d := fun d hd => by
    rw [b58Char_eq_outUnit (digitsOf_lt (by decide) _ d hd), Option.getD_some]
  rw [base58Encode, List.map_congr_left hdigits, outputOf, outDigits, convertRadix, List.map_append, List.map_replicate]
  rfl

theorem base58Bytes_eq_outputOf (ds : List Nat) : base58Bytes ds = outputOf .dec ds := by
  rw [base58Bytes, outputOf, outDigits, convertRadix, List.map_append, List.map_replicate]
  rfl

theorem base58Decode_of_unitsOf {cs : List Byte} {ds : List Nat} (h : UnitsOf .dec cs ds) :
    base58Decode cs = if (outputOf .dec ds).length ≠ 25 then .error .invalidLength else .ok (outputOf .dec ds) := by
  obtain ⟨hall, hdigits⟩ := allBase58_of_unitsOf h
  rw [base58Decode, hall, hdigits, base58Bytes_eq_outputOf]
  rfl

/-- `Base58Decode` gives bytes, or finds a wrong length, only for characters of the alphabet. -/
theorem allBase58_of_base58Decode_ne {cs : List Byte} (h : base58Decode cs ≠ .error .invalidCharacter) :
    allBase58 cs = true := by
  by_contra hall
  exact h (if_pos (Bool.eq_false_iff.2 hall))

theorem base58Decode_eq_ok_iff {cs : List Byte} {ds : List Nat} (h : UnitsOf .dec cs ds) (bs : List Byte) :
    base58Decode cs = .ok bs ↔ (outputOf .dec ds).length = 25 ∧ outputOf .dec ds = bs := by
  rw [base58Decode_of_unitsOf h]
  by_cases hlen : (outputOf .dec ds).length = 25 <;> simp [hlen]

/-! ### There and back -/

/-- The output of a mode stands for its digits in the other mode. -/
theorem unitsOf_outputOf (m : Mode) (us : List Nat) : UnitsOf (otherMode m) (outputOf m us) (outDigits m us) :=
  List.forall₂_map_left_iff.2 <| List.forall₂_same.2 fun d hd => b58Unit_otherMode_outUnit (outDigits_lt m us d hd)

/-- The other mode puts out again what was pushed. -/
theorem outputOf_otherMode_outDigits {m : Mode} {vs : List Byte} {us : List Nat} (h : UnitsOf m vs us) :
    outputOf (otherMode m) (outDigits m us) = vs := by
  rw [outputOf, outDigits, outDigits, fromRadix_otherMode, toRadix_otherMode,
    convertRadix_convertRadix (two_le_fromRadix m) (two_le_toRadix m) h.lt, h.map_outUnit]

/-- Bytes stand for one sequence of units only. -/
theorem map_toNat_of_unitsOf_enc {bs : List Byte} {us : List Nat} (h : UnitsOf .enc bs us) :
    bs.map BitVec.toNat = us := by
  induction h with
  | nil => rfl
  | cons hv _ ih => rw [List.map_cons, ih, Option.some.inj hv]

/-- Settles O40: either function gives the other mode's output for the other's digits. -/
theorem base58DecodeAndEncodeAreInverse : Obligations.Base58DecodeAndEncodeAreInverse := by
  refine ⟨fun bs hlen => ?_, fun cs bs hdecode => ?_⟩
  · have hback := outputOf_otherMode_outDigits (unitsOf_enc bs)
    rw [base58Encode_eq_outputOf]
    exact (base58Decode_eq_ok_iff (unitsOf_outputOf .enc _) bs).2 ⟨(congrArg List.length hback).trans hlen, hback⟩
  · have hcs := unitsOf_dec (allBase58_of_base58Decode_ne (cs := cs) (by simp [hdecode]))
    obtain ⟨-, hbs⟩ := (base58Decode_eq_ok_iff hcs bs).1 hdecode
    have hunits := map_toNat_of_unitsOf_enc (unitsOf_outputOf .dec (base58Digits cs))
    rw [base58Encode_eq_outputOf, ← hbs, hunits]
    exact outputOf_otherMode_outDigits hcs

/-! ### The greatest length -/

/-- Settles O41: 58^34 is below 256^25 - 1, and 256^25 is at most 58^35. -/
theorem twentyFiveBytesEncodeToAtMost35Characters : Obligations.TwentyFiveBytesEncodeToAtMost35Characters := by
  have hbound : ∀ bs : List Byte, bs.length ≤ 25 → (base58Encode bs).length ≤ 35 := fun bs hlen => by
    rw [base58Encode_eq_outputOf, length_outputOf]
    exact length_convertRadix_le (n := 25) (by decide) (by decide) (by decide) (unitsOf_enc bs).lt (by simpa using hlen)
  refine ⟨hbound, Nat.le_antisymm (hbound _ (by simp)) ?_⟩
  rw [base58Encode_eq_outputOf, length_outputOf, outDigits, length_convertRadix (by decide)]
  have hvalue : 58 ^ 34 ≤ valueOf 256 ((List.replicate 25 (0xFF : Byte)).map BitVec.toNat) := by decide
  exact Nat.le_add_left_of_le ((Nat.lt_digits_length_iff (by decide) _).2 hvalue)

end Sys2Proof.Machine
end

section
/-! The B58 transactions (41_base58.md R99 to R101). The invariant of the pushes speaks of the units taken in so far; it
asks only `B58_CAP <= 255` of the build, since R100 holds in builds that `Inv` excludes. Both modes are one argument. -/

namespace Sys2Proof.Machine

/-! ### Cells written and read again -/

/-- The cells of a write that has room read back as they were written. -/
theorem readCells_of_writeCells (cap : Nat) (m : Memory) (vs : List Byte) (h : vs.length ≤ cap) :
    ∃ m', writeCells cap m 0 vs = .ok m' ∧ readCells cap m' 0 vs.length = .ok vs := by
  obtain ⟨m', hm'⟩ := writeCells_total cap m 0 vs (by omega)
  obtain ⟨hcells, -⟩ := writeCells_ok cap m m' 0 vs hm'
  exact ⟨m', hm', (readCells_ok ..).2 ⟨rfl, fun i hi => ⟨by omega, hcells i hi⟩⟩⟩

theorem map_toNat_map_ofNat {ds : List Nat} (h : ∀ d ∈ ds, d < 256) :
    (ds.map (BitVec.ofNat 8)).map BitVec.toNat = ds := by
  have hback : ∀ d ∈ ds, (BitVec.toNat ∘ BitVec.ofNat 8) d = id d := fun d hd => Nat.mod_eq_of_lt (h d hd)
  rw [List.map_map, List.map_congr_left hback, List.map_id]

/-! ### The units in the record and the buffer -/

/-- The digits of the number that the units `us` make, least significant first: what `BUF` has to hold (10_state.md
R24). -/
def numberCells (m : Mode) (us : List Nat) : List Nat := Nat.digits (toRadix m) (valueOf (fromRadix m) us)

theorem length_outDigits (m : Mode) (us : List Nat) :
    (outDigits m us).length = leadingRun us + (numberCells m us).length := length_convertRadix (two_le_toRadix m) us

theorem numberCells_lt (m : Mode) (us : List Nat) : ∀ d ∈ numberCells m us, d < 256 :=
  fun _ hd => (Nat.digits_lt_base (two_le_toRadix m) hd).trans_le (toRadix_le m)

theorem length_outDigits_le_append (m : Mode) (us us' : List Nat) :
    (outDigits m us).length ≤ (outDigits m (us ++ us')).length :=
  length_convertRadix_le_append (fromRadix_pos m) (two_le_toRadix m) us us'

/-- The record and the buffer hold the units `us` of a transaction of mode `m` (the invariant of R99). -/
structure HoldsUnits (m : Mode) (us : List Nat) (t : State) : Prop where
  mode : t.b58.mode = m
  ovf : t.b58.ovf = false
  leading : t.b58.leading = us.all (· == 0)
  lz : t.b58.lz.toNat = leadingRun us
  cells : readCells t.cfg.cap t.buf 0 t.b58.blen.toNat = .ok ((numberCells m us).map (BitVec.ofNat 8))

/-- The record that holds the units `us`, the other fields being those of `b`. -/
def holdingRec (m : Mode) (us : List Nat) (b : B58Rec) : B58Rec :=
  { b with
    leading := us.all (· == 0), lz := BitVec.ofNat 8 (leadingRun us), blen := BitVec.ofNat 8 (numberCells m us).length }

section Holds

variable {m : Mode} {us : List Nat} {t : State}

theorem HoldsUnits.blen (h : HoldsUnits m us t) : t.b58.blen.toNat = (numberCells m us).length := by
  obtain ⟨hlen, -⟩ := (readCells_ok ..).1 h.cells
  rw [← hlen, List.length_map]

theorem HoldsUnits.outLen (h : HoldsUnits m us t) : b58OutLen t.b58 = (outDigits m us).length := by
  rw [b58OutLen, h.lz, h.blen, length_outDigits]

/-- One absorb makes the units `us` the units `us ++ [u]`, if they have room (41_base58.md R93). -/
theorem HoldsUnits.absorb (h : HoldsUnits m us t) (u : Nat) :
    b58Absorb t.cfg.cap t.b58 (numberCells m us) u =
      if (outDigits m (us ++ [u])).length > t.cfg.cap then none
      else some ⟨(us ++ [u]).all (· == 0), leadingRun (us ++ [u]), numberCells m (us ++ [u])⟩ := by
  have hall : (us ++ [u]).all (· == 0) = (us.all (· == 0) && u == 0) := by simp
  have hcells : numberCells m (us ++ [u]) = absorbCells (fromRadix m) (toRadix m) (numberCells m us) u := by
    rw [numberCells, numberCells, valueOf_snoc, absorbCells_digits _ _ (fromRadix_pos m) (two_le_toRadix m)]
  refine (b58Absorb_cases t.cfg.cap t.b58 (numberCells m us) u).trans ?_
  rw [length_outDigits, leadingRun_snoc, hall, h.leading, h.lz, h.mode, ← hcells]
  cases hlead : us.all (· == 0) && u == 0 with
  | false => simp
  | true =>
    obtain ⟨hzeros, hu⟩ := Bool.and_eq_true_iff.1 hlead
    have hnone : numberCells m us = [] ∧ numberCells m (us ++ [u]) = [] := by
      simp [numberCells, valueOf_snoc, valueOf_eq_zero_of_all hzeros, eq_of_beq hu]
    simp [hnone]

/-- A push that has room makes the record and the buffer hold one unit more (41_base58.md R96). -/
theorem HoldsUnits.push (h : HoldsUnits m us t) (hcap : t.cfg.cap ≤ 255) {u : Nat}
    (hroom : (outDigits m (us ++ [u])).length ≤ t.cfg.cap) :
    ∃ buf, b58PushUnit u t = respond [] { t with b58 := holdingRec m (us ++ [u]) t.b58, buf := buf } ∧
      HoldsUnits m (us ++ [u]) { t with b58 := holdingRec m (us ++ [u]) t.b58, buf := buf } := by
  have habsorb := (h.absorb u).trans (if_neg (Nat.not_lt_of_le hroom))
  rw [length_outDigits] at hroom
  have hlz : (BitVec.ofNat 8 (leadingRun (us ++ [u]))).toNat = leadingRun (us ++ [u]) := Nat.mod_eq_of_lt (by omega)
  have hblen : (BitVec.ofNat 8 (numberCells m (us ++ [u])).length).toNat = (numberCells m (us ++ [u])).length :=
    Nat.mod_eq_of_lt (by omega)
  obtain ⟨buf, hwrite, hread⟩ := readCells_of_writeCells t.cfg.cap t.buf
    ((numberCells m (us ++ [u])).map (BitVec.ofNat 8)) (by rw [List.length_map]; omega)
  rw [List.length_map, ← hblen] at hread
  refine ⟨buf, ?_, h.mode, h.ovf, rfl, hlz, hread⟩
  simp [b58PushUnit, h.ovf, h.cells, map_toNat_map_ofNat (numberCells_lt m us), habsorb, b58Commit, hwrite, holdingRec]

/-- A push that has no room is the overflow (41_base58.md R96). -/
theorem HoldsUnits.push_full (h : HoldsUnits m us t) {u : Nat} (hfull : t.cfg.cap < (outDigits m (us ++ [u])).length) :
    b58PushUnit u t = b58Overflow t := by
  have habsorb := (h.absorb u).trans (if_pos hfull)
  simp [b58PushUnit, h.ovf, h.cells, map_toNat_map_ofNat (numberCells_lt m us), habsorb]

/-- The digit `B58.POP` delivers is the one of the output that `RPTR` points at (41_base58.md R98). -/
theorem HoldsUnits.popDigit (h : HoldsUnits m us t) (hr : t.b58.rptr.toNat < (outDigits m us).length) :
    b58PopDigit t = .ok (BitVec.ofNat 8 (outDigits m us)[t.b58.rptr.toNat]) := by
  have hlen := length_outDigits m us
  obtain ⟨-, hcells⟩ := (readCells_ok ..).1 h.cells
  rw [b58PopDigit_ok, h.lz, h.blen]
  rcases Nat.lt_or_ge t.b58.rptr.toNat (leadingRun us) with hrun | hcell
  · refine .inl ⟨hrun, ?_⟩
    simp [outDigits, convertRadix, hrun]
  · obtain ⟨hcap, hget⟩ := hcells ((numberCells m us).length - 1 - (t.b58.rptr.toNat - leadingRun us))
      (by rw [List.length_map]; omega)
    rw [Nat.zero_add] at hcap hget
    refine .inr ⟨hcell, hcap, hget.trans ?_⟩
    have hreverse := digitsOf_eq_reverse _ (two_le_toRadix m)
    simp [outDigits, convertRadix, List.getElem_append_right, hcell, hreverse, numberCells]

end Holds

/-! ### `INIT` and the pushes -/

/-- From `s`, a transaction of mode `m` has been opened and has taken in the units `us`, each command answered 0. The
record and the buffer hold them as long as their output has room; from then on `OVF` is set (R101). -/
structure UnitsTaken (s : State) (m : Mode) (us : List Nat) (t : State) : Prop where
  cfg : t.cfg = s.cfg
  phase : t.b58.phase = .active
  mode : t.b58.mode = m
  resps : t.resps = s.resps ++ List.replicate (us.length + 1) 0#32
  holds : (outDigits m us).length ≤ s.cfg.cap → HoldsUnits m us t
  full : s.cfg.cap < (outDigits m us).length → t.b58.ovf = true

theorem resps_snoc_success {s t : State} {us : List Nat} (h : t.resps = s.resps ++ List.replicate (us.length + 1) 0#32)
    (u : Nat) : (t.say (respWord 0 [])).resps = s.resps ++ List.replicate ((us ++ [u]).length + 1) 0#32 := by
  simp [h, respWord_success_nil, List.replicate_succ']

theorem runsTo_b58Init (s : State) (m : Mode) : RunsTo [.b58Init m] s (UnitsTaken s m []) := by
  refine runsTo_singleton rfl ?_
  constructor
  case cfg => rfl
  case phase => rfl
  case mode => rfl
  case resps => simp [respWord_success_nil]
  case holds => exact fun _ => ⟨rfl, rfl, rfl, rfl, by simp [numberCells, readCells]⟩
  case full => simp [length_outDigits, numberCells]

/-- A push takes in one more unit, unless it is one of ENC without room. -/
theorem UnitsTaken.push {s t : State} {m : Mode} {us : List Nat} (h : UnitsTaken s m us t) (hcap : s.cfg.cap ≤ 255)
    {v : Byte} {u : Nat} (hv : b58Unit m v = some u) (hok : m = .dec ∨ (outDigits m (us ++ [u])).length ≤ s.cfg.cap) :
    RunsTo [.b58Push v] t (UnitsTaken s m (us ++ [u])) := by
  have hexec := exec_b58Push_of_unit h.phase (h.mode ▸ hv)
  have hmono := length_outDigits_le_append m us [u]
  have hresps := resps_snoc_success h.resps u
  rcases Nat.lt_or_ge s.cfg.cap (outDigits m (us ++ [u])).length with hfull | hroom
  · have hdec : m = .dec := hok.resolve_right (Nat.not_le_of_lt hfull)
    have hno : ¬ (outDigits m (us ++ [u])).length ≤ s.cfg.cap := Nat.not_le_of_lt hfull
    rcases Nat.lt_or_ge s.cfg.cap (outDigits m us).length with hover | hheld
    · have hovf := h.full hover
      exact runsTo_singleton (hexec.trans (if_pos hovf))
        ⟨h.cfg, h.phase, h.mode, hresps, fun hle => absurd hle hno, fun _ => hovf⟩
    · have hpush := (h.holds hheld).push_full (u := u) (h.cfg ▸ hfull)
      exact runsTo_singleton (hexec.trans (hpush.trans (b58Overflow_dec t (h.mode.trans hdec))))
        ⟨h.cfg, h.phase, h.mode, hresps, fun hle => absurd hle hno, fun _ => rfl⟩
  · obtain ⟨buf, hpush, hholds⟩ := (h.holds (hmono.trans hroom)).push (h.cfg ▸ hcap) (h.cfg ▸ hroom)
    exact runsTo_singleton (hexec.trans hpush)
      ⟨h.cfg, h.phase, h.mode, hresps, fun _ => { hholds with }, fun hfull => absurd hroom (Nat.not_le_of_lt hfull)⟩

theorem UnitsTaken.pushes {s t : State} {m : Mode} {us us' : List Nat} {vs : List Byte} (h : UnitsTaken s m us t)
    (hcap : s.cfg.cap ≤ 255) (hvs : UnitsOf m vs us') (hok : m = .dec ∨ (outDigits m (us ++ us')).length ≤ s.cfg.cap) :
    RunsTo (vs.map .b58Push) t (UnitsTaken s m (us ++ us')) := by
  induction hvs generalizing t us with
  | nil => exact ⟨t, rfl, by rwa [List.append_nil]⟩
  | @cons v u vs us' hv _ ih =>
    rw [List.append_cons] at hok ⊢
    have hfirst := hok.imp_right (length_outDigits_le_append m (us ++ [u]) us').trans
    exact (h.push hcap hv hfirst).append fun t₁ h₁ => ih h₁ hok

/-- The part of a transaction before `FIN`. -/
theorem runsTo_b58Pushes {s : State} {m : Mode} {vs : List Byte} {us : List Nat} (hcap : s.cfg.cap ≤ 255)
    (hvs : UnitsOf m vs us) (hok : m = .dec ∨ (outDigits m us).length ≤ s.cfg.cap) :
    RunsTo (.b58Init m :: vs.map .b58Push) s (UnitsTaken s m us) :=
  (runsTo_b58Init s m).append fun _ h => h.pushes hcap hvs hok

/-! ### Commands that all get the same answer -/

/-- Commands that are answered `r` and change nothing while the record meets `P`. -/
theorem runsTo_sameAnswer {P : B58Rec → Prop} {r : RespWord} {is : List Instr}
    (h : ∀ i ∈ is, ∀ t : State, P t.b58 → exec i t = .next (t.say r)) {t : State} (ht : P t.b58) :
    RunsTo is t fun t' => t'.resps = t.resps ++ List.replicate is.length r := by
  induction is generalizing t with
  | nil => exact ⟨t, rfl, by simp⟩
  | cons i is ih =>
    obtain ⟨hi, his⟩ := List.forall_mem_cons.1 h
    refine RunsTo.cons (hi t ht) ((ih his (t := t.say r) ht).imp fun t' ht' => ?_)
    simp [ht', List.replicate_succ]

/-- In ERROR the block refuses `i` (60_exceptions.md R155). -/
def RefusedInError (i : Instr) : Prop :=
  ∀ t : State, t.b58.phase = .error → exec i t = .next (t.say 0xE0000000#32)

theorem refusedInError_b58Push (v : Byte) : RefusedInError (.b58Push v) :=
  fun t he => execB58Push_of_not_active v t (by simp [he])

theorem refusedInError_b58Fin : RefusedInError .b58Fin := fun t he => execB58Fin_of_not_active t (by simp [he])

theorem refusedInError_b58Pop : RefusedInError .b58Pop := fun t he => execB58Pop_of_not_drain t (by simp [he])

/-- A data error of B58, after which the block refuses the rest of the transaction. -/
theorem runsTo_raise {i : Instr} {k : Kind} {t : State} (hk : kindBlock k = .b58) (hi : exec i t = raise k t)
    {is : List Instr} (his : ∀ j ∈ is, RefusedInError j) :
    RunsTo (i :: is) t fun t' =>
      t'.resps = t.resps ++ [respWord (kindCode k) []] ++ List.replicate is.length 0xE0000000#32 := by
  have herror : ((latchError k t).say (respWord (kindCode k) [])).b58.phase = .error := by
    rw [latchError_b58 k t hk]; rfl
  refine RunsTo.cons (hi.trans (raise_eq k t)) ?_
  simpa using runsTo_sameAnswer (P := fun b => b.phase = .error) his herror

/-- What is left of a transaction: pushes, `FIN` and pops. -/
def restOfTransaction (vs : List Byte) (pops : Nat) : List Instr :=
  vs.map .b58Push ++ [.b58Fin] ++ List.replicate pops .b58Pop

theorem refusedInError_of_mem_restOfTransaction (vs : List Byte) (pops : Nat) :
    ∀ i ∈ restOfTransaction vs pops, RefusedInError i := by
  simp only [restOfTransaction, List.forall_mem_append, List.forall_mem_map, List.forall_mem_singleton]
  exact ⟨⟨fun v _ => refusedInError_b58Push v, refusedInError_b58Fin⟩,
    fun i hi => List.eq_of_mem_replicate hi ▸ refusedInError_b58Pop⟩

theorem length_restOfTransaction (vs : List Byte) (pops : Nat) :
    (restOfTransaction vs pops).length = vs.length + 1 + pops := by
  simp [restOfTransaction]
  omega

/-- A transaction, cut at the push of `vs[i]`. -/
theorem b58Transaction_split (m : Mode) {vs : List Byte} (pops : Nat) {i : Nat} (hi : i < vs.length) :
    b58Transaction m vs pops = (Instr.b58Init m :: (vs.take i).map Instr.b58Push) ++
      Instr.b58Push vs[i] :: restOfTransaction (vs.drop (i + 1)) pops := by
  have hpushes : vs.map Instr.b58Push =
      (vs.take i).map Instr.b58Push ++ Instr.b58Push vs[i] :: (vs.drop (i + 1)).map Instr.b58Push := by
    rw [← List.map_cons, ← List.map_append, List.getElem_cons_drop, List.take_append_drop]
  simp only [b58Transaction, hpushes, restOfTransaction, List.cons_append, List.append_assoc]

/-- A transaction in which the push of `vs[i]` is a data error (R99, R100). -/
theorem b58Transaction_pushFails {s : State} {m : Mode} {vs : List Byte} {us : List Nat} {k : Kind} {i : Nat}
    (hcap : s.cfg.cap ≤ 255) (hi : i < vs.length) (hvs : UnitsOf m (vs.take i) us)
    (hok : m = .dec ∨ (outDigits m us).length ≤ s.cfg.cap) (hk : kindBlock k = .b58)
    (hfail : ∀ t, UnitsTaken s m us t → exec (.b58Push vs[i]) t = raise k t) (pops : Nat) :
    RunsTo (b58Transaction m vs pops) s fun t => t.resps =
      s.resps ++ List.replicate (i + 1) 0#32 ++ [respWord (kindCode k) []] ++
        List.replicate (vs.length - 1 - i + 1 + pops) 0xE0000000#32 := by
  have htaken : us.length = i := by rw [← hvs.length_eq, List.length_take, Nat.min_eq_left hi.le]
  have hleft : (vs.drop (i + 1)).length = vs.length - 1 - i := by rw [List.length_drop]; omega
  rw [b58Transaction_split m pops hi]
  refine (runsTo_b58Pushes hcap hvs hok).append fun t ht => ?_
  refine (runsTo_raise hk (hfail t ht) (refusedInError_of_mem_restOfTransaction _ pops)).imp fun t' ht' => ?_
  rw [ht', ht.resps, htaken, length_restOfTransaction, hleft]

/-! ### `FIN` and the pops -/

/-- `FIN` has opened the output for the units `us`, and `k` output units have been popped. -/
structure OutputOpen (m : Mode) (us : List Nat) (k : Nat) (t : State) : Prop extends HoldsUnits m us t where
  phase : t.b58.phase = .drain
  rptr : t.b58.rptr.toNat = k

/-- A pop delivers the next output unit. -/
theorem OutputOpen.pop {m : Mode} {us : List Nat} {k : Nat} {t : State} (h : OutputOpen m us k t)
    (hcap : (outDigits m us).length ≤ 255) (hk : k < (outputOf m us).length) :
    RunsTo [.b58Pop] t fun t' =>
      OutputOpen m us (k + 1) t' ∧ t'.resps = t.resps ++ [respWord 0 [(outputOf m us)[k]]] := by
  have hk' : k < (outDigits m us).length := hk.trans_eq (length_outputOf m us)
  obtain rfl := h.rptr
  have hunit : b58OutUnit t.b58.mode (BitVec.ofNat 8 (outDigits m us)[t.b58.rptr.toNat]) =
      some (outputOf m us)[t.b58.rptr.toNat] := by
    rw [h.mode, b58OutUnit_eq_outUnit (outDigits_lt m us _ (List.getElem_mem hk'))]
    simp [outputOf]
  have hexec := exec_b58Pop_of_digit h.phase (hk'.trans_eq h.outLen.symm) (h.popDigit hk') hunit
  have hstep : (t.b58.rptr + 1).toNat = t.b58.rptr.toNat + 1 :=
    Nat.mod_eq_of_lt (show t.b58.rptr.toNat + 1 < 256 by omega)
  exact runsTo_singleton hexec ⟨⟨⟨h.mode, h.ovf, h.leading, h.lz, h.cells⟩, h.phase, hstep⟩, rfl⟩

/-- The pops that are left deliver the output units that are left. -/
theorem OutputOpen.pops {m : Mode} {us : List Nat} {k n : Nat} {t : State} (h : OutputOpen m us k t)
    (hcap : (outDigits m us).length ≤ 255) (hk : k + n = (outputOf m us).length) :
    RunsTo (List.replicate n .b58Pop) t fun t' => OutputOpen m us (outputOf m us).length t' ∧
      t'.resps = t.resps ++ ((outputOf m us).drop k).map fun c => respWord 0 [c] := by
  induction n generalizing k t with
  | zero =>
    obtain rfl : k = (outputOf m us).length := hk
    exact ⟨t, rfl, h, by simp⟩
  | succ n ih =>
    have hlt : k < (outputOf m us).length := by omega
    rw [← List.getElem_cons_drop hlt]
    refine (h.pop hcap hlt).append fun t₁ ⟨h₁, hr₁⟩ => (ih h₁ (by omega)).imp fun t₂ ⟨h₂, hr₂⟩ => ⟨h₂, ?_⟩
    rw [hr₂, hr₁, List.map_cons, List.append_assoc, List.singleton_append]

/-- Pops after the last output unit are answered without data. -/
theorem OutputOpen.pops_exhausted {m : Mode} {us : List Nat} {t : State} (h : OutputOpen m us (outputOf m us).length t)
    (n : Nat) :
    RunsTo (List.replicate n .b58Pop) t fun t' => t'.resps = t.resps ++ List.replicate n 0#32 := by
  have hdone : b58OutLen t.b58 ≤ t.b58.rptr.toNat := (h.outLen.trans (h.rptr.trans (length_outputOf m us)).symm).le
  have hempty : ∀ i ∈ List.replicate n Instr.b58Pop, ∀ t : State,
      t.b58.phase = .drain ∧ b58OutLen t.b58 ≤ t.b58.rptr.toNat → exec i t = .next (t.say 0#32) := by
    rintro i hi t ⟨hd, hle⟩
    rw [List.eq_of_mem_replicate hi, ← respWord_success_nil]
    exact (execB58Pop_of_drain t hd).trans (if_pos hle)
  simpa using runsTo_sameAnswer (P := fun b => b.phase = .drain ∧ b58OutLen b ≤ b.rptr.toNat) hempty ⟨h.phase, hdone⟩

/-! ### The transactions -/

/-- `FIN` opens an output that has room, in DEC one of 25 bytes, and answers its length (41_base58.md R97). -/
theorem UnitsTaken.fin {s t : State} {m : Mode} {us : List Nat} (h : UnitsTaken s m us t)
    (hroom : (outDigits m us).length ≤ s.cfg.cap) (hlen : m = .enc ∨ (outputOf m us).length = 25) :
    RunsTo [.b58Fin] t fun t' =>
      OutputOpen m us 0 t' ∧ t'.resps = t.resps ++ [respWord 0 [BitVec.ofNat 8 (outputOf m us).length]] := by
  have hholds := h.holds hroom
  have hout : t.b58.lz.toNat + t.b58.blen.toNat = (outputOf m us).length :=
    hholds.outLen.trans (length_outputOf m us).symm
  have hpass : t.b58.mode = .enc ∨ t.b58.ovf = false ∧ t.b58.lz.toNat + t.b58.blen.toNat = 25 :=
    hlen.imp h.mode.trans fun h25 => ⟨hholds.ovf, hout.trans h25⟩
  obtain ⟨-, -, hfin⟩ := b58FinClosesTheInput.2 t
  refine runsTo_singleton (hfin h.phase hpass) ⟨⟨{ hholds with }, rfl, rfl⟩, ?_⟩
  rw [hout]

/-- A transaction whose output has room, in DEC one of 25 bytes, delivers it (R99, R100). -/
theorem b58Transaction_delivers {s : State} {m : Mode} {vs : List Byte} {us : List Nat} (hcap : s.cfg.cap ≤ 255)
    (hvs : UnitsOf m vs us) (hroom : (outputOf m us).length ≤ s.cfg.cap) (hlen : m = .enc ∨ (outputOf m us).length = 25)
    (extra : Nat) :
    RunsTo (b58Transaction m vs ((outputOf m us).length + extra)) s fun t => t.resps =
      s.resps ++ List.replicate (vs.length + 1) 0#32 ++ [respWord 0 [BitVec.ofNat 8 (outputOf m us).length]] ++
        (outputOf m us).map (fun c => respWord 0 [c]) ++ List.replicate extra 0#32 := by
  have hroom' := hroom
  rw [length_outputOf] at hroom'
  have hpushes := runsTo_b58Pushes hcap hvs (.inr hroom')
  rw [b58Transaction, List.replicate_add, List.append_assoc]
  refine hpushes.append fun t₁ h₁ => (h₁.fin hroom' hlen).append fun t₂ ⟨h₂, hfin⟩ =>
    (h₂.pops (hroom'.trans hcap) (Nat.zero_add _)).append fun t₃ ⟨h₃, hpops⟩ =>
      (h₃.pops_exhausted extra).imp fun t hextra => ?_
  rw [hextra, hpops, hfin, h₁.resps, hvs.length_eq, List.drop_zero]

/-- A decoding transaction whose output is not of 25 bytes fails at `FIN`, overflow or not (R100, R101). -/
theorem b58Transaction_finFails {s : State} {vs : List Byte} {us : List Nat} (hcap : 25 ≤ s.cfg.cap ∧ s.cfg.cap ≤ 255)
    (hvs : UnitsOf .dec vs us) (hlen : (outputOf .dec us).length ≠ 25) (pops : Nat) :
    RunsTo (b58Transaction .dec vs pops) s fun t => t.resps =
      s.resps ++ List.replicate (vs.length + 1) 0#32 ++ [0x20000000#32] ++ List.replicate pops 0xE0000000#32 := by
  have hpops : ∀ j ∈ List.replicate pops Instr.b58Pop, RefusedInError j :=
    fun j hj => List.eq_of_mem_replicate hj ▸ refusedInError_b58Pop
  rw [b58Transaction, List.append_assoc]
  refine (runsTo_b58Pushes hcap.2 hvs (.inl rfl)).append fun t h => ?_
  have hbad : t.b58.mode = .dec ∧ (t.b58.ovf = true ∨ b58OutLen t.b58 ≠ b58DecLen) := by
    refine ⟨h.mode, (Nat.lt_or_ge s.cfg.cap (outDigits .dec us).length).imp h.full fun hroom => ?_⟩
    rwa [(h.holds hroom).outLen, ← length_outputOf]
  have hfin : exec .b58Fin t = raise .invalidLength t := (execB58Fin_of_active t h.phase).trans (if_pos hbad)
  refine (runsTo_raise rfl hfin hpops).imp fun t' ht' => ?_
  rw [ht', h.resps, hvs.length_eq, List.length_replicate]
  rfl

/-- Settles O38: the units are the bytes; a byte without room is the overflow of ENC. -/
theorem encodingTransactionComputesBase58Encode : Obligations.EncodingTransactionComputesBase58Encode := by
  intro s bs extra hlegal
  refine ⟨fun hroom => ?_, fun i hi hfits hfull => ?_⟩
  · rw [base58Encode_eq_outputOf] at hroom ⊢
    exact b58Transaction_delivers hlegal.2 (unitsOf_enc bs) hroom (.inl rfl) extra
  · have hroom := hfits i (Nat.le_refl i)
    rw [base58Encode_eq_outputOf, length_outputOf] at hroom hfull
    refine b58Transaction_pushFails hlegal.2 hi (unitsOf_enc _) (.inr hroom) (k := .eCapacity) rfl (fun t h => ?_) extra
    rw [List.take_add_one, List.getElem?_eq_getElem hi, List.map_append] at hfull
    refine (exec_b58Push_of_unit h.phase (b58Unit_enc h.mode _)).trans ?_
    exact ((h.holds hroom).push_full (h.cfg ▸ hfull)).trans (b58Overflow_enc t h.mode)

/-- Settles O39: the units are the digits of the characters; a foreign character has none. -/
theorem decodingTransactionComputesBase58Decode : Obligations.DecodingTransactionComputesBase58Decode := by
  intro s cs extra hcap
  refine ⟨fun bs hdecode => ?_, fun hdecode => ?_, fun i hi hprefix hforeign => ?_⟩
  · have hcs := unitsOf_dec (allBase58_of_base58Decode_ne (cs := cs) (by simp [hdecode]))
    obtain ⟨hlen, rfl⟩ := (base58Decode_eq_ok_iff hcs bs).1 hdecode
    have hdelivers := b58Transaction_delivers hcap.2 hcs (hlen.trans_le hcap.1) (.inr hlen) extra
    rwa [hlen] at hdelivers
  · have hcs := unitsOf_dec (allBase58_of_base58Decode_ne (cs := cs) (by simp [hdecode]))
    rw [base58Decode_of_unitsOf hcs] at hdecode
    exact b58Transaction_finFails hcap hcs (fun hlen => by simp [hlen] at hdecode) extra
  · refine b58Transaction_pushFails hcap.2 hi (unitsOf_dec hprefix) (.inl rfl) (k := .invalidCharacter) rfl
      (fun t h => ?_) extra
    have hnone : b58Unit t.b58.mode cs[i] = none := by rw [h.mode]; exact hforeign
    refine (execB58Push_of_active cs[i] t h.phase).trans ?_
    simp only [hnone]

end Sys2Proof.Machine
end
